-- ==== Sys2Proof/Word.lean ====
section
/-! DEFINITION. The bit vectors of the core: bytes of memory and of the token stream, and the 64-bit words of
registers and bus addresses (10_state.md R21, 20_memory.md R50, 30_encoding.md R89). -/

namespace Sys2Proof

/-- A byte: a cell of host memory, and the unit of the token stream (R50, R89). -/
abbrev Byte := BitVec 8

/-- A 64-bit register value or bus address (R21, R50). -/
abbrev Word := BitVec 64

end Sys2Proof
end

