-- ==== Sys2Proof/Config.lean ====
section
/-! DEFINITION. The implementation parameters of 00_scope.md R8, the build parameters (R3, R176, R206, R211), and the
values the spec leaves open (R61 for the free bytes, R8 for REG_BASE). -/

namespace Sys2Proof.Config

/-- `LZ4_VARIANT` (R3, R176). -/
inductive Variant where
  | linux
  | upstream19
deriving DecidableEq, Repr

/-- What a build may choose: the LZ4 revision (R176), the pointer width (R8 `ARCH64`), and the two chunking constants
(R206, R211). -/
structure Params where
  variant   : Variant
  arch64    : Bool
  chunkMax  : Nat
  chunkTail : Nat
deriving DecidableEq, Repr

/-- This hardware's build (R3, R8, R210, R211). -/
def hw : Params := { variant := .linux, arch64 := true, chunkMax := 0x7ffff000, chunkTail := 65536 }

/-- `HASH_LOG` (R8, R124). -/
def hashLog : Nat := 12
/-- `SKIP_SHIFT` (R8, R140). -/
def skipShift : Nat := 6
/-- `MINMATCH` (R8). -/
def minMatch : Nat := 4
/-- `ML_MASK` and `RUN_MASK` (R8). -/
def runMask : Nat := 15
/-- `MFLIMIT` (R8). -/
def mfLimit : Nat := 12
/-- `LASTLITERALS` (R8). -/
def lastLiterals : Nat := 5
/-- `MIN_INPUT` (R8, R178). -/
def minInput : Nat := 5
/-- `MAX_DISTANCE` (R8, R146). -/
def maxDistance : Nat := 65535
/-- `DICT_WINDOW` (R8, R58). -/
def dictWindow : Nat := 65536
/-- `DICT_BIAS` (R8, R38). -/
def dictBias : Nat := 65536
/-- `U16_LIMIT` (R8, R126). -/
def u16Limit : Nat := 65547
/-- `PRIME4` (R8, R121). -/
def prime4 : Nat := 2654435761
/-- `PRIME5` (R8, R122). -/
def prime5 : Nat := 889523592379
/-- `HASH_UNIT` (R8, R132). -/
def hashUnit (P : Params) : Nat := if P.arch64 then 8 else 4
/-- 2^ADDR_WIDTH, the size of host memory in bytes (R8, R50). -/
def addrSpace : Nat := 2 ^ 64

/-- `REG_BASE`, the bus address of register offset 0: an OPEN parameter (R8, R62). Log 17. -/
opaque regBase : Word

/-- The bus address of the register at offset `off` (R21, R86). The model's host moves name a register by its offset
(R90), so no meaning depends on this address. -/
def regAddress (off : Nat) : Word := regBase + BitVec.ofNat 64 off

/-- A byte the spec leaves unspecified, one for each draw (R61: the destination of a failed COMPRESS). Log 8. -/
opaque freeByte : Nat → Byte

end Sys2Proof.Config
end

