-- ==== Sys2Proof/Syntax.lean ====
section
/-! DEFINITION. The core's two encoded languages as one inductive: the six command words of 30_encoding.md R73 and the
two token forms of R75 and R87. Every row of spec/opcode_table.json is one constructor. -/

namespace Sys2Proof

/-- The operation of a command word, field OP (R71). -/
inductive Op where
  | compress
  | decompress
deriving DecidableEq, Repr

/-- A dictionary mode (R16, R72): NODICT, PREFIX and EXTDICT under the source's names. -/
inductive DictMode where
  | noDict
  | withPrefix64k
  | usingExtDict
deriving DecidableEq, Repr

/-- A token of the stream (R75). A sequence token carries its literals, its offset and its match-length field
MLF = ML - 4; a last token carries the low nibble the decoder ignores (R80) and its literals. -/
inductive Token where
  | seq  (lits : List Byte) (off : BitVec 16) (mlf : Nat)
  | last (mln : BitVec 4) (lits : List Byte)
deriving DecidableEq, Repr

/-- The instructions: six command words (R73, R100 to R105), whose operands are the registers, and two token forms
(R218, R222), whose operands are the fields of `Token`. -/
inductive Instr where
  | compress
  | compressPrefix
  | compressExtdict
  | decompress
  | decompressPrefix
  | decompressExtdict
  | tokenSeq  (lits : List Byte) (off : BitVec 16) (mlf : Nat)
  | tokenLast (mln : BitVec 4) (lits : List Byte)
deriving DecidableEq, Repr

/-- The instruction a token is. -/
def Token.toInstr : Token → Instr
  | .seq lits off mlf => .tokenSeq lits off mlf
  | .last mln lits => .tokenLast mln lits

/-- The language an instruction belongs to: command words come through CMD, tokens from the stream (30_encoding.md). -/
inductive Language where
  | command
  | token
deriving DecidableEq, Repr

/-- The language of each instruction (R87). -/
def Instr.language : Instr → Language
  | .compress => .command
  | .compressPrefix => .command
  | .compressExtdict => .command
  | .decompress => .command
  | .decompressPrefix => .command
  | .decompressExtdict => .command
  | .tokenSeq _ _ _ => .token
  | .tokenLast _ _ => .token

end Sys2Proof
end

