-- ==== Sys2Proof/Decode.lean ====
section
/-! DEFINITION. The encodings of 30_encoding.md: bytes as little-endian numbers (R12, R52), the varint lengths
(43_varint_token.md R160 to R162), the command word (R70 to R73) and the token stream (R75 to R82), each decoder beside
its encoder. The decoders are total: what they reject, they reject by name. -/

namespace Sys2Proof

/-! ## Bytes as numbers -/

/-- The little-endian number a byte string forms (R12, R52, R53). -/
def leNat : List Byte → Nat
  | [] => 0
  | b :: bs => b.toNat + 256 * leNat bs

/-- The `n` low-order bytes of `v`, least significant first (R12). -/
def leBytes : Nat → Nat → List Byte
  | 0, _ => []
  | n + 1, v => BitVec.ofNat 8 v :: leBytes n (v / 256)

/-! ## Lengths -/

/-- The 4-bit code of a length (R78, R160). -/
def lenNibble (x : Nat) : Nat := min x Config.runMask

/-- The continuation bytes of a length (R160). -/
def lenExt (x : Nat) : List Byte :=
  if x < Config.runMask then []
  else List.replicate ((x - Config.runMask) / 255) 0xFF#8 ++ [BitVec.ofNat 8 ((x - Config.runMask) % 255)]

/-- `ext(x)`, the number of continuation bytes (R161). -/
def lenExtSize (x : Nat) : Nat := if x < Config.runMask then 0 else (x - Config.runMask) / 255 + 1

/-- The loop of `DecLen`: add bytes up to and including the first that is not 0xFF; none if the stream ends first
(R162). -/
def decExt (x : Nat) : List Byte → Option (Nat × List Byte)
  | [] => none
  | b :: bs => if b = 0xFF#8 then decExt (x + b.toNat) bs else some (x + b.toNat, bs)

/-- `DecLen(N, S, i)` with the stream from cursor i on: the length and the rest of the stream, or none where the stream
ends inside the ext (R162). -/
def decLen (nibble : Nat) (s : List Byte) : Option (Nat × List Byte) :=
  if nibble = Config.runMask then decExt nibble s else some (nibble, s)

/-! ## The command word -/

/-- Field OP, bits [3:0] (R70). -/
def opField (w : Word) : Nat := (w.extractLsb' 0 4).toNat

/-- Field DICT, bits [5:4] (R70). -/
def dictField (w : Word) : Nat := (w.extractLsb' 4 2).toNat

/-- The reserved field, bits [63:6] (R70). -/
def reservedField (w : Word) : Nat := (w.extractLsb' 6 58).toNat

/-- Why bytes are no instruction. The first four are causes of IllegalCommand (R247), the others of CorruptStream
(R244); a token reason carries what was read before the stream ended. -/
inductive DecodeError where
  /-- a set bit in [63:6] (R70) -/
  | reservedBits
  /-- OP 0 or 3 to 15 (R71) -/
  | reservedOp
  /-- DICT 3 (R72) -/
  | reservedDict
  /-- a command is one 64-bit word (R74) -/
  | notOneWord
  /-- no byte where a token must start (R217) -/
  | noToken
  /-- the stream ends inside the LL ext (R219) -/
  | literalExtCut (tok : Byte)
  /-- more literals announced than the stream holds (R221 (i)) -/
  | literalsCut (tok : Byte) (ll : Nat)
  /-- fewer than two offset bytes (R223) -/
  | offsetCut (tok : Byte) (lits : List Byte)
  /-- the stream ends inside the ML ext (R225) -/
  | matchExtCut (tok : Byte) (lits : List Byte) (off : BitVec 16)
deriving DecidableEq, Repr

/-- The operation OP names (R71). -/
def opOf (op : Nat) : Option Op :=
  if op = 1 then some .compress else if op = 2 then some .decompress else none

/-- The mode DICT names (R72). -/
def dictOf (d : Nat) : Option DictMode :=
  if d = 0 then some .noDict else if d = 1 then some .withPrefix64k else if d = 2 then some .usingExtDict else none

/-- The command of an operation in a dictionary mode (R73). -/
def commandOf : Op → DictMode → Instr
  | .compress, .noDict => .compress
  | .compress, .withPrefix64k => .compressPrefix
  | .compress, .usingExtDict => .compressExtdict
  | .decompress, .noDict => .decompress
  | .decompress, .withPrefix64k => .decompressPrefix
  | .decompress, .usingExtDict => .decompressExtdict

/-- Decode a command word: its operation and dictionary mode, or the reason it is illegal (R70 to R74). -/
def decodeFields (w : Word) : Except DecodeError (Op × DictMode) :=
  if reservedField w ≠ 0 then .error .reservedBits
  else match opOf (opField w) with
    | none => .error .reservedOp
    | some op => match dictOf (dictField w) with
      | none => .error .reservedDict
      | some d => .ok (op, d)

/-- Decode a command word to its instruction (R73). -/
def decodeCommand (w : Word) : Except DecodeError Instr :=
  match decodeFields w with
  | .error e => .error e
  | .ok (op, d) => .ok (commandOf op d)

/-- The command word of a command instruction (R73); a token has none. -/
def commandWord : Instr → Option Word
  | .compress => some 0x01#64
  | .compressPrefix => some 0x11#64
  | .compressExtdict => some 0x21#64
  | .decompress => some 0x02#64
  | .decompressPrefix => some 0x12#64
  | .decompressExtdict => some 0x22#64
  | .tokenSeq _ _ _ => none
  | .tokenLast _ _ => none

/-! ## The token stream -/

/-- LLN, the high nibble of a token byte (R76). -/
def tokenLln (tok : Byte) : Nat := (tok.extractLsb' 4 4).toNat

/-- MLN, the low nibble of a token byte (R76). -/
def tokenMln (tok : Byte) : BitVec 4 := tok.extractLsb' 0 4

/-- A token byte from its two nibbles, each below 16 (R76). -/
def tokenByte (lln mln : Nat) : Byte := BitVec.ofNat 8 (16 * lln + mln)

/-- The 2-byte offset (R52, R79). -/
def offsetOf (o0 o1 : Byte) : BitVec 16 := BitVec.ofNat 16 (leNat [o0, o1])

/-- Read one token from the front of a stream: the token and the rest of the stream (R75, R77, R81, R222). The literals
ending exactly at the end of the stream make it the last token. -/
def decodeToken : List Byte → Except DecodeError (Token × List Byte)
  | [] => .error .noToken
  | tok :: s1 =>
    match decLen (tokenLln tok) s1 with
    | none => .error (.literalExtCut tok)
    | some (ll, s2) =>
      if s2.length < ll then .error (.literalsCut tok ll)
      else
        match s2.drop ll with
        | [] => .ok (.last (tokenMln tok) (s2.take ll), [])
        | [_] => .error (.offsetCut tok (s2.take ll))
        | o0 :: o1 :: s4 =>
          match decLen (tokenMln tok).toNat s4 with
          | none => .error (.matchExtCut tok (s2.take ll) (offsetOf o0 o1))
          | some (mlf, s5) => .ok (.seq (s2.take ll) (offsetOf o0 o1) mlf, s5)

/-- The bytes of a token (R75, R165, R166). -/
def encodeToken : Token → List Byte
  | .seq lits off mlf =>
    tokenByte (lenNibble lits.length) (lenNibble mlf) :: (lenExt lits.length ++ lits ++ leBytes 2 off.toNat ++ lenExt mlf)
  | .last mln lits => tokenByte (lenNibble lits.length) mln.toNat :: (lenExt lits.length ++ lits)

/-- The number of bytes of a token (R167). -/
def tokenSize : Token → Nat
  | .seq lits _ mlf => 1 + lenExtSize lits.length + lits.length + 2 + lenExtSize mlf
  | .last _ lits => 1 + lenExtSize lits.length + lits.length

/-! ## Both languages -/

/-- Decode bytes in one of the two languages: a command is its eight bytes, least significant first (log 9); a token is
read from the front of a stream, and what follows it is handed back. -/
def decode : Language → List Byte → Except DecodeError (Instr × List Byte)
  | .command, bs =>
    if bs.length = 8 then (decodeCommand (BitVec.ofNat 64 (leNat bs))).map (fun i => (i, []))
    else .error .notOneWord
  | .token, bs => (decodeToken bs).map (fun t => (t.1.toInstr, t.2))

/-- Encode an instruction: a command's word as eight bytes, least significant first (log 9), or a token's bytes. -/
def encode : Instr → List Byte
  | .compress => leBytes 8 0x01
  | .compressPrefix => leBytes 8 0x11
  | .compressExtdict => leBytes 8 0x21
  | .decompress => leBytes 8 0x02
  | .decompressPrefix => leBytes 8 0x12
  | .decompressExtdict => leBytes 8 0x22
  | .tokenSeq lits off mlf => encodeToken (.seq lits off mlf)
  | .tokenLast mln lits => encodeToken (.last mln lits)

/-- The number of bytes of an instruction (R74, R167). -/
def encodedSize : Instr → Nat
  | .compress => 8
  | .compressPrefix => 8
  | .compressExtdict => 8
  | .decompress => 8
  | .decompressPrefix => 8
  | .decompressExtdict => 8
  | .tokenSeq lits off mlf => tokenSize (.seq lits off mlf)
  | .tokenLast mln lits => tokenSize (.last mln lits)

/-! ## A row of the opcode table as bytes -/

/-- A token byte standing alone, with operand bytes of zeros: a zero LL ext byte where LLN = 15, LL zero literals, and,
where MLN is not 0, a zero offset and a zero ML ext byte where MLN = 15. MLN = 0 is the byte the encoder writes for a last
token (R80), so there the stream ends with the literals. Log 10. -/
def isolatedToken (tok : Byte) : List Byte :=
  tok :: (List.replicate (if tokenLln tok = 15 then 1 else 0) 0#8 ++ List.replicate (tokenLln tok) 0#8 ++
    (if tokenMln tok = 0#4 then []
     else 0#8 :: 0#8 :: List.replicate (if tokenMln tok = 15#4 then 1 else 0) 0#8))

/-- The bytes of a table row: a 64-bit row is a command word, an 8-bit row a token byte standing alone, and any other
number of whole bytes a stretch of the token stream (log 10). -/
def tableBytes (nbits w : Nat) : Language × List Byte :=
  if nbits = 64 then (.command, leBytes 8 w)
  else if nbits = 8 then (.token, isolatedToken (BitVec.ofNat 8 w))
  else (.token, leBytes (nbits / 8) w)

/-- The instruction the decoder reads from a table row's bits. -/
def decodeTableWord (nbits w : Nat) : Option Instr :=
  match decode (tableBytes nbits w).1 (tableBytes nbits w).2 with
  | .ok (i, _) => some i
  | .error _ => none

end Sys2Proof
end

