-- ==== Sys2Proof/Machine/State.lean ====
section
/-! DEFINITION. The state of the codec core as plain data (10_state.md R20 to R41, R45), host memory beside it
(20_memory.md R50), and the reasons a step can stop. -/

namespace Sys2Proof.Machine

/-- Host memory (R50): the listed bytes by rising address; `unlistedByte` (Machine/Ops.lean) is what any other address
reads as. -/
abbrev Memory := List Host.Cell

/-- The errors that end a command (60_exceptions.md R241). -/
inductive Err where
  | inputTooLarge
  | outputBoundExceeded
  | chunkProgressFailure
  | corruptStream
  | illegalCommand
  | badRegion
deriving DecidableEq, Repr

/-- A range of host memory, `[base, +len)` (R57). -/
structure Region where
  base : Nat
  len  : Nat
deriving DecidableEq, Repr

/-- What the host does at its turn (40_commands.md R90, 20_memory.md R64, 70_reset_and_hazards.md R260). Log 2. -/
inductive HostMove where
  /-- a read of the register at an offset of the window, with the access width in bits -/
  | regRead (off width : Nat)
  /-- a write of the register at an offset of the window, with the access width in bits -/
  | regWrite (off width : Nat) (v : Word)
  /-- a read of one byte of host memory -/
  | memRead (a : Word)
  /-- a write of one byte of host memory -/
  | memWrite (a : Word) (b : Byte)
  /-- no access: the core has the turn -/
  | wait
  /-- the reset event -/
  | reset
deriving DecidableEq, Repr

/-- The command latch (R30). -/
structure Latch where
  word     : Word
  srcAddr  : Word
  srcLen   : Word
  dstAddr  : Word
  dstCap   : Word
  dictAddr : Word
  dictLen  : Word
  accel    : BitVec 32
deriving DecidableEq, Repr

/-- The named states of the compression engine (44_compress_engine.md R175). -/
inductive EngineState where
  | seekMatch
  | catchUp
  | encodeLiterals
  | encodeMatch
  | nextMatch
  | lastLiterals
  | done
deriving DecidableEq, Repr

/-- The table modes (R16, R31). -/
inductive TableMode where
  | u16
  | u32
  | ptr
deriving DecidableEq, Repr

/-- The compression engine: its state name, the cursors of R36, the working variables of R37, the table mode of R39 and
the hash table RAM of R31. The output count op is the length of `out` (log 27). The hash table lists the slots that have
been put since the last clear, by rising slot; a slot not listed is empty (R31, R32; log 20). -/
structure Engine where
  phase  : EngineState
  ip     : Nat
  anchor : Nat
  out    : List Byte
  fwd    : Nat
  step   : Nat
  nb     : Nat
  p      : Nat
  c      : Nat
  tokpos : Nat
  k      : Nat
  tm     : TableMode
  ht     : List (Nat × Nat)
deriving DecidableEq, Repr

/-- The chunk wrapper's variables (R41). -/
structure Wrapper where
  pos     : Nat
  outBase : Nat
deriving DecidableEq, Repr

/-- The decoder's registers (R40). -/
structure Decoder where
  i   : Nat
  op  : Nat
  tok : Byte
  ll  : Nat
  ml  : Nat
  off : BitVec 16
deriving DecidableEq, Repr

/-- The engine when no command uses it (R45 gives it no value; log 6, log 7). -/
def Engine.idle : Engine :=
  { phase := .done, ip := 0, anchor := 0, out := [], fwd := 0, step := 0, nb := 0, p := 0, c := 0, tokpos := 0, k := 0,
    tm := .u16, ht := [] }

/-- The decoder at the head of a stream (R215), and when no command uses it (log 7). -/
def Decoder.start : Decoder := { i := 0, op := 0, tok := 0, ll := 0, ml := 0, off := 0 }

/-- The wrapper at the start of a command (R200), and when no command uses it (log 7). -/
def Wrapper.start : Wrapper := { pos := 0, outBase := 0 }

/-- The latch before any `Start` (R45 gives it no value; log 5). -/
def Latch.unset : Latch :=
  { word := 0, srcAddr := 0, srcLen := 0, dstAddr := 0, dstCap := 0, dictAddr := 0, dictLen := 0, accel := 0 }

/-- The machine: the register file (R21), the latch (R30), the transient state of a command (R36 to R41) with the hash
table (R31), host memory (R50), and three fields of the model's own (host, readData, draws; log 2, log 14, log 8). -/
structure State where
  /-- STATUS (R23) -/
  status    : Word
  /-- SRC_ADDR (R24) -/
  srcAddr   : Word
  /-- SRC_LEN (R24) -/
  srcLen    : Word
  /-- DST_ADDR (R25) -/
  dstAddr   : Word
  /-- DST_CAP (R25) -/
  dstCap    : Word
  /-- DICT_ADDR (R26) -/
  dictAddr  : Word
  /-- DICT_LEN (R26) -/
  dictLen   : Word
  /-- ACCEL, its bits 31 to 0 (R27) -/
  accel     : BitVec 32
  /-- RESULT_LEN (R28) -/
  resultLen : Word
  /-- the command latch (R30) -/
  latch     : Latch
  /-- dm, the effective dictionary mode of the command (R39) -/
  dm        : DictMode
  /-- the compression engine with its hash table (R31, R36, R37, R39) -/
  engine    : Engine
  /-- the chunk wrapper (R41) -/
  wrapper   : Wrapper
  /-- the token decoder (R40) -/
  dec       : Decoder
  /-- host memory (R50) -/
  mem       : Memory
  /-- the host's pending moves, oldest first -/
  host      : List HostMove
  /-- what the host's last read returned -/
  readData  : Word
  /-- how many free bytes have been drawn -/
  draws     : Nat
deriving DecidableEq, Repr

/-- Why the machine stops. None of these is reached from reset. -/
inductive Fault where
  /-- Raised by every instruction's body and by a token when a range of the latched command passes the end of the 2^64-byte
  host memory (R50): `Start` refuses such a command with BadRegion (R59). Safe. Log 11. -/
  | addressOutOfRange
  /-- Raised by a command's body when a loop used up its bound, which the work of a command never does (R112). Safe.
  Log 12. -/
  | bodyDidNotEnd
  /-- Raised by the core's own step when BUSY is set and the latched word is no command, which `Start` never leaves (R93).
  Safe. Log 11. -/
  | busyWithoutCommand
deriving DecidableEq, Repr

/-- What the model gives no meaning. -/
inductive Refusal where
  /-- Raised by an arm of exec for an instruction without a meaning. Safe. -/
  | notModelled (mnemonic : String)
  /-- Raised by a host access to the window that is not 64 bits wide at an 8-byte-aligned offset (R55). Safe. Log 16. -/
  | windowAccessNotAligned64
  /-- Raised by a host register access whose offset lies outside the window (R90). Safe. Log 16. -/
  | outsideWindow
  /-- Raised by a host access, while BUSY, to memory the command owns (R69). Safe. Log 15. -/
  | commandOwnsBuffer
  /-- Raised by COMPRESS on a build with CHUNK_MAX at most CHUNK_TAIL when a chunk consumes nothing (R206). Never on this
  hardware's build. Safe. Log 21. -/
  | chunkWithoutProgress
deriving DecidableEq, Repr

/-- The machine after power-on reset (R45, R260). The latch, the hash table and the transients have no value there
(log 5, log 6, log 7); memory lists nothing (log 4). -/
def State.reset : State :=
  { status := 0, srcAddr := 0, srcLen := 0, dstAddr := 0, dstCap := 0, dictAddr := 0, dictLen := 0, accel := 0,
    resultLen := 0, latch := Latch.unset, dm := .noDict, engine := Engine.idle, wrapper := Wrapper.start,
    dec := Decoder.start, mem := [], host := [], readData := 0, draws := 0 }

end Sys2Proof.Machine
end

