-- ==== Sys2Proof/Machine/Flags.lean ====
section
/-! DEFINITION. STATUS, the core's only flag state (10_state.md R23): its fields, the error codes (60_exceptions.md R241)
and the three words the core ever writes to it (40_commands.md R93, R94). -/

namespace Sys2Proof.Machine

/-- BUSY, bit 0 (R23). -/
def statusBusy (w : Word) : Bool := w.getLsbD 0

/-- DONE, bit 1 (R23). -/
def statusDone (w : Word) : Bool := w.getLsbD 1

/-- ERROR, bit 2 (R23). -/
def statusError (w : Word) : Bool := w.getLsbD 2

/-- ERR, bits [11:8] (R23). -/
def statusErr (w : Word) : BitVec 4 := w.extractLsb' 8 4

/-- The reserved bits [7:3] and [63:12] (R23). -/
def statusReserved (w : Word) : Word := w &&& 0xFFFFFFFFFFFFF0F8#64

/-- The numeric error codes (R241). -/
def errCode : Err → BitVec 4
  | .inputTooLarge => 1
  | .outputBoundExceeded => 2
  | .chunkProgressFailure => 3
  | .corruptStream => 4
  | .illegalCommand => 5
  | .badRegion => 6

/-- STATUS of a running command: BUSY (R93). -/
def busyWord : Word := 0b001#64

/-- STATUS of a command that ended without error: DONE (R94). -/
def doneWord : Word := 0b010#64

/-- STATUS of a command that ended with an error: ERR, ERROR and DONE (R93, R94, R246). -/
def errorWord (e : Err) : Word := ((errCode e).zeroExtend 64 <<< 8) ||| 0b110#64

/-- A command has started and not completed (R23, R94). -/
def State.busy (s : State) : Bool := statusBusy s.status

end Sys2Proof.Machine
end

