-- ==== Sys2Proof/Machine/Ops.lean ====
section
/-! DEFINITION. The named operations over memory, the register window and STATUS: the memory primitives of 00_scope.md
R12, register access (40_commands.md R91, R92), and the completion of a command with or without an error, the core's
trap entry (60_exceptions.md R246), beside the start that clears it, its trap return (R251). -/

namespace Sys2Proof.Machine

/-! ## Host memory -/

/-- What a byte of host memory reads as before anything has written it (log 4). -/
def unlistedByte : Byte := 0#8

/-- One byte of host memory (R12, R50). -/
def readByte : Memory → Nat → Byte
  | [], _ => unlistedByte
  | (k, v) :: m, a => if k = a then v else readByte m a

/-- Write one byte of host memory (R12, R50), keeping the canonical form: rising addresses, and no byte listed that reads
the same unlisted. -/
def writeByte : Memory → Nat → Byte → Memory
  | [], a, b => if b = unlistedByte then [] else [(a, b)]
  | (k, v) :: m, a, b =>
    if a < k then (if b = unlistedByte then (k, v) :: m else (a, b) :: (k, v) :: m)
    else if a = k then (if b = unlistedByte then m else (a, b) :: m)
    else (k, v) :: writeByte m a b

/-- The canonical form of memory: rising addresses below 2^64, none listed with the byte an unlisted one reads as. -/
def memoryWf : Memory → Bool
  | [] => true
  | (k, v) :: m => decide (k < Config.addrSpace) && v != unlistedByte && m.all (fun c => decide (k < c.1)) && memoryWf m

/-- `MemReadBytes(addr, n)` (R12). -/
def readBytes (m : Memory) : Nat → Nat → List Byte
  | _, 0 => []
  | a, n + 1 => readByte m a :: readBytes m (a + 1) n

/-- `MemWriteBytes(addr, s)` (R12). -/
def writeBytes (m : Memory) : Nat → List Byte → Memory
  | _, [] => m
  | a, b :: bs => writeBytes (writeByte m a b) (a + 1) bs

/-- `MemRead(addr, n)`: the little-endian number of n bytes (R12). -/
def memReadNat (m : Memory) (a n : Nat) : Nat := leNat (readBytes m a n)

/-- `MemWrite(addr, n, v)`: the n low-order bytes of v, least significant at addr (R12). -/
def memWriteNat (m : Memory) (a n v : Nat) : Memory := writeBytes m a (leBytes n v)

/-- `n` bytes from `a` upward take unspecified values, one free byte each from draw `k` on (R61; log 8). -/
def fillFree (m : Memory) : Nat → Nat → Nat → Memory
  | _, 0, _ => m
  | a, n + 1, k => fillFree (writeByte m a (Config.freeByte k)) (a + 1) n (k + 1)

/-! ## The register window -/

/-- `RegRead(off)` (R91): the register at an offset, 0 for CMD and for a reserved offset. -/
def regRead (s : State) (off : Nat) : Word :=
  if off = 0x08 then s.status
  else if off = 0x10 then s.srcAddr
  else if off = 0x18 then s.srcLen
  else if off = 0x20 then s.dstAddr
  else if off = 0x28 then s.dstCap
  else if off = 0x30 then s.dictAddr
  else if off = 0x38 then s.dictLen
  else if off = 0x40 then s.accel.zeroExtend 64
  else if off = 0x48 then s.resultLen
  else 0

/-- `RegWrite(off, v)` at an offset other than CMD's, while BUSY = 0 (R92): the parameter registers take v, ACCEL its bits
[31:0]; STATUS, RESULT_LEN and the reserved offsets ignore the write. -/
def regWrite (s : State) (off : Nat) (v : Word) : State :=
  if off = 0x10 then { s with srcAddr := v }
  else if off = 0x18 then { s with srcLen := v }
  else if off = 0x20 then { s with dstAddr := v }
  else if off = 0x28 then { s with dstCap := v }
  else if off = 0x30 then { s with dictAddr := v }
  else if off = 0x38 then { s with dictLen := v }
  else if off = 0x40 then { s with accel := v.truncate 32 }
  else s

/-! ## Starting and completing a command -/

/-- A command completes with an error (R93, R246): STATUS takes the code with ERROR and DONE, RESULT_LEN takes `len`,
nothing else changes. -/
def endWithError (e : Err) (len : Nat) (s : State) : State :=
  { s with status := errorWord e, resultLen := BitVec.ofNat 64 len }

/-- A command completes without error (R94). -/
def endOk (len : Nat) (s : State) : State :=
  { s with status := doneWord, resultLen := BitVec.ofNat 64 len }

/-- A command becomes busy with its latch (R93); STATUS and RESULT_LEN of the command before it are cleared (R251). -/
def beginCommand (l : Latch) (s : State) : State :=
  { s with status := busyWord, resultLen := 0, latch := l }

/-- The reset event (R260 to R265): every register and all internal state as after power-on; host memory keeps its bytes,
and the host's later moves and the model's draw counter go on (log 24). -/
def resetEvent (s : State) : State :=
  { State.reset with mem := s.mem, host := s.host, readData := s.readData, draws := s.draws }

end Sys2Proof.Machine
end

