-- ==== Sys2Proof/Machine/Operands.lean ====
section
/-! DEFINITION. The operands of a command: the latch, the effective capacity and acceleration, the dictionary and the
buffer ranges, and the checks `Start` makes of them (40_commands.md R95 to R97, 20_memory.md R57 to R60). -/

namespace Sys2Proof.Machine

/-- `COMPRESS_BOUND(n)` (00_scope.md R9). -/
def compressBound (n : Nat) : Nat := n + n / 255 + 16

/-- The effective acceleration: 0 means 1 (R27). -/
def effectiveAccel (a : Nat) : Nat := max a 1

/-- What `Start` latches with command word w (R30, R93). -/
def latchOf (w : Word) (s : State) : Latch :=
  { word := w, srcAddr := s.srcAddr, srcLen := s.srcLen, dstAddr := s.dstAddr, dstCap := s.dstCap,
    dictAddr := s.dictAddr, dictLen := s.dictLen, accel := BitVec.ofNat 32 (effectiveAccel s.accel.toNat) }

/-- The effective capacity CAPE (R96). -/
def capacity (op : Op) (l : Latch) : Nat :=
  match op with
  | .compress => if l.dstCap = 0 then compressBound l.srcLen.toNat else l.dstCap.toNat
  | .decompress => l.dstCap.toNat

/-- DL = min(DICT_LEN, DICT_WINDOW) (R58). -/
def dictLenUsed (l : Latch) : Nat := min l.dictLen.toNat Config.dictWindow

/-- The address a PREFIX dictionary ends at: SRC_ADDR for compress, DST_ADDR for decompress (R57, R97). -/
def prefixEnd (op : Op) (l : Latch) : Nat :=
  match op with
  | .compress => l.srcAddr.toNat
  | .decompress => l.dstAddr.toNat

/-- The address one past the dictionary's last byte (R57, R58). -/
def dictEnd (op : Op) (d : DictMode) (l : Latch) : Nat :=
  match d with
  | .noDict => 0
  | .withPrefix64k => prefixEnd op l
  | .usingExtDict => l.dictAddr.toNat + l.dictLen.toNat

/-- The source range (R57). -/
def srcRegion (l : Latch) : Region := { base := l.srcAddr.toNat, len := l.srcLen.toNat }

/-- The write range (R57). -/
def dstRegion (op : Op) (l : Latch) : Region := { base := l.dstAddr.toNat, len := capacity op l }

/-- The dictionary range: the last DL bytes of the dictionary region; empty without a dictionary (R57, R58). -/
def dictRegion (op : Op) (d : DictMode) (l : Latch) : Region :=
  match d with
  | .noDict => { base := 0, len := 0 }
  | .withPrefix64k => { base := prefixEnd op l - dictLenUsed l, len := dictLenUsed l }
  | .usingExtDict => { base := dictEnd op d l - dictLenUsed l, len := dictLenUsed l }

/-- An address lies in a range. -/
def Region.contains (r : Region) (a : Nat) : Bool := decide (r.base ≤ a) && decide (a < r.base + r.len)

/-- Two ranges, neither empty, share an address (R60). -/
def Region.overlaps (r q : Region) : Bool :=
  decide (0 < r.len) && decide (0 < q.len) && decide (r.base < q.base + q.len) && decide (q.base < r.base + r.len)

/-- No range of the command passes 2^64, and a PREFIX dictionary does not start below 0 (R59). -/
def rangesInSpace (op : Op) (d : DictMode) (l : Latch) : Bool :=
  decide ((srcRegion l).base + (srcRegion l).len ≤ Config.addrSpace) &&
  decide ((dstRegion op l).base + (dstRegion op l).len ≤ Config.addrSpace) &&
  decide (dictEnd op d l ≤ Config.addrSpace) &&
  match d with
  | .noDict => true
  | .withPrefix64k => decide (dictLenUsed l ≤ prefixEnd op l)
  | .usingExtDict => true

/-- The write range shares no address with a read range (R60). -/
def rangesApart (op : Op) (d : DictMode) (l : Latch) : Bool :=
  !(dstRegion op l).overlaps (srcRegion l) && !(dstRegion op l).overlaps (dictRegion op d l)

/-- Checks 2 to 4 of `StartCheck` on a legal command (R95). -/
def checkCommand (op : Op) (d : DictMode) (l : Latch) : Option Err :=
  if !(rangesInSpace op d l && rangesApart op d l) then some .badRegion
  else if op = .compress && d ≠ .noDict && decide (Config.hw.chunkMax < l.srcLen.toNat) then some .inputTooLarge
  else none

/-- `StartCheck(w)` (R95). -/
def startCheck (w : Word) (s : State) : Option Err :=
  match decodeFields w with
  | .error _ => some .illegalCommand
  | .ok (op, d) => checkCommand op d (latchOf w s)

/-- The dictionary bytes of a mode, as memory holds them (R97). -/
def dictBytes (op : Op) (d : DictMode) (l : Latch) (m : Memory) : List Byte :=
  readBytes m (dictRegion op d l).base (dictRegion op d l).len

/-- The effective dictionary mode and bytes of a compress: a dictionary too short to index is none (R97). -/
def compressDict (P : Config.Params) (d : DictMode) (l : Latch) (m : Memory) : DictMode × List Byte :=
  if d = .noDict ∨ dictLenUsed l < Config.hashUnit P then (.noDict, []) else (d, dictBytes .compress d l m)

/-- The source bytes (R98, R99). -/
def srcBytes (l : Latch) (m : Memory) : List Byte := readBytes m l.srcAddr.toNat l.srcLen.toNat

/-- A command in dictionary mode `d` starts (R93): its checks, then an error at once or the latch and BUSY. -/
def startCommand (op : Op) (d : DictMode) (w : Word) (s : State) : State :=
  match checkCommand op d (latchOf w s) with
  | some e => endWithError e 0 s
  | none => beginCommand (latchOf w s) s

/-- A CMD write of a word that is no command (R93, R247). -/
def startIllegal (s : State) : State := endWithError .illegalCommand 0 s

end Sys2Proof.Machine
end

