-- ==== Sys2Proof/Machine/HashTable.lean ====
section
/-! DEFINITION. One chunk's operands and byte space (44_compress_engine.md R175, 10_state.md R38), the hash functions and
the hash table's operations (41_hash_table.md R121 to R132). -/

namespace Sys2Proof.Machine

/-- The operands of the engine for one chunk (R175): X and SB of the virtual index space (R38), the chunk length n, the
dictionary length DL and mode dm, the acceleration A, `final`, the capacity, and the build (R3). -/
structure Chunk where
  params : Config.Params
  bytes  : Nat → Byte
  sb     : Nat
  n      : Nat
  dl     : Nat
  dm     : DictMode
  accel  : Nat
  final  : Bool
  cap    : Nat

/-- X(v) over the chunk's bytes and the dictionary's (R38). -/
def virtualByte (dm : DictMode) (D C : List Byte) (v : Nat) : Byte :=
  match dm with
  | .noDict => C.getD v 0
  | .withPrefix64k => if v < Config.dictBias + D.length then D.getD (v - Config.dictBias) 0
      else C.getD (v - (Config.dictBias + D.length)) 0
  | .usingExtDict => if v < Config.dictBias + D.length then D.getD (v - Config.dictBias) 0
      else C.getD (v - (Config.dictBias + D.length)) 0

/-- SB, the virtual index of source byte 0 (R38, R201). -/
def sourceBase (dm : DictMode) (D : List Byte) : Nat :=
  match dm with
  | .noDict => 0
  | .withPrefix64k => Config.dictBias + D.length
  | .usingExtDict => Config.dictBias + D.length

/-- hl, the width of a slot index (R124). -/
def hashWidth (tm : TableMode) : Nat :=
  match tm with
  | .u16 => Config.hashLog + 1
  | .u32 => Config.hashLog
  | .ptr => Config.hashLog

/-- `hash4(v)` (R121). -/
def hash4 (X : Nat → Byte) (hl v : Nat) : Nat :=
  ((leNat [X v, X (v + 1), X (v + 2), X (v + 3)] * Config.prime4) % 2 ^ 32) >>> (32 - hl)

/-- `hash5(v)` (R122). -/
def hash5 (X : Nat → Byte) (hl v : Nat) : Nat :=
  ((((leNat [X v, X (v + 1), X (v + 2), X (v + 3), X (v + 4)] <<< 24) % 2 ^ 64) * Config.prime5) % 2 ^ 64) >>> (64 - hl)

/-- `hash(v)`: the 5-byte hash in U32 mode on a wide-pointer build, else the 4-byte hash (R123). -/
def hashAt (ch : Chunk) (tm : TableMode) (v : Nat) : Nat :=
  if tm = .u32 ∧ ch.params.arch64 = true then hash5 ch.bytes (hashWidth tm) v else hash4 ch.bytes (hashWidth tm) v

/-- `SelectMode(n, dm)` (R126). -/
def selectMode (P : Config.Params) (n : Nat) (dm : DictMode) : TableMode :=
  if dm ≠ .noDict then .u32
  else if n < Config.u16Limit then .u16
  else if P.arch64 then .u32
  else .ptr

/-- The content of a slot; none is the empty slot (R31, R32). -/
def slotGet : List (Nat × Nat) → Nat → Option Nat
  | [], _ => none
  | (k, v) :: t, h => if k = h then some v else slotGet t h

/-- Overwrite a slot, keeping the slots in rising order (R128). -/
def slotPut : List (Nat × Nat) → Nat → Nat → List (Nat × Nat)
  | [], h, v => [(h, v)]
  | (k, w) :: t, h, v =>
    if h < k then (h, v) :: (k, w) :: t
    else if h = k then (h, v) :: t
    else (k, w) :: slotPut t h v

/-- `Clear()` (R127): every slot is empty. -/
def clearTable (e : Engine) : Engine := { e with ht := [] }

/-- `put(v)` (R128). -/
def put (ch : Chunk) (v : Nat) (e : Engine) : Engine := { e with ht := slotPut e.ht (hashAt ch e.tm v) v }

/-- `get(v)` (R129): the slot's content. -/
def getSlot (ch : Chunk) (v : Nat) (e : Engine) : Option Nat := slotGet e.ht (hashAt ch e.tm v)

/-- `exchange(v)` (R130): the slot's old content, and the engine with v put there. -/
def exchange (ch : Chunk) (v : Nat) (e : Engine) : Option Nat × Engine := (getSlot ch v e, put ch v e)

/-- The candidate a slot gives: an empty slot is read as virtual index 0 (R32, R129). -/
def candidate (slot : Option Nat) : Nat := slot.getD 0

/-- `IndexDict(D)` from dictionary position p on (R132); `fuel` bounds the loop. -/
def indexDict (ch : Chunk) : Nat → Nat → Engine → Engine
  | 0, _, e => e
  | fuel + 1, p, e =>
    if p + Config.hashUnit ch.params ≤ ch.dl then indexDict ch fuel (p + 3) (put ch (Config.dictBias + p) e) else e

end Sys2Proof.Machine
end

