-- ==== Sys2Proof/Machine/MatchFinder.lean ====
section
/-! DEFINITION. The match finder (42_match_finder.md): one probe with its skip schedule (R141), candidate validity (R144 to
R147), catch-up (R150) and the forward count (R151). A limit that a short chunk would make negative is compared with the
margin added to the other side (R176). -/

namespace Sys2Proof.Machine

/-- The margin PROBE_LIMIT leaves at the chunk's end: n - 12 or n - 11 (R176). -/
def probeMargin (v : Config.Variant) : Nat :=
  match v with
  | .linux => Config.mfLimit
  | .upstream19 => Config.mfLimit - 1

/-- A position lies past PROBE_LIMIT (R142, R176). -/
def pastProbeLimit (ch : Chunk) (x : Nat) : Bool := decide (ch.n < x + probeMargin ch.params.variant)

/-- A position lies past MATCHEND_LIMIT = n - 12 (R176, R187). -/
def pastMatchEnd (ch : Chunk) (x : Nat) : Bool := decide (ch.n < x + Config.mfLimit)

/-- The four bytes at two virtual indices agree (R147). -/
def fourEqual (X : Nat → Byte) (a b : Nat) : Bool :=
  X a == X b && X (a + 1) == X (b + 1) && X (a + 2) == X (b + 2) && X (a + 3) == X (b + 3)

/-- Clause (a): under dictSmall, the candidate lies below the low reference limit (R145). -/
def belowDict (ch : Chunk) (c : Nat) : Bool :=
  decide (ch.dm ≠ .noDict) && decide (ch.dl < Config.dictWindow) && decide (c < Config.dictBias)

/-- The candidate is farther back than an offset can say (R146). -/
def tooFar (c vp : Nat) : Bool := decide (c + Config.maxDistance < vp)

/-- An empty slot in PTR mode fails validation before the clauses (R129, R144). -/
def emptyPointer (tm : TableMode) (slot : Option Nat) : Bool := decide (tm = .ptr) && decide (slot = none)

/-- `Valid(c, vp)` (R144 to R147). -/
def validCandidate (ch : Chunk) (tm : TableMode) (slot : Option Nat) (vp : Nat) : Bool :=
  !emptyPointer tm slot && !belowDict ch (candidate slot) && !(decide (tm ≠ .u16) && tooFar (candidate slot) vp) &&
    fourEqual ch.bytes (candidate slot) vp

/-- `ValidNext(c, vp)`: the distance clause holds in every mode (R188). -/
def validNext (ch : Chunk) (tm : TableMode) (slot : Option Nat) (vp : Nat) : Bool :=
  !emptyPointer tm slot && !belowDict ch (candidate slot) && !tooFar (candidate slot) vp &&
    fourEqual ch.bytes (candidate slot) vp

/-- SeekMatch begins at a position (R140). -/
def beginSeek (ch : Chunk) (start : Nat) (e : Engine) : Engine :=
  { e with phase := .seekMatch, fwd := start, step := 1, nb := ch.accel <<< Config.skipShift }

/-- The skip schedule's part of a probe (R141): p takes the probe position, fwd its successor, and the step grows with the
probe counter. -/
def advance (e : Engine) : Engine :=
  { e with p := e.fwd, fwd := e.fwd + e.step, step := e.nb >>> Config.skipShift, nb := e.nb + 1 }

/-- One probe of SeekMatch (R141): the limit test on the successor, then exchange, then validity. -/
def probe (ch : Chunk) (e : Engine) : Engine :=
  let e1 := advance e
  if pastProbeLimit ch e1.fwd then { e1 with phase := .lastLiterals }
  else
    let x := exchange ch (ch.sb + e1.p) e1
    if validCandidate ch e.tm x.1 (ch.sb + e1.p) then { x.2 with phase := .catchUp, c := candidate x.1 }
    else { x.2 with phase := .seekMatch, c := candidate x.1 }

/-- The lower bound of catch-up for a candidate (R150). -/
def catchUpLow (ch : Chunk) (c : Nat) : Nat :=
  match ch.dm with
  | .noDict => 0
  | .withPrefix64k => Config.dictBias
  | .usingExtDict => if ch.sb ≤ c then ch.sb else Config.dictBias

/-- The catch-up loop (R150): p and c step back together while the bytes before them agree. -/
def catchUpLoop (ch : Chunk) (anchor lo : Nat) : Nat → Nat → Nat × Nat
  | 0, c => (0, c)
  | p + 1, c =>
    if anchor < p + 1 ∧ lo < c ∧ ch.bytes (ch.sb + p) = ch.bytes (c - 1) then catchUpLoop ch anchor lo p (c - 1)
    else (p + 1, c)

/-- How many bytes agree from two virtual indices on, at most `limit` (R151). -/
def countEqual (X : Nat → Byte) : Nat → Nat → Nat → Nat
  | 0, _, _ => 0
  | limit + 1, a, b => if X a = X b then countEqual X limit (a + 1) (b + 1) + 1 else 0

/-- k of `Count(p, c)`: the bytes that agree past the first four, up to MATCH_LIMIT = n - 5 (R151, R152). ML = 4 + k. -/
def countMatch (ch : Chunk) (p c : Nat) : Nat :=
  countEqual ch.bytes (ch.n - (p + Config.minMatch + Config.lastLiterals)) (c + Config.minMatch) (ch.sb + p + Config.minMatch)

end Sys2Proof.Machine
end

