-- ==== Sys2Proof/Machine/Engine.lean ====
section
/-! DEFINITION. The compression generic engine (44_compress_engine.md R175 to R191) as a machine of its own: one function
for each named state, one step, and the run of a chunk. -/

namespace Sys2Proof.Machine

/-- What one engine step does: it goes on, ends the chunk with the count of consumed source bytes (R191), or raises
OutputBoundExceeded (R193). -/
inductive EngineStep where
  | running  (e : Engine)
  | finished (e : Engine) (consumed : Nat)
  | overflow (e : Engine)
deriving DecidableEq, Repr

/-- How a chunk's run ends; `unfinished` where the bound on the steps was used up, which never happens (R112). -/
inductive EngineEnd where
  | finished (e : Engine) (consumed : Nat)
  | overflow (e : Engine)
  | unfinished (e : Engine)
deriving DecidableEq, Repr

/-- op, the count of output bytes of the chunk (R36). -/
def outputCount (e : Engine) : Nat := e.out.length

/-- The margin checks run only when the capacity is below the worst case (R186). -/
def marginChecked (ch : Chunk) : Bool := !decide (compressBound ch.n ≤ ch.cap)

/-- t(MLF), the match-margin term of the variant (R176). -/
def matchMargin (v : Config.Variant) (mlf : Nat) : Nat :=
  match v with
  | .linux => mlf >>> 8
  | .upstream19 => (mlf + 240) / 255

/-- `Out(b)` under the per-byte capacity check (R183): none where a byte would fall at or past the capacity. -/
def emit (ch : Chunk) (bs : List Byte) (e : Engine) : Option Engine :=
  if e.out.length + bs.length ≤ ch.cap then some { e with out := e.out ++ bs } else none

/-- The source bytes from position a up to, not including, position b (R165, R166). -/
def sourceSlice (ch : Chunk) (a b : Nat) : List Byte := (List.range' a (b - a)).map (fun i => ch.bytes (ch.sb + i))

/-- Literal check, R185 (i). -/
def literalMarginFails (ch : Chunk) (op ll : Nat) : Bool := marginChecked ch && decide (ch.cap < (op + 1) + ll + 8 + ll / 255)

/-- Match check, R185 (ii). -/
def matchMarginFails (ch : Chunk) (op mlf : Nat) : Bool :=
  marginChecked ch && decide (ch.cap < op + 6 + matchMargin ch.params.variant mlf)

/-- Last-literals check, R185 (iii). -/
def lastMarginFails (ch : Chunk) (op r : Nat) : Bool := marginChecked ch && decide (ch.cap < op + r + 1 + (r + 240) / 255)

/-- CatchUp (R149, R150). -/
def stepCatchUp (ch : Chunk) (e : Engine) : EngineStep :=
  let pc := catchUpLoop ch e.anchor (catchUpLow ch e.c) e.p e.c
  .running { e with phase := .encodeLiterals, p := pc.1, c := pc.2 }

/-- EncodeLiterals (R177, R182): the token byte, the LL ext and the literals. -/
def stepEncodeLiterals (ch : Chunk) (e : Engine) : EngineStep :=
  let ll := e.p - e.anchor
  if literalMarginFails ch (outputCount e) ll then .overflow e
  else match emit ch (tokenByte (lenNibble ll) 0 :: (lenExt ll ++ sourceSlice ch e.anchor e.p))
      { e with tokpos := outputCount e } with
    | none => .overflow e
    | some e1 => .running { e1 with phase := .encodeMatch }

/-- EncodeMatch (R177, R184): the offset, then the count, then the token's low nibble and the MLF ext. -/
def stepEncodeMatch (ch : Chunk) (e : Engine) : EngineStep :=
  match emit ch (leBytes 2 (ch.sb + e.p - e.c)) e with
  | none => .overflow e
  | some e1 =>
    let mlf := countMatch ch e.p e.c
    let e2 := { e1 with k := mlf }
    if matchMarginFails ch (outputCount e2) mlf then .overflow e2
    else
      let e3 := { e2 with out := e2.out.modify e2.tokpos (fun b => b ||| BitVec.ofNat 8 (lenNibble mlf)) }
      match emit ch (lenExt mlf) e3 with
      | none => .overflow e3
      | some e4 =>
        let ip := e.p + (Config.minMatch + mlf)
        .running { e4 with ip := ip, anchor := ip, phase := if pastMatchEnd ch ip then .lastLiterals else .nextMatch }

/-- NextMatch (R188). -/
def stepNextMatch (ch : Chunk) (e : Engine) : EngineStep :=
  let x := exchange ch (ch.sb + e.ip) (put ch (ch.sb + e.ip - 2) e)
  let e1 := { x.2 with c := candidate x.1 }
  if validNext ch e.tm x.1 (ch.sb + e.ip) then
    match emit ch [0#8] { e1 with tokpos := outputCount e1 } with
    | none => .overflow e1
    | some e2 => .running { e2 with p := e.ip, phase := .encodeMatch }
  else .running (beginSeek ch (e.ip + 1) e1)

/-- LastLiterals (R190): nothing more in a non-final chunk, else the last token. -/
def stepLastLiterals (ch : Chunk) (e : Engine) : EngineStep :=
  if !ch.final then .finished { e with phase := .done } e.anchor
  else
    let r := ch.n - e.anchor
    if lastMarginFails ch (outputCount e) r then .overflow e
    else match emit ch (tokenByte (lenNibble r) 0 :: (lenExt r ++ sourceSlice ch e.anchor ch.n)) e with
      | none => .overflow e
      | some e1 => .finished { e1 with phase := .done } ch.n

/-- One step of the engine from its named state (R175, R177). -/
def engineStep (ch : Chunk) (e : Engine) : EngineStep :=
  match e.phase with
  | .seekMatch => .running (probe ch e)
  | .catchUp => stepCatchUp ch e
  | .encodeLiterals => stepEncodeLiterals ch e
  | .encodeMatch => stepEncodeMatch ch e
  | .nextMatch => stepNextMatch ch e
  | .lastLiterals => stepLastLiterals ch e
  | .done => .finished e ch.n

/-- The engine steps until the chunk ends, at most `fuel` steps. -/
def engineRun (ch : Chunk) : Nat → Engine → EngineEnd
  | 0, e => .unfinished e
  | fuel + 1, e =>
    match engineStep ch e with
    | .running e1 => engineRun ch fuel e1
    | .finished e1 consumed => .finished e1 consumed
    | .overflow e1 => .overflow e1

/-- The engine's entry (R177, R178, R180): cursors at 0; a short input goes straight to LastLiterals, else position 0 is
put and SeekMatch begins at 1. -/
def engineEntry (ch : Chunk) (e : Engine) : Engine :=
  let e0 := { e with ip := 0, anchor := 0, out := [] }
  if ch.n < Config.minInput then { e0 with phase := .lastLiterals }
  else beginSeek ch 1 (put ch ch.sb e0)

/-- More steps than the engine can take on n source bytes: each match moves the anchor, and between two matches each
probe moves on (R112). -/
def engineFuel (n : Nat) : Nat := (n + 2) * (n + 8)

/-- `Engine(X, SB, n, tm, dm, A, final, cap)` (R175, R177), on a table made ready for the chunk. -/
def runEngine (ch : Chunk) (e : Engine) : EngineEnd := engineRun ch (engineFuel ch.n) (engineEntry ch e)

end Sys2Proof.Machine
end

