-- ==== Sys2Proof/Machine/ChunkWrapper.lean ====
section
/-! DEFINITION. The block-chunking wrapper (45_chunk_wrapper.md R200 to R206). -/

namespace Sys2Proof.Machine

/-- How `ChunkCompress` ends, with the engine and the wrapper as it left them: the stream; an error raised (R203, R204, or
the engine's); a chunk without progress on a scaled build (R206); a bound used up, which never happens (R206). -/
inductive CompressEnd where
  | stream (out : List Byte) (e : Engine) (w : Wrapper)
  | raised (err : Err) (e : Engine) (w : Wrapper)
  | noProgress (e : Engine) (w : Wrapper)
  | unfinished (e : Engine) (w : Wrapper)
deriving DecidableEq, Repr

/-- The operands of a chunk's engine run (R200, R201). -/
def chunkOf (P : Config.Params) (C D : List Byte) (dm : DictMode) (accel : Nat) (final : Bool) (cap : Nat) : Chunk :=
  { params := P, bytes := virtualByte dm D C, sb := sourceBase dm D, n := C.length,
    dl := match dm with
      | .noDict => 0
      | .withPrefix64k => D.length
      | .usingExtDict => D.length
    dm := dm, accel := accel, final := final, cap := cap }

/-- The table part of `SetupChunk` (R201): the table mode, the clear, and the dictionary's index. -/
def setupTable (ch : Chunk) (e : Engine) : Engine :=
  let e1 := { clearTable e with tm := selectMode ch.params ch.n ch.dm }
  if ch.dm = .noDict then e1 else indexDict ch (ch.dl + 1) 0 e1

/-- The loop of `ChunkCompress` from source position `pos` with the output so far (R200); `fuel` bounds the rounds. -/
def chunkLoop (P : Config.Params) (S D : List Byte) (dm : DictMode) (accel cape : Nat) :
    Nat → Nat → List Byte → Engine → CompressEnd
  | 0, pos, out, e => .unfinished e { pos := pos, outBase := out.length }
  | fuel + 1, pos, out, e =>
    let w : Wrapper := { pos := pos, outBase := out.length }
    let rem := S.length - pos
    let cl := min rem P.chunkMax
    let final := decide (rem ≤ P.chunkMax)
    let ch := chunkOf P ((S.drop pos).take cl) D dm accel final (cape - out.length)
    match runEngine ch (setupTable ch e) with
    | .unfinished e1 => .unfinished e1 w
    | .overflow e1 => .raised .outputBoundExceeded e1 w
    | .finished e1 consumed =>
      if final then
        if consumed ≠ cl then .raised .chunkProgressFailure e1 w else .stream (out ++ e1.out) e1 w
      else if P.chunkTail ≤ cl - consumed then .raised .chunkProgressFailure e1 w
      else if consumed = 0 then .noProgress e1 w
      else chunkLoop P S D dm accel cape fuel (pos + consumed) (out ++ e1.out) e1

/-- `ChunkCompress(S, D, dm, A, CAPE)` (R200). Each round but the last consumes a byte at least, so length + 1 rounds are
more than enough (R206). -/
def chunkCompress (P : Config.Params) (S D : List Byte) (dm : DictMode) (accel cape : Nat) (e : Engine) : CompressEnd :=
  chunkLoop P S D dm accel cape (S.length + 1) 0 [] e

end Sys2Proof.Machine
end

