-- ==== Sys2Proof/Machine/Compress.lean ====
section
/-! DEFINITION. The three COMPRESS commands (40_commands.md R98, R100 to R102). A command runs in two steps (R14, R93,
R94; log 1): while the core is idle its meaning is `Start`, while BUSY it is `Complete` with the command's body. -/

namespace Sys2Proof.Machine

/-- What `Complete` leaves of a COMPRESS whose wrapper ended so (R94, R98, R61). -/
def finishCompress (l : Latch) (s : State) : CompressEnd → Host.Outcome State Fault Refusal
  | .stream out e w =>
    .next (endOk out.length { s with mem := writeBytes s.mem l.dstAddr.toNat out, engine := e, wrapper := w })
  | .raised err e w =>
    .next (endWithError err 0
      { s with mem := fillFree s.mem l.dstAddr.toNat (capacity .compress l) s.draws, draws := s.draws + capacity .compress l,
               engine := e, wrapper := w })
  | .noProgress _ _ => .refused .chunkWithoutProgress
  | .unfinished _ _ => .fault .bodyDidNotEnd

/-- The run of the wrapper for the latched command (R98). -/
def compressRun (d : DictMode) (s : State) : CompressEnd :=
  chunkCompress Config.hw (srcBytes s.latch s.mem) (compressDict Config.hw d s.latch s.mem).2
    (compressDict Config.hw d s.latch s.mem).1 (effectiveAccel s.latch.accel.toNat) (capacity .compress s.latch) s.engine

/-- `Complete` of a COMPRESS in dictionary mode `d` (R94, R98). -/
def completeCompress (d : DictMode) (s : State) : Host.Outcome State Fault Refusal :=
  if rangesInSpace .compress d s.latch then
    finishCompress s.latch { s with dm := (compressDict Config.hw d s.latch s.mem).1 } (compressRun d s)
  else .fault .addressOutOfRange

/-- COMPRESS (R100). -/
def execCompress (s : State) : Host.Outcome State Fault Refusal :=
  if s.busy then completeCompress .noDict s else .next (startCommand .compress .noDict 0x01#64 s)

/-- COMPRESS.PREFIX (R101). -/
def execCompressPrefix (s : State) : Host.Outcome State Fault Refusal :=
  if s.busy then completeCompress .withPrefix64k s else .next (startCommand .compress .withPrefix64k 0x11#64 s)

/-- COMPRESS.EXTDICT (R102). -/
def execCompressExtdict (s : State) : Host.Outcome State Fault Refusal :=
  if s.busy then completeCompress .usingExtDict s else .next (startCommand .compress .usingExtDict 0x21#64 s)

end Sys2Proof.Machine
end

