-- ==== Sys2Proof/Machine/Decompress.lean ====
section
/-! DEFINITION. The safe bounds-checked decoder (46_decoder.md R215 to R236): the two token forms, executed at the
decoder's cursor, and the three DECOMPRESS commands (40_commands.md R99, R103 to R105), whose body fetches, decodes and
executes tokens until one ends the command. -/

namespace Sys2Proof.Machine

/-- The bytes of the stream from the cursor on (R215; log 13). -/
def streamAt (s : State) : List Byte :=
  readBytes s.mem (s.latch.srcAddr.toNat + s.dec.i) (s.latch.srcLen.toNat - s.dec.i)

/-- cap - op, the capacity left (R221, R227). -/
def capacityLeft (s : State) : Nat := capacity .decompress s.latch - s.dec.op

/-- DL of the decoder: 0 without a dictionary (R215, R224). -/
def decoderDictLen (s : State) : Nat := (dictRegion .decompress s.dm s.latch).len

/-- `WriteOut(b)` (R215, R228). -/
def writeOut (b : Byte) (s : State) : State :=
  { s with mem := writeByte s.mem (s.latch.dstAddr.toNat + s.dec.op) b, dec := { s.dec with op := s.dec.op + 1 } }

/-- Copy the literals to the output (R221). -/
def copyLiterals : List Byte → State → State
  | [], s => s
  | b :: bs, s => copyLiterals bs (writeOut b s)

/-- The byte `off` back from the output position: OUT(op - off), or the dictionary's byte where that lies before the
output (R229). -/
def historyByte (s : State) (off : Nat) : Byte :=
  if off ≤ s.dec.op then readByte s.mem (s.latch.dstAddr.toNat + (s.dec.op - off))
  else readByte s.mem (dictEnd .decompress s.dm s.latch - (off - s.dec.op))

/-- The match copy, byte by byte in order (R229). -/
def copyMatch (off : Nat) : Nat → State → State
  | 0, s => s
  | n + 1, s => copyMatch off n (writeOut (historyByte s off) s)

/-- The command ends with CorruptStream(op) (R215, R233, R246). -/
def raiseCorrupt (s : State) : State := endWithError .corruptStream s.dec.op s

/-- The cursor moves on, the token byte and LL being known (R215). -/
def takeToken (tok : Byte) (ll read : Nat) (s : State) : State :=
  { s with dec := { s.dec with i := s.dec.i + read, tok := tok, ll := ll } }

/-- The token byte and the LL ext are read, LL checked against the capacity, the literals copied (R218 to R221). None where
the check fails: CorruptStream, with nothing written. -/
def literalPart (tok : Byte) (lits : List Byte) (s : State) : Except State State :=
  let s1 := takeToken tok lits.length (1 + lenExtSize lits.length) s
  if capacityLeft s1 < lits.length then .error (raiseCorrupt s1)
  else
    let s2 := copyLiterals lits s1
    .ok { s2 with dec := { s2.dec with i := s2.dec.i + lits.length } }

/-- The offset is read and checked, then the ML ext, then ML against the capacity, then the match is copied (R223 to R229).
The command goes on at the next token, or ends with CorruptStream. -/
def matchPart (off : BitVec 16) (mlf : Nat) (s : State) : State :=
  let s1 := { s with dec := { s.dec with i := s.dec.i + 2, off := off } }
  if off = 0#16 then raiseCorrupt s1
  else if s1.dec.op + decoderDictLen s1 < off.toNat then raiseCorrupt s1
  else
    let s2 := { s1 with dec := { s1.dec with i := s1.dec.i + lenExtSize mlf, ml := mlf + Config.minMatch } }
    if capacityLeft s2 < mlf + Config.minMatch then raiseCorrupt s2
    else copyMatch off.toNat (mlf + Config.minMatch) s2

/-- A sequence token at the decoder's cursor (R218 to R229). -/
def tokenSeqState (lits : List Byte) (off : BitVec 16) (mlf : Nat) (s : State) : State :=
  match literalPart (tokenByte (lenNibble lits.length) (lenNibble mlf)) lits s with
  | .error t => t
  | .ok t => matchPart off mlf t

/-- The last token at the decoder's cursor (R218 to R222): its literals, then success with op bytes. -/
def tokenLastState (mln : BitVec 4) (lits : List Byte) (s : State) : State :=
  match literalPart (tokenByte (lenNibble lits.length) mln.toNat) lits s with
  | .error t => t
  | .ok t => endOk t.dec.op t

/-- TOKEN.SEQ (R218). -/
def execTokenSeq (lits : List Byte) (off : BitVec 16) (mlf : Nat) (s : State) : Host.Outcome State Fault Refusal :=
  if rangesInSpace .decompress s.dm s.latch then .next (tokenSeqState lits off mlf s) else .fault .addressOutOfRange

/-- TOKEN.LAST (R222). -/
def execTokenLast (mln : BitVec 4) (lits : List Byte) (s : State) : Host.Outcome State Fault Refusal :=
  if rangesInSpace .decompress s.dm s.latch then .next (tokenLastState mln lits s) else .fault .addressOutOfRange

/-- The stream holds no whole token at the cursor: CorruptStream, after the literals where they were whole (R217, R219,
R221 (i), R223, R225; log 25). The first four reasons are a command word's and do not come from a stream. -/
def tokenErrorState (err : DecodeError) (s : State) : State :=
  match err with
  | .reservedBits => raiseCorrupt s
  | .reservedOp => raiseCorrupt s
  | .reservedDict => raiseCorrupt s
  | .notOneWord => raiseCorrupt s
  | .noToken => raiseCorrupt s
  | .literalExtCut tok => raiseCorrupt (takeToken tok s.dec.ll (s.latch.srcLen.toNat - s.dec.i) s)
  | .literalsCut tok ll => raiseCorrupt (takeToken tok ll (1 + lenExtSize ll) s)
  | .offsetCut tok lits =>
    match literalPart tok lits s with
    | .error t => t
    | .ok t => raiseCorrupt t
  | .matchExtCut tok lits off =>
    match literalPart tok lits s with
    | .error t => t
    | .ok t => raiseCorrupt { t with dec := { t.dec with i := t.latch.srcLen.toNat, off := off } }

/-- One round of `Decode` (R215, R216): fetch the token at the cursor, decode it, execute it. -/
def tokenRound (s : State) : Host.Outcome State Fault Refusal :=
  match decodeToken (streamAt s) with
  | .ok (.seq lits off mlf, _) => execTokenSeq lits off mlf s
  | .ok (.last mln lits, _) => execTokenLast mln lits s
  | .error err => .next (tokenErrorState err s)

/-- Rounds until a token ends the command, which clears BUSY; `fuel` bounds them. -/
def decodeLoop : Nat → State → Host.Outcome State Fault Refusal
  | 0, _ => .fault .bodyDidNotEnd
  | fuel + 1, s =>
    match tokenRound s with
    | .next t => if t.busy then decodeLoop fuel t else .next t
    | .fault r => .fault r
    | .refused r => .refused r

/-- The decoder at the head of the latched stream, in dictionary mode `d` (R97, R215). -/
def beginDecode (d : DictMode) (s : State) : State := { s with dm := d, dec := Decoder.start }

/-- `Complete` of a DECOMPRESS in dictionary mode `d` (R94, R99). Each round reads a byte at least, so SRC_LEN + 1 rounds
are enough (R216). -/
def completeDecompress (d : DictMode) (s : State) : Host.Outcome State Fault Refusal :=
  if rangesInSpace .decompress d s.latch then decodeLoop (s.latch.srcLen.toNat + 1) (beginDecode d s)
  else .fault .addressOutOfRange

/-- DECOMPRESS (R103). -/
def execDecompress (s : State) : Host.Outcome State Fault Refusal :=
  if s.busy then completeDecompress .noDict s else .next (startCommand .decompress .noDict 0x02#64 s)

/-- DECOMPRESS.PREFIX (R104). -/
def execDecompressPrefix (s : State) : Host.Outcome State Fault Refusal :=
  if s.busy then completeDecompress .withPrefix64k s else .next (startCommand .decompress .withPrefix64k 0x12#64 s)

/-- DECOMPRESS.EXTDICT (R105). -/
def execDecompressExtdict (s : State) : Host.Outcome State Fault Refusal :=
  if s.busy then completeDecompress .usingExtDict s else .next (startCommand .decompress .usingExtDict 0x22#64 s)

end Sys2Proof.Machine
end

