-- ==== Sys2Proof/Machine/Dispatch.lean ====
section
/-! DEFINITION. One arm per instruction. -/

namespace Sys2Proof.Machine

def exec (i : Instr) (s : State) : Host.Outcome State Fault Refusal :=
  match i with
  | .compress => Sys2Proof.Machine.execCompress s
  | .compressPrefix => Sys2Proof.Machine.execCompressPrefix s
  | .compressExtdict => Sys2Proof.Machine.execCompressExtdict s
  | .decompress => Sys2Proof.Machine.execDecompress s
  | .decompressPrefix => Sys2Proof.Machine.execDecompressPrefix s
  | .decompressExtdict => Sys2Proof.Machine.execDecompressExtdict s
  | .tokenSeq lits off mlf => Sys2Proof.Machine.execTokenSeq lits off mlf s
  | .tokenLast mln lits => Sys2Proof.Machine.execTokenLast mln lits s

end Sys2Proof.Machine
end

