-- ==== Sys2Proof/Machine/Bus.lean ====
section
/-! DEFINITION. What one step of the machine is made of: the host's move (40_commands.md R90 to R93, 20_memory.md R55 and
R69, 70_reset_and_hazards.md R260) and the core's own turn, `Complete` (R94). Also where an instruction is placed for the
next step to run it. -/

namespace Sys2Proof.Machine

/-- The core's turn: `Complete` when BUSY, which runs the latched command; nothing when idle (R94, R261). -/
def coreTurn (s : State) : Host.Outcome State Fault Refusal :=
  if s.busy then
    match decodeCommand s.latch.word with
    | .ok i => exec i s
    | .error _ => .fault .busyWithoutCommand
  else .next s

/-- A CMD write while idle is `Start` (R92, R93): of the command the word is, or of none. -/
def writeCommand (w : Word) (s : State) : Host.Outcome State Fault Refusal :=
  match decodeCommand w with
  | .ok i => exec i s
  | .error _ => .next (startIllegal s)

/-- A register write (R92): ignored while BUSY; a write of CMD is `Start`. -/
def busRegWrite (off : Nat) (v : Word) (s : State) : Host.Outcome State Fault Refusal :=
  if s.busy then .next s
  else if off = 0 then writeCommand v s
  else .next (regWrite s off v)

/-- Whether a window access has the one legal form, or why not (R55, R90). -/
def windowCheck (off width : Nat) : Option Refusal :=
  if 0x100 ≤ off then some .outsideWindow
  else if width = 64 ∧ off % 8 = 0 then none
  else some .windowAccessNotAligned64

/-- While BUSY, an address of the command's write range (R57, R69). -/
def ownedForRead (s : State) (a : Nat) : Bool :=
  s.busy && match decodeFields s.latch.word with
    | .ok (op, _) => (dstRegion op s.latch).contains a
    | .error _ => false

/-- While BUSY, an address of any range of the command (R57, R69). -/
def ownedForWrite (s : State) (a : Nat) : Bool :=
  s.busy && match decodeFields s.latch.word with
    | .ok (op, d) => (dstRegion op s.latch).contains a || (srcRegion s.latch).contains a ||
        (dictRegion op d s.latch).contains a
    | .error _ => false

/-- One move of the host, in the state that no longer lists it. -/
def hostMove (m : HostMove) (s : State) : Host.Outcome State Fault Refusal :=
  match m with
  | .regRead off width =>
    match windowCheck off width with
    | some r => .refused r
    | none => .next { s with readData := regRead s off }
  | .regWrite off width v =>
    match windowCheck off width with
    | some r => .refused r
    | none => busRegWrite off v s
  | .memRead a =>
    if ownedForRead s a.toNat then .refused .commandOwnsBuffer
    else .next { s with readData := (readByte s.mem a.toNat).zeroExtend 64 }
  | .memWrite a b =>
    if ownedForWrite s a.toNat then .refused .commandOwnsBuffer
    else .next { s with mem := writeByte s.mem a.toNat b }
  | .wait => coreTurn s
  | .reset => .next (resetEvent s)

/-- One step: the host's oldest pending move, or the core's turn when the host has none (R90, R94, R272; log 2). -/
def machineStep (s : State) : Host.Outcome State Fault Refusal :=
  match s.host with
  | [] => coreTurn s
  | m :: rest => hostMove m { s with host := rest }

/-! ## Placing an instruction (log 3) -/

/-- A command's word is the host's next write to CMD; the core is idle, so that the write is a `Start` (R93). -/
def placeCommand (w : Word) (s : State) : State :=
  { s with status := if s.busy then 0 else s.status, host := .regWrite 0 64 w :: s.host }

/-- Token bytes are the whole stream of a DECOMPRESS that has started, and the core has the next turn. The source lies at
0x1000 and the destination, of 2^32 bytes, at 2^32. -/
def placeToken (bs : List Byte) (s : State) : State :=
  let s1 := { s with srcAddr := 0x1000, srcLen := BitVec.ofNat 64 bs.length, dstAddr := 0x100000000, dstCap := 0x100000000 }
  { beginCommand (latchOf 0x02#64 s1) s1 with
    mem := writeBytes s.mem 0x1000 bs, host := .wait :: s.host }

/-- Place a table row's instruction (30_encoding.md R87). -/
def placeInstruction (s : State) (nbits w : Nat) : State :=
  match tableBytes nbits w with
  | (.command, bs) => placeCommand (BitVec.ofNat 64 (leNat bs)) s
  | (.token, bs) => placeToken bs s

end Sys2Proof.Machine
end

