-- ==== Sys2Proof/Safety.lean ====
section
/-! DEFINITION. The terms claims are stated in: the invariants of STATUS (70_reset_and_hazards.md R275, 10_state.md R23), of
a busy core (R30, R93, R95, R274) and of host memory's canonical form; the six commands and a running one; what a host can
see (R48); the bytes a token stream stands for, read from the grammar alone (R75, R229); and the states a chunk's engine
reaches (R276). -/

namespace Sys2Proof.Machine

/-- STATUS is legal (R23, R275): BUSY excludes DONE, ERROR and ERR; ERROR implies DONE and a code 1 to 6; ERR is 0 without
ERROR; the reserved bits read 0. -/
abbrev StatusInv (w : Word) : Prop :=
  (statusBusy w = true → statusDone w = false ∧ statusError w = false ∧ statusErr w = 0#4) ∧
  (statusError w = true → statusDone w = true ∧ 1 ≤ (statusErr w).toNat ∧ (statusErr w).toNat ≤ 6) ∧
  (statusError w = false → statusErr w = 0#4) ∧
  statusReserved w = 0#64

/-- A latched command that `Start` accepted: a legal word whose checks pass (R93, R95). -/
def latchAccepted (l : Latch) : Bool :=
  match decodeFields l.word with
  | .error _ => false
  | .ok (op, d) => decide (checkCommand op d l = none)

/-- A busy core runs a command `Start` accepted, its latch equals the visible registers (R30), and RESULT_LEN reads 0
(R274). -/
abbrev BusyInv (s : State) : Prop :=
  s.busy = true → latchAccepted s.latch = true ∧ s.latch = latchOf s.latch.word s ∧ s.resultLen = 0#64

/-- The machine's invariant. -/
abbrev Inv (s : State) : Prop := StatusInv s.status ∧ BusyInv s ∧ memoryWf s.mem = true

/-- The machine is idle with the host's next move a write of CMD (R93). -/
abbrev CommandWritten (s : State) (w : Word) (rest : List HostMove) : Prop :=
  s.busy = false ∧ s.host = HostMove.regWrite 0 64 w :: rest

/-! ## Commands -/

/-- `i` is the COMPRESS command of dictionary mode `d`, and `w` its word (R73). -/
abbrev CompressForm (i : Instr) (d : DictMode) (w : Word) : Prop :=
  (i = .compress ∧ d = .noDict ∧ w = 0x01#64) ∨ (i = .compressPrefix ∧ d = .withPrefix64k ∧ w = 0x11#64) ∨
  (i = .compressExtdict ∧ d = .usingExtDict ∧ w = 0x21#64)

/-- `i` is the DECOMPRESS command of dictionary mode `d`, and `w` its word (R73). -/
abbrev DecompressForm (i : Instr) (d : DictMode) (w : Word) : Prop :=
  (i = .decompress ∧ d = .noDict ∧ w = 0x02#64) ∨ (i = .decompressPrefix ∧ d = .withPrefix64k ∧ w = 0x12#64) ∨
  (i = .decompressExtdict ∧ d = .usingExtDict ∧ w = 0x22#64)

/-- `i` is the command of operation `op` in dictionary mode `d`, and `w` its word (R73). -/
abbrev CommandForm (i : Instr) (op : Op) (d : DictMode) (w : Word) : Prop :=
  (op = .compress ∧ CompressForm i d w) ∨ (op = .decompress ∧ DecompressForm i d w)

/-- A command that `Start` accepted is running (R93, R95). -/
abbrev Running (op : Op) (d : DictMode) (s : State) : Prop := s.busy = true ∧ checkCommand op d s.latch = none

/-- Address `a` lies in `[b, +l)` (R57). -/
abbrev InRange (a b l : Nat) : Prop := b ≤ a ∧ a < b + l

/-- An address of the command's write range (R57). -/
abbrev InWriteRange (op : Op) (l : Latch) (a : Nat) : Prop := InRange a l.dstAddr.toNat (capacity op l)

/-- The ranges of a command are bad, in the numbers of its registers (R57 to R60): one passes 2^64, a PREFIX dictionary
would start below 0, or some address is both written and read. -/
def BadRanges (op : Op) (d : DictMode) (src n dst cap dict dictLen : Nat) : Prop :=
  2 ^ 64 < src + n ∨ 2 ^ 64 < dst + cap ∨ (d = .usingExtDict ∧ 2 ^ 64 < dict + dictLen) ∨
  (d = .withPrefix64k ∧ (if op = .compress then src else dst) < min dictLen 65536) ∨
  ∃ a, InRange a dst cap ∧
    (InRange a src n ∨
     (d = .withPrefix64k ∧
        InRange a ((if op = .compress then src else dst) - min dictLen 65536) (min dictLen 65536)) ∨
     (d = .usingExtDict ∧ InRange a (dict + dictLen - min dictLen 65536) (min dictLen 65536)))

/-! ## The host -/

/-- What the host can come to see of a state: everything but the leftovers of a command's body, and the latch while no
command runs (R35, R45, R48). -/
def visible (s : State) : State :=
  { s with latch := if s.busy then s.latch else Latch.unset, dm := .noDict, engine := Engine.idle,
           wrapper := Wrapper.start, dec := Decoder.start }

/-- Two outcomes the host cannot tell apart. -/
def SameOutcome : Host.Outcome State Fault Refusal → Host.Outcome State Fault Refusal → Prop
  | .next t, .next u => visible t = visible u
  | .fault r, .fault q => r = q
  | .refused r, .refused q => r = q
  | _, _ => False

/-- The host may make this move (R55, R69, R90). -/
def MoveAllowed (s : State) : HostMove → Prop
  | .regRead off width => off < 0x100 ∧ width = 64 ∧ off % 8 = 0
  | .regWrite off width _ => off < 0x100 ∧ width = 64 ∧ off % 8 = 0
  | .memRead a => ownedForRead s a.toNat = false
  | .memWrite a _ => ownedForWrite s a.toNat = false
  | .wait => True
  | .reset => True

/-- `k` steps, stopping at the first fault or refusal. -/
def stepN : Nat → State → Host.Outcome State Fault Refusal
  | 0, s => .next s
  | k + 1, s =>
    match step s with
    | .next t => stepN k t
    | .fault r => .fault r
    | .refused r => .refused r

/-! ## What a token stream stands for -/

/-- A history grown by `n` bytes, each the one `off` back (R229). -/
def growMatch (off : Nat) : Nat → List Byte → List Byte
  | 0, h => h
  | n + 1, h => growMatch off n (h ++ [h.getD (h.length - off) 0])

/-- A history grown by a token; none where the offset is 0 or reaches before the history (R75, R224). -/
def growToken (t : Token) (h : List Byte) : Option (List Byte) :=
  match t with
  | .seq lits off mlf =>
    if off = 0#16 ∨ (h ++ lits).length < off.toNat then none
    else some (growMatch off.toNat (mlf + 4) (h ++ lits))
  | .last _ lits => some (h ++ lits)

/-- A history grown by tokens, in order. -/
def growTokens : List Token → List Byte → Option (List Byte)
  | [], h => some h
  | t :: ts, h =>
    match growToken t h with
    | none => none
    | some g => growTokens ts g

/-- The token is a sequence token. -/
def isSeqToken : Token → Bool
  | .seq _ _ _ => true
  | .last _ _ => false

/-- With dictionary D, the stream T is sequence tokens and then a last token (R75), and they grow the history D to
D followed by `out`. -/
def Expands (D T out : List Byte) : Prop :=
  ∃ (seqs : List Token) (mln : BitVec 4) (lits : List Byte),
    (∀ t ∈ seqs, isSeqToken t = true) ∧ T = seqs.flatMap encodeToken ++ encodeToken (.last mln lits) ∧
    growTokens (seqs ++ [.last mln lits]) D = some (D ++ out)

/-! ## The engine -/

/-- The operands of an engine run are a chunk of some source with some dictionary, as the wrapper makes them (R97, R200,
R201): the dictionary is at most the window and, in a dictionary mode, long enough to index. -/
def WrapperChunk (ch : Chunk) : Prop :=
  ∃ (P : Config.Params) (C D : List Byte) (dm : DictMode) (accel : Nat) (final : Bool) (cap : Nat),
    ch = chunkOf P C D dm accel final cap ∧ 1 ≤ accel ∧ D.length ≤ Config.dictWindow ∧
      (dm = .noDict → D = []) ∧ (dm ≠ .noDict → Config.hashUnit P ≤ D.length)

/-- PROBE_LIMIT, taken as an integer (R176). -/
def probeLimit (v : Config.Variant) (n : Nat) : Int :=
  match v with
  | .linux => n - 12
  | .upstream19 => n - 11

/-- t(MLF), the match-margin term (R176). -/
def matchMarginTerm (v : Config.Variant) (mlf : Nat) : Nat :=
  match v with
  | .linux => mlf / 256
  | .upstream19 => (mlf + 240) / 255

/-- The engine states a chunk's run passes through (R177). -/
inductive EngineReaches (ch : Chunk) (start : Engine) : Engine → Prop where
  | entry : EngineReaches ch start (engineEntry ch (setupTable ch start))
  | next {e e' : Engine} : EngineReaches ch start e → engineStep ch e = .running e' → EngineReaches ch start e'

end Sys2Proof.Machine
end

