-- ==== Sys2Proof/WellFormed.lean ====
section
/-! DEFINITION. Which instructions the encoder makes. A command has no operands. A sequence token has an offset in
1 .. 65535 (30_encoding.md R79, 43_varint_token.md R165), and a token lies inside a stream of at most 2^64 - 1 bytes, the
largest SRC_LEN (10_state.md R24). -/

namespace Sys2Proof

/-- The token fits in the longest stream SRC_LEN can name (R24, R167). -/
def Token.fits (t : Token) : Bool := tokenSize t < Config.addrSpace

/-- A sequence token's offset is legal: not 0 (R79). -/
def Token.legalOffset : Token → Bool
  | .seq _ off _ => off != 0#16
  | .last _ _ => true

/-- Well-formed instructions. -/
def wellFormed : Instr → Bool
  | .compress => true
  | .compressPrefix => true
  | .compressExtdict => true
  | .decompress => true
  | .decompressPrefix => true
  | .decompressExtdict => true
  | .tokenSeq lits off mlf => (Token.seq lits off mlf).legalOffset && (Token.seq lits off mlf).fits
  | .tokenLast mln lits => (Token.last mln lits).fits

end Sys2Proof
end

