-- ==== Sys2Proof/Certificates/Slice0/Obligations.lean ====
section
/-! DEFINITION. The statements for the provers, from the numbered rules of spec/. -/

section
open Sys2Proof Sys2Proof.Machine

/-! ## Reset -/

/-- O1. After reset every register of the window reads 0 and the core is idle (10_state.md R45). The latch, the hash
table and the transients have no value there: O44 says that none shows. -/
def Obligations.ResetLeavesTheSpecValues : Prop :=
  State.reset.status = 0#64 ∧ State.reset.srcAddr = 0#64 ∧ State.reset.srcLen = 0#64 ∧ State.reset.dstAddr = 0#64 ∧
  State.reset.dstCap = 0#64 ∧ State.reset.dictAddr = 0#64 ∧ State.reset.dictLen = 0#64 ∧ State.reset.accel = 0#32 ∧
  State.reset.resultLen = 0#64 ∧ State.reset.busy = false ∧ ∀ off, regRead State.reset off = 0#64

/-- O2. The machine's invariant holds after reset. -/
def Obligations.InvariantHoldsAtReset : Prop := Inv State.reset

/-- O3. A reset event, busy or idle, leaves STATUS, RESULT_LEN and the parameter registers 0, and no `Complete` step follows
(70_reset_and_hazards.md R260, R262, R265); host memory keeps its bytes (R263). What a host can see is as after power-on, but
for that memory and for what the model keeps through a reset by its own choice: the host's later moves, what the host last
read and the draw counter (log 14, log 24). -/
def Obligations.ResetEventClearsTheCore : Prop :=
  ∀ (s : State) (rest : List HostMove), s.host = .reset :: rest →
    ∃ t, step s = .next t ∧ t.status = 0#64 ∧ t.resultLen = 0#64 ∧ t.srcAddr = 0#64 ∧ t.srcLen = 0#64 ∧
      t.dstAddr = 0#64 ∧ t.dstCap = 0#64 ∧ t.dictAddr = 0#64 ∧ t.dictLen = 0#64 ∧ t.accel = 0#32 ∧ t.mem = s.mem ∧
      visible t = visible { State.reset with mem := s.mem, host := rest, readData := s.readData, draws := s.draws } ∧
      step { t with host := [] } = .next { t with host := [] }

/-! ## The register window -/

/-- O4. A register read returns the register at its offset, 0 for CMD and for a reserved offset, and ACCEL's 32 bits
zero-extended; it changes no state (40_commands.md R91). What was read goes to the host (log 14). -/
def Obligations.RegisterReadsReturnTheRegister : Prop :=
  ∀ (s : State) (off : Nat) (rest : List HostMove), off < 0x100 → off % 8 = 0 → s.host = .regRead off 64 :: rest →
    ∃ v : Word, step s = .next { s with host := rest, readData := v } ∧
      (off = 0x00 → v = 0#64) ∧ (off = 0x08 → v = s.status) ∧ (off = 0x10 → v = s.srcAddr) ∧
      (off = 0x18 → v = s.srcLen) ∧ (off = 0x20 → v = s.dstAddr) ∧ (off = 0x28 → v = s.dstCap) ∧
      (off = 0x30 → v = s.dictAddr) ∧ (off = 0x38 → v = s.dictLen) ∧
      (off = 0x40 → v = BitVec.ofNat 64 s.accel.toNat) ∧ (off = 0x48 → v = s.resultLen) ∧ (0x50 ≤ off → v = 0#64)

/-- O5. A register write is ignored while BUSY; idle, the parameter registers take the value, ACCEL its bits [31:0], CMD
performs `Start`, and STATUS, RESULT_LEN and the reserved offsets ignore it (40_commands.md R92). -/
def Obligations.RegisterWritesTakeEffectOnlyAtIdle : Prop :=
  ∀ (s : State) (off : Nat) (v : Word) (rest : List HostMove), off < 0x100 → off % 8 = 0 →
    s.host = .regWrite off 64 v :: rest →
    (s.busy = true → step s = .next { s with host := rest }) ∧
    (s.busy = false →
      (off = 0x00 → step s = .next (match startCheck v s with
        | some e => endWithError e 0 { s with host := rest }
        | none => beginCommand (latchOf v s) { s with host := rest })) ∧
      (off = 0x10 → step s = .next { s with host := rest, srcAddr := v }) ∧
      (off = 0x18 → step s = .next { s with host := rest, srcLen := v }) ∧
      (off = 0x20 → step s = .next { s with host := rest, dstAddr := v }) ∧
      (off = 0x28 → step s = .next { s with host := rest, dstCap := v }) ∧
      (off = 0x30 → step s = .next { s with host := rest, dictAddr := v }) ∧
      (off = 0x38 → step s = .next { s with host := rest, dictLen := v }) ∧
      (off = 0x40 → step s = .next { s with host := rest, accel := v.extractLsb' 0 32 }) ∧
      (off = 0x08 ∨ off = 0x48 ∨ 0x50 ≤ off → step s = .next { s with host := rest }))

/-- O6. A window access that is not 64 bits wide at an 8-byte-aligned offset is refused (20_memory.md R55; log 16). -/
def Obligations.OtherWindowAccessesAreRefused : Prop :=
  ∀ (s : State) (off width : Nat) (v : Word) (rest : List HostMove), off < 0x100 → ¬ (width = 64 ∧ off % 8 = 0) →
    s.host = .regRead off width :: rest ∨ s.host = .regWrite off width v :: rest →
    step s = .refused .windowAccessNotAligned64

/-! ## Start -/

/-- O7. The six words of 30_encoding.md R73 are the commands, each matched on all 64 bits; `Start` finds every other word
illegal, in every state. -/
def Obligations.SixWordsAreCommands : Prop :=
  (∀ (w : Word) (i : Instr), decodeCommand w = .ok i ↔
    (w = 0x0000000000000001#64 ∧ i = .compress) ∨ (w = 0x0000000000000011#64 ∧ i = .compressPrefix) ∨
    (w = 0x0000000000000021#64 ∧ i = .compressExtdict) ∨ (w = 0x0000000000000002#64 ∧ i = .decompress) ∨
    (w = 0x0000000000000012#64 ∧ i = .decompressPrefix) ∨ (w = 0x0000000000000022#64 ∧ i = .decompressExtdict)) ∧
  (∀ (w : Word) (s : State), (∀ i, decodeCommand w ≠ .ok i) ↔ startCheck w s = some .illegalCommand)

/-- O8. A CMD write of any other word while idle ends with IllegalCommand: STATUS is 0x506, RESULT_LEN 0, and nothing else
changes, host memory included (60_exceptions.md R247). The word 0x03 is one of them. -/
def Obligations.OtherWordsAreIllegalCommands : Prop :=
  ∀ (s : State) (w : Word) (rest : List HostMove), CommandWritten s w rest →
    (w ≠ 0x01#64 ∧ w ≠ 0x11#64 ∧ w ≠ 0x21#64 ∧ w ≠ 0x02#64 ∧ w ≠ 0x12#64 ∧ w ≠ 0x22#64) →
    step s = .next { s with host := rest, status := 0x506#64, resultLen := 0#64 }

/-- O9. A CMD write at idle runs the instruction its word decodes to, on the state without that move (R92, R93). -/
def Obligations.CommandWriteRunsTheDecodedCommand : Prop :=
  ∀ (s : State) (w : Word) (rest : List HostMove) (i : Instr), CommandWritten s w rest → decodeCommand w = .ok i →
    step s = exec i { s with host := rest }

/-- O10. `Start`: whatever STATUS and RESULT_LEN held, a failed check completes the command at once with its code, ERROR
and DONE; otherwise the registers and the effective acceleration are latched and BUSY is set (40_commands.md R93). -/
def Obligations.StartChecksThenLatches : Prop :=
  ∀ (s : State) (w : Word) (rest : List HostMove), CommandWritten s w rest →
    (∀ e, startCheck w s = some e →
      step s = .next { s with
        host := rest, resultLen := 0#64,
        status := BitVec.ofNat 64 ((errCode e).toNat * 256 + 0b110) }) ∧
    (startCheck w s = none →
      step s = .next { s with
        host := rest, resultLen := 0#64, status := 0b001#64,
        latch := { word := w, srcAddr := s.srcAddr, srcLen := s.srcLen, dstAddr := s.dstAddr, dstCap := s.dstCap,
                   dictAddr := s.dictAddr, dictLen := s.dictLen, accel := BitVec.ofNat 32 (max s.accel.toNat 1) } })

/-- O11. `StartCheck` finds the first failing check, in the order IllegalCommand, BadRegion, InputTooLarge, from the
numbers in the registers (40_commands.md R95). -/
def Obligations.StartCheckFindsTheFirstFailure : Prop :=
  ∀ (s : State) (w : Word),
    ((∀ i op d, ¬ CommandForm i op d w) → startCheck w s = some .illegalCommand) ∧
    ∀ (i : Instr) (op : Op) (d : DictMode), CommandForm i op d w →
      (BadRanges op d s.srcAddr.toNat s.srcLen.toNat s.dstAddr.toNat
          (if op = .compress ∧ s.dstCap.toNat = 0 then s.srcLen.toNat + s.srcLen.toNat / 255 + 16 else s.dstCap.toNat)
          s.dictAddr.toNat s.dictLen.toNat → startCheck w s = some .badRegion) ∧
      (¬ BadRanges op d s.srcAddr.toNat s.srcLen.toNat s.dstAddr.toNat
          (if op = .compress ∧ s.dstCap.toNat = 0 then s.srcLen.toNat + s.srcLen.toNat / 255 + 16 else s.dstCap.toNat)
          s.dictAddr.toNat s.dictLen.toNat →
        startCheck w s =
          if op = .compress ∧ d ≠ .noDict ∧ 0x7ffff000 < s.srcLen.toNat then some .inputTooLarge else none)

/-- O12. On an idle core each of the six commands starts: accepted, it is latched and the core is BUSY; refused, it
completes at once with the error (R93, R100 to R105). Nothing else changes. -/
def Obligations.CommandsStartAtIdle : Prop :=
  ∀ (s : State) (i : Instr) (op : Op) (d : DictMode) (w : Word), CommandForm i op d w → s.busy = false →
    (checkCommand op d (latchOf w s) = none →
      exec i s = .next { s with status := 0b001#64, resultLen := 0#64, latch := latchOf w s }) ∧
    (∀ e, checkCommand op d (latchOf w s) = some e →
      exec i s = .next { s with resultLen := 0#64, status := BitVec.ofNat 64 ((errCode e).toNat * 256 + 0b110) })

/-! ## The core's turn -/

/-- O13. While BUSY, a step in which the host leaves the core its turn runs the latched command; idle, it does nothing
(R94, R261). -/
def Obligations.CoreTurnRunsTheLatchedCommand : Prop :=
  ∀ (s : State) (rest : List HostMove) (i : Instr),
    (s.busy = true → decodeCommand s.latch.word = .ok i →
      (s.host = [] → step s = exec i s) ∧ (s.host = .wait :: rest → step s = exec i { s with host := rest })) ∧
    (s.busy = false →
      (s.host = [] → step s = .next s) ∧ (s.host = .wait :: rest → step s = .next { s with host := rest }))

/-- O14. The body of the three DECOMPRESS commands fetches, decodes and runs tokens from the head of the stream: a round
runs the instruction that the decoder reads at the cursor, and rounds follow while the core is BUSY (R99, R215). -/
def Obligations.DecompressRunsTheDecodedTokens : Prop :=
  (∀ (s : State) (i : Instr) (d : DictMode) (w : Word), DecompressForm i d w → s.busy = true →
    rangesInSpace .decompress d s.latch = true →
    exec i s = decodeLoop (s.latch.srcLen.toNat + 1)
      { s with dm := d, dec := { i := 0, op := 0, tok := 0#8, ll := 0, ml := 0, off := 0#16 } }) ∧
  (∀ (s t : State) (k : Nat) (token : Token) (rest : List Byte), decodeToken (streamAt s) = .ok (token, rest) →
    exec token.toInstr s = .next t →
    decodeLoop (k + 1) s = if t.busy = true then decodeLoop k t else .next t)

/-! ## Encodings -/

/-- O15. Words written out from the tables of R73 and R75 decode to what they stand for. -/
def Obligations.SpecWordsDecode : Prop :=
  decodeTableWord 64 0x0000000000000001 = some .compress ∧
  decodeTableWord 64 0x0000000000000021 = some .compressExtdict ∧
  decodeTableWord 64 0x0000000000000012 = some .decompressPrefix ∧
  decodeToken [0x1A#8, 0x61#8, 0x01#8, 0x00#8, 0x50#8] = .ok (.seq [0x61#8] 1#16 10, [0x50#8]) ∧
  decodeToken [0x3C#8, 0x61#8, 0x62#8, 0x63#8, 0x03#8, 0x01#8] = .ok (.seq [0x61#8, 0x62#8, 0x63#8] 0x103#16 12, []) ∧
  decodeToken [0x1F#8, 0x61#8, 0x01#8, 0x00#8, 0xFF#8, 0x14#8] = .ok (.seq [0x61#8] 1#16 290, []) ∧
  decodeToken [0x20#8, 0x61#8, 0x62#8] = .ok (.last 0#4 [0x61#8, 0x62#8], [])

/-- O16. Decoding the encoding of a well-formed instruction gives it back, with every operand; a sequence token is read
from the front of any stream. -/
def Obligations.DecodeInvertsEncode : Prop :=
  (∀ i : Instr, wellFormed i = true → decode i.language (encode i) = .ok (i, [])) ∧
  (∀ (lits : List Byte) (off : BitVec 16) (mlf : Nat) (rest : List Byte), wellFormed (.tokenSeq lits off mlf) = true →
    decode .token (encode (.tokenSeq lits off mlf) ++ rest) = .ok (.tokenSeq lits off mlf, rest))

/-- O17. What decodes is the encoding of what it decodes to: neither language has a second spelling (30_encoding.md R78). -/
def Obligations.EncodeInvertsDecode : Prop :=
  ∀ (lang : Language) (bs rest : List Byte) (i : Instr), decode lang bs = .ok (i, rest) →
    i.language = lang ∧ bs = encode i ++ rest

/-- O18. `ext(x)` is the number of continuation bytes of a length, and equals (x + 240) / 255 (43_varint_token.md R161). -/
def Obligations.ContinuationByteCount : Prop :=
  (∀ x, (lenExt x).length = (x + 240) / 255) ∧
  (∀ x, (lenExt x).length = if x < 15 then 0 else (x - 15) / 255 + 1) ∧
  (lenNibble 0 = 0 ∧ lenExt 0 = []) ∧ (lenNibble 14 = 14 ∧ lenExt 14 = []) ∧ (lenNibble 15 = 15 ∧ lenExt 15 = [0x00#8]) ∧
  (lenNibble 16 = 15 ∧ lenExt 16 = [0x01#8]) ∧ (lenNibble 269 = 15 ∧ lenExt 269 = [0xFE#8]) ∧
  (lenNibble 270 = 15 ∧ lenExt 270 = [0xFF#8, 0x00#8]) ∧ (lenNibble 271 = 15 ∧ lenExt 271 = [0xFF#8, 0x01#8]) ∧
  (lenNibble 524 = 15 ∧ lenExt 524 = [0xFF#8, 0xFE#8]) ∧ (lenNibble 525 = 15 ∧ lenExt 525 = [0xFF#8, 0xFF#8, 0x00#8])

/-- O19. `DecLen` adds the bytes of an ext up to the first that is not 0xFF, reads none for a nibble below 15, finds no
length where the stream ends first, and is the exact inverse of `EncLen` (43_varint_token.md R162). -/
def Obligations.DecLenInvertsEncLen : Prop :=
  (∀ (x : Nat) (rest : List Byte), decLen (lenNibble x) (lenExt x ++ rest) = some (x, rest)) ∧
  (∀ (k : Nat) (b : Byte) (rest : List Byte), b ≠ 0xFF#8 →
    decLen 15 (List.replicate k 0xFF#8 ++ b :: rest) = some (15 + 255 * k + b.toNat, rest)) ∧
  (∀ k : Nat, decLen 15 (List.replicate k 0xFF#8) = none) ∧
  (∀ (x : Nat) (s : List Byte), x < 15 → decLen x s = some (x, s))

/-! ## Host memory -/

/-- O20. `MemRead` after `MemWrite` of n bytes gives the n low-order bytes of the value, every byte outside is as before,
and the canonical form is kept (00_scope.md R12). -/
def Obligations.MemoryReadsBackWhatWasWritten : Prop :=
  ∀ (m : Memory) (a n v : Nat), memoryWf m = true → a + n ≤ 2 ^ 64 →
    memoryWf (memWriteNat m a n v) = true ∧ memReadNat (memWriteNat m a n v) a n = v % 256 ^ n ∧
    (∀ k, k < n → readByte (memWriteNat m a n v) (a + k) = BitVec.ofNat 8 (v / 256 ^ k)) ∧
    ∀ x, ¬ InRange x a n → readByte (memWriteNat m a n v) x = readByte m x

/-- O21. While a command runs, a host read of its write range is refused and so is a host write of its write, source or
dictionary range; any other host access takes effect (20_memory.md R69; log 15). -/
def Obligations.BusyBuffersBelongToTheCommand : Prop :=
  ∀ (s : State) (i : Instr) (op : Op) (d : DictMode) (rest : List HostMove) (a : Word) (b : Byte),
    CommandForm i op d s.latch.word → Running op d s →
    (s.host = .memRead a :: rest →
      (InWriteRange op s.latch a.toNat → step s = .refused .commandOwnsBuffer) ∧
      (¬ InWriteRange op s.latch a.toNat →
        step s = .next { s with host := rest, readData := BitVec.ofNat 64 (readByte s.mem a.toNat).toNat })) ∧
    (s.host = .memWrite a b :: rest →
      (InWriteRange op s.latch a.toNat ∨ InRange a.toNat s.latch.srcAddr.toNat s.latch.srcLen.toNat ∨
          InRange a.toNat (dictRegion op d s.latch).base (dictRegion op d s.latch).len →
        step s = .refused .commandOwnsBuffer) ∧
      (¬ (InWriteRange op s.latch a.toNat ∨ InRange a.toNat s.latch.srcAddr.toNat s.latch.srcLen.toNat ∨
          InRange a.toNat (dictRegion op d s.latch).base (dictRegion op d s.latch).len) →
        step s = .next { s with host := rest, mem := writeByte s.mem a.toNat b }))

/-! ## The hash table -/

/-- O22. `hash4` and `hash5` are the multiplicative hashes of 41_hash_table.md R121 and R122, below 2^hl, with the worked
values of those rules; a position is hashed by `hash5` in U32 mode on a wide-pointer build and by `hash4` everywhere else,
to 13 bits in U16 mode and to 12 in the others (R123, R124). -/
def Obligations.HashesAreTheMultiplicativeHashes : Prop :=
  (∀ (X : Nat → Byte) (hl v : Nat), hl ≤ 32 →
    hash4 X hl v = (((X v).toNat + 2 ^ 8 * (X (v + 1)).toNat + 2 ^ 16 * (X (v + 2)).toNat + 2 ^ 24 * (X (v + 3)).toNat) *
      2654435761) % 2 ^ 32 / 2 ^ (32 - hl) ∧ hash4 X hl v < 2 ^ hl) ∧
  (∀ (X : Nat → Byte) (hl v : Nat), hl ≤ 64 →
    hash5 X hl v = ((((X v).toNat + 2 ^ 8 * (X (v + 1)).toNat + 2 ^ 16 * (X (v + 2)).toNat + 2 ^ 24 * (X (v + 3)).toNat +
      2 ^ 32 * (X (v + 4)).toNat) * 2 ^ 24) % 2 ^ 64 * 889523592379) % 2 ^ 64 / 2 ^ (64 - hl) ∧ hash5 X hl v < 2 ^ hl) ∧
  hash4 (fun _ => 0x61#8) 13 0 = 1190 ∧ hash4 (fun _ => 0x61#8) 12 0 = 595 ∧
  hash5 (fun v => [0x61#8, 0x62#8, 0x63#8, 0x64#8, 0x65#8].getD v 0#8) 12 0 = 531 ∧
  (hashWidth .u16 = 13 ∧ hashWidth .u32 = 12 ∧ hashWidth .ptr = 12) ∧ Config.hw.arch64 = true ∧
  ∀ (ch : Chunk) (v : Nat),
    hashAt ch .u16 v = hash4 ch.bytes 13 v ∧ hashAt ch .ptr v = hash4 ch.bytes 12 v ∧
    (ch.params.arch64 = true → hashAt ch .u32 v = hash5 ch.bytes 12 v) ∧
    (ch.params.arch64 = false → hashAt ch .u32 v = hash4 ch.bytes 12 v)

/-- O23. `SelectMode` is the table of 41_hash_table.md R126, on a wide-pointer build and on another. -/
def Obligations.SelectModeFollowsTheTable : Prop :=
  ∀ (P : Config.Params) (n : Nat) (dm : DictMode),
    (dm ≠ .noDict → selectMode P n dm = .u32) ∧
    (dm = .noDict → n < 65547 → selectMode P n dm = .u16) ∧
    (dm = .noDict → 65547 ≤ n → P.arch64 = true → selectMode P n dm = .u32) ∧
    (dm = .noDict → 65547 ≤ n → P.arch64 = false → selectMode P n dm = .ptr)

/-- O24. One bucket, one candidate: a slot holds the last position put there, other slots keep theirs, `exchange` answers
what the slot held before its own put, and `Clear` empties every slot (41_hash_table.md R127 to R131). -/
def Obligations.OneCandidatePerBucket : Prop :=
  ∀ (ch : Chunk) (e : Engine) (u v : Nat),
    getSlot ch v (put ch v e) = some v ∧
    (hashAt ch e.tm u = hashAt ch e.tm v → getSlot ch u (put ch v e) = some v) ∧
    (hashAt ch e.tm u ≠ hashAt ch e.tm v → getSlot ch u (put ch v e) = getSlot ch u e) ∧
    exchange ch v e = (getSlot ch v e, put ch v e) ∧ getSlot ch v (clearTable e) = none ∧
    { put ch v e with ht := e.ht } = e

/-- O25. After the table of a chunk is made ready, every dictionary position 0, 3, 6, … up to the last p with
p + HASH_UNIT ≤ DL has been put: its slot holds such a position, itself or a later one of equal hash; and no other
position is in the table (41_hash_table.md R132). Without a dictionary the table is empty. -/
def Obligations.DictionaryIndexHoldsEveryThirdPosition : Prop :=
  ∀ (ch : Chunk) (e : Engine),
    (setupTable ch e).tm = selectMode ch.params ch.n ch.dm ∧
    (ch.dm = .noDict → (setupTable ch e).ht = []) ∧
    (ch.dm ≠ .noDict →
      (∀ j, 3 * j + Config.hashUnit ch.params ≤ ch.dl →
        ∃ k, j ≤ k ∧ 3 * k + Config.hashUnit ch.params ≤ ch.dl ∧
          hashAt ch .u32 (65536 + 3 * k) = hashAt ch .u32 (65536 + 3 * j) ∧
          slotGet (setupTable ch e).ht (hashAt ch .u32 (65536 + 3 * j)) = some (65536 + 3 * k)) ∧
      (∀ h v, slotGet (setupTable ch e).ht h = some v →
        ∃ k, v = 65536 + 3 * k ∧ 3 * k + Config.hashUnit ch.params ≤ ch.dl ∧ h = hashAt ch .u32 v))

/-! ## The match finder -/

/-- O26. The skip schedule in closed form: as long as every probe before it was rejected, the j-th probe of a search lies at
p_j, with successor p_(j+1): start, start + 1, and from then on the gap is the acceleration plus one for every 64 probes.
It leaves the step A + j/64 and the counter 64·A + j + 1, and it happens exactly when its successor is at most PROBE_LIMIT,
n - 12 or n - 11 as an integer; otherwise the search ends (42_match_finder.md R143). -/
def Obligations.SkipScheduleClosedForm : Prop :=
  ∀ (ch : Chunk) (start : Nat) (e : Engine) (pos : Nat → Nat), pos 0 = start → pos 1 = start + 1 →
    (∀ j, 1 ≤ j → pos (j + 1) = pos j + ch.accel + (j - 1) / 64) →
    ∀ j, (∀ i, 1 ≤ i → i ≤ j → (Nat.iterate (probe ch) i (beginSeek ch start e)).phase = .seekMatch) →
      (Nat.iterate (probe ch) (j + 1) (beginSeek ch start e)).p = pos j ∧
      (Nat.iterate (probe ch) (j + 1) (beginSeek ch start e)).fwd = pos (j + 1) ∧
      (Nat.iterate (probe ch) (j + 1) (beginSeek ch start e)).step = ch.accel + j / 64 ∧
      (Nat.iterate (probe ch) (j + 1) (beginSeek ch start e)).nb = 64 * ch.accel + j + 1 ∧
      ((Nat.iterate (probe ch) (j + 1) (beginSeek ch start e)).phase = .lastLiterals ↔
        probeLimit ch.params.variant ch.n < (pos (j + 1) : Int))

/-- O27. A candidate is valid exactly when no rejection clause holds: not below the dictionary under dictSmall, not farther
back than 65535 in the wide modes, and four bytes equal; an empty slot reads as index 0, and in PTR mode is rejected
(42_match_finder.md R144 to R147). After a match the distance clause holds in every mode (44_compress_engine.md R188). -/
def Obligations.CandidatesAreValidated : Prop :=
  ∀ (ch : Chunk) (tm : TableMode) (slot : Option Nat) (c vp : Nat), c = slot.getD 0 → (tm = .ptr → slot ≠ none) →
    (validCandidate ch tm slot vp = true ↔
      ¬ (ch.dm ≠ .noDict ∧ ch.dl < 65536 ∧ c < 65536) ∧ ¬ (tm ≠ .u16 ∧ c + 65535 < vp) ∧
      (∀ j, j < 4 → ch.bytes (c + j) = ch.bytes (vp + j))) ∧
    (validNext ch tm slot vp = true ↔
      ¬ (ch.dm ≠ .noDict ∧ ch.dl < 65536 ∧ c < 65536) ∧ vp ≤ c + 65535 ∧
      (∀ j, j < 4 → ch.bytes (c + j) = ch.bytes (vp + j))) ∧
    validCandidate ch .ptr none vp = false ∧ validNext ch .ptr none vp = false

/-- O28. Catch-up moves p and c back together, over bytes that agree, never below the anchor and the lower bound of the
mode, and as far as that goes (42_match_finder.md R150). -/
def Obligations.CatchUpGoesAsFarBackAsItCan : Prop :=
  ∀ (ch : Chunk) (e : Engine) (lo : Nat),
    lo = (if ch.dm = .noDict then 0 else if ch.dm = .usingExtDict ∧ ch.sb ≤ e.c then ch.sb else 65536) →
    e.anchor ≤ e.p → lo ≤ e.c →
    ∃ p c, stepCatchUp ch e = .running { e with phase := .encodeLiterals, p := p, c := c } ∧
      e.anchor ≤ p ∧ p ≤ e.p ∧ lo ≤ c ∧ c ≤ e.c ∧ e.p - p = e.c - c ∧
      (∀ j, j < e.p - p → ch.bytes (ch.sb + p + j) = ch.bytes (c + j)) ∧
      (p = e.anchor ∨ c = lo ∨ ch.bytes (ch.sb + p - 1) ≠ ch.bytes (c - 1))

/-- O29. The count of a match is the number of bytes that agree past its first four, one index after the other, up to five
bytes before the chunk's end (42_match_finder.md R151, R152). -/
def Obligations.CountGoesAsFarForwardAsItCan : Prop :=
  ∀ (ch : Chunk) (p c : Nat),
    (p + 9 ≤ ch.n → p + (4 + countMatch ch p c) ≤ ch.n - 5) ∧
    (∀ j, j < countMatch ch p c →
      p + 4 + j < ch.n - 5 ∧ ch.bytes (c + 4 + j) = ch.bytes (ch.sb + p + 4 + j)) ∧
    (p + 4 + countMatch ch p c < ch.n - 5 →
      ch.bytes (c + 4 + countMatch ch p c) ≠ ch.bytes (ch.sb + p + 4 + countMatch ch p c))

/-! ## The compression engine -/

/-- O30. The engine's invariants in every state a chunk passes through: anchor ≤ ip ≤ n; the output is within the
capacity; the candidate of a match lies below its position, its offset is in 1 .. 65535, and it lies in the dictionary or
the source; every probe and refill hashes bytes inside the chunk; every slot and its content fit the table
(70_reset_and_hazards.md R276, 10_state.md R33). -/
def Obligations.EngineInvariants : Prop :=
  ∀ (ch : Chunk) (start e : Engine), WrapperChunk ch → EngineReaches ch start e →
    e.anchor ≤ e.ip ∧ e.ip ≤ ch.n ∧ e.out.length ≤ ch.cap ∧
    (e.phase = .encodeMatch → e.c < ch.sb + e.p ∧ ch.sb + e.p - e.c ≤ 65535 ∧ (ch.dm ≠ .noDict → 65536 ≤ e.c)) ∧
    (e.phase = .catchUp → e.c < ch.sb + e.p ∧ ch.sb + e.p - e.c ≤ 65535 ∧ (ch.dm ≠ .noDict → 65536 ≤ e.c)) ∧
    (e.phase = .seekMatch → 5 ≤ ch.n ∧ (pastProbeLimit ch (advance e).fwd = false → (advance e).p + 12 ≤ ch.n)) ∧
    (e.phase = .nextMatch → 2 ≤ e.ip ∧ e.ip + 12 ≤ ch.n) ∧
    (∀ h v, slotGet e.ht h = some v →
      h < 2 ^ hashWidth e.tm ∧ v < ch.sb + ch.n ∧ (e.tm = .u16 → v < 65536) ∧
      (ch.n ≤ 0x7ffff000 → v < 2147610624))

/-- O31. Every successful run of the wrapper, under both variants and any chunk sizes, answers sequence tokens with offsets
in 1 .. 65535 and then a last token with MLN = 0, at least five literals in it where there is a match before it; and with
the dictionary they stand for the source (R75, R80, R83, R84, R205). -/
def Obligations.CompressedStreamsExpandToTheSource : Prop :=
  ∀ (P : Config.Params) (S D out : List Byte) (dm : DictMode) (accel cape : Nat) (e e' : Engine) (w : Wrapper),
    1 ≤ accel → (dm = .noDict → D = []) → (dm = .noDict ∨ S.length ≤ P.chunkMax) →
    chunkCompress P S D dm accel cape e = .stream out e' w →
    ∃ (seqs : List Token) (lits : List Byte),
      (∀ t ∈ seqs, ∃ ls off mlf, t = .seq ls off mlf ∧ off ≠ 0#16) ∧ (seqs ≠ [] → 5 ≤ lits.length) ∧
      out = seqs.flatMap encodeToken ++ encodeToken (.last 0#4 lits) ∧
      growTokens (seqs ++ [.last 0#4 lits]) D = some (D ++ S)

/-- O32. The output of a COMPRESS is at most COMPRESS_BOUND of its source (43_varint_token.md R168). -/
def Obligations.OutputWithinCompressBound : Prop :=
  ∀ (P : Config.Params) (S D out : List Byte) (dm : DictMode) (accel cape : Nat) (e e' : Engine) (w : Wrapper),
    1 ≤ accel → chunkCompress P S D dm accel cape e = .stream out e' w →
    out.length ≤ S.length + S.length / 255 + 16

/-- O33. The bound checks amount to one comparison: if the stream is U under some capacity, then under any capacity of at
least its length it is U again, and under any smaller one the command ends in OutputBoundExceeded (44_compress_engine.md
R189, 40_commands.md R108). -/
def Obligations.BoundChecksAreOneComparison : Prop :=
  ∀ (P : Config.Params) (S D U : List Byte) (dm : DictMode) (accel cape cape' : Nat) (e e1 : Engine) (w1 : Wrapper),
    1 ≤ accel → chunkCompress P S D dm accel cape e = .stream U e1 w1 →
    (U.length ≤ cape' → chunkCompress P S D dm accel cape' e = .stream U e1 w1) ∧
    (cape' < U.length → ∃ e2 w2, chunkCompress P S D dm accel cape' e = .raised .outputBoundExceeded e2 w2)

/-- O34. The wrapper: pos and the output stay within the source and the capacity; a chunk that is not the last and leaves
CHUNK_TAIL bytes or more fails, with ChunkProgressFailure, and otherwise the next round starts after what it consumed, its
output behind the first (45_chunk_wrapper.md R200, R202, R203; 70_reset_and_hazards.md R278). -/
def Obligations.WrapperGoesOnOrFails : Prop :=
  (∀ (P : Config.Params) (S D : List Byte) (dm : DictMode) (accel cape : Nat) (e : Engine), 1 ≤ accel →
    match chunkCompress P S D dm accel cape e with
    | .stream out _ w => out.length ≤ cape ∧ w.pos ≤ S.length ∧ w.outBase ≤ out.length
    | .raised _ _ w => w.pos ≤ S.length ∧ w.outBase ≤ cape
    | .noProgress _ w => w.pos ≤ S.length ∧ w.outBase ≤ cape
    | .unfinished _ w => w.pos ≤ S.length ∧ w.outBase ≤ cape) ∧
  (∀ (P : Config.Params) (S D out : List Byte) (dm : DictMode) (accel cape fuel pos k : Nat) (e e1 : Engine) (ch : Chunk),
    P.chunkMax < S.length - pos →
    ch = chunkOf P ((S.drop pos).take P.chunkMax) D dm accel false (cape - out.length) →
    runEngine ch (setupTable ch e) = .finished e1 k →
    (P.chunkTail ≤ P.chunkMax - k → chunkLoop P S D dm accel cape (fuel + 1) pos out e =
      .raised .chunkProgressFailure e1 { pos := pos, outBase := out.length }) ∧
    (P.chunkMax - k < P.chunkTail → 0 < k → chunkLoop P S D dm accel cape (fuel + 1) pos out e =
      chunkLoop P S D dm accel cape fuel (pos + k) (out ++ e1.out) e1))

/-! ## The COMPRESS commands -/

/-- O35. A running COMPRESS completes with what the wrapper answers for the source, the mode and dictionary of R97, the
acceleration and the capacity: the stream is written at DST_ADDR and RESULT_LEN is its length; or STATUS has the code of
the error, RESULT_LEN is 0 and the bytes of [DST_ADDR, +CAPE) alone may have changed (40_commands.md R98, 20_memory.md
R61). Every register, the latch, the host's moves and the decoder are unchanged. -/
def Obligations.CompressCompletesAsTheWrapperAnswers : Prop :=
  ∀ (s : State) (i : Instr) (d : DictMode) (w : Word), CompressForm i d w → Running .compress d s →
    ∀ (dm : DictMode) (D : List Byte),
    (dm, D) = (if d = .noDict ∨ min s.latch.dictLen.toNat 65536 < 8 then (.noDict, [])
      else (d, dictBytes .compress d s.latch s.mem)) →
    (∃ out e wr, chunkCompress Config.hw (srcBytes s.latch s.mem) D dm (max s.latch.accel.toNat 1)
          (capacity .compress s.latch) s.engine = .stream out e wr ∧
        exec i s = .next { s with
          status := 0b010#64, resultLen := BitVec.ofNat 64 out.length, dm := dm, engine := e,
          wrapper := wr, mem := writeBytes s.mem s.latch.dstAddr.toNat out } ∧
        out.length ≤ capacity .compress s.latch ∧
        ∀ a, ¬ InRange a s.latch.dstAddr.toNat out.length →
          readByte (writeBytes s.mem s.latch.dstAddr.toNat out) a = readByte s.mem a) ∨
    (∃ err e wr m, chunkCompress Config.hw (srcBytes s.latch s.mem) D dm (max s.latch.accel.toNat 1)
          (capacity .compress s.latch) s.engine = .raised err e wr ∧
        (err = .outputBoundExceeded ∨ err = .chunkProgressFailure ∧ 0x7ffff000 < s.latch.srcLen.toNat) ∧
        exec i s = .next { s with
          status := if err = .outputBoundExceeded then 0x206#64 else 0x306#64,
          resultLen := 0#64, dm := dm, engine := e, wrapper := wr, mem := m,
          draws := s.draws + capacity .compress s.latch } ∧
        ∀ a, ¬ InRange a s.latch.dstAddr.toNat (capacity .compress s.latch) → readByte m a = readByte s.mem a)

/-- O36. With DST_CAP = 0 every COMPRESS of at most CHUNK_MAX source bytes succeeds: it completes with a stream of at most
COMPRESS_BOUND bytes at DST_ADDR, and changes no other byte (40_commands.md R107, 45_chunk_wrapper.md R207). -/
def Obligations.UnboundedCompressSucceeds : Prop :=
  ∀ (s : State) (i : Instr) (d : DictMode) (w : Word), CompressForm i d w → Running .compress d s →
    s.latch.dstCap = 0#64 → s.latch.srcLen.toNat ≤ 0x7ffff000 →
    ∃ out e wr dm, exec i s = .next { s with
      status := 0b010#64, resultLen := BitVec.ofNat 64 out.length, dm := dm,
        engine := e, wrapper := wr, mem := writeBytes s.mem s.latch.dstAddr.toNat out } ∧
      1 ≤ out.length ∧ out.length ≤ s.latch.srcLen.toNat + s.latch.srcLen.toNat / 255 + 16 ∧
      ∀ a, ¬ InRange a s.latch.dstAddr.toNat out.length →
        readByte (writeBytes s.mem s.latch.dstAddr.toNat out) a = readByte s.mem a

/-- O37. A source of at most 13 bytes is one last token, in all three COMPRESS commands: the byte 16·n and then the source.
It succeeds where n + 1 bytes fit and ends in OutputBoundExceeded where they do not (44_compress_engine.md R178, R179;
45_chunk_wrapper.md R208). -/
def Obligations.ShortSourcesAreOneLastToken : Prop :=
  ∀ (s : State) (i : Instr) (d : DictMode) (w : Word), CompressForm i d w → Running .compress d s →
    s.latch.srcLen.toNat ≤ 13 →
    (s.latch.srcLen.toNat + 1 ≤ capacity .compress s.latch →
      ∃ e wr dm, exec i s = .next { s with
        status := 0b010#64, resultLen := s.latch.srcLen + 1#64, dm := dm, engine := e,
        wrapper := wr, mem := writeBytes s.mem s.latch.dstAddr.toNat
          (BitVec.ofNat 8 (16 * s.latch.srcLen.toNat) :: srcBytes s.latch s.mem) }) ∧
    (capacity .compress s.latch < s.latch.srcLen.toNat + 1 →
      ∃ e wr dm m, exec i s = .next { s with
        status := 0x206#64, resultLen := 0#64, dm := dm, engine := e, wrapper := wr,
          mem := m, draws := s.draws + capacity .compress s.latch } ∧
        ∀ a, ¬ InRange a s.latch.dstAddr.toNat (capacity .compress s.latch) → readByte m a = readByte s.mem a)

/-- O38. A compress dictionary of fewer than 8 bytes is no dictionary: the command does exactly what COMPRESS does
(40_commands.md R97, R101). -/
def Obligations.ShortDictionaryIsNone : Prop :=
  ∀ s : State, s.busy = true → s.latch.dictLen.toNat < 8 →
    (checkCommand .compress .withPrefix64k s.latch = none → exec .compressPrefix s = exec .compress s) ∧
    (checkCommand .compress .usingExtDict s.latch = none → exec .compressExtdict s = exec .compress s)

/-- O39. COMPRESS is a function of the source bytes, the acceleration, the dictionary mode and bytes, and the capacity: two
running commands that agree on these, whatever else their states hold, write the same stream with the same RESULT_LEN, or
end with the same error (40_commands.md R106, 00_scope.md R14 and R18). -/
def Obligations.CompressIsAFunctionOfItsInputs : Prop :=
  ∀ (s s' : State) (i : Instr) (d : DictMode) (w : Word), CompressForm i d w → Running .compress d s →
    Running .compress d s' → srcBytes s.latch s.mem = srcBytes s'.latch s'.mem →
    dictBytes .compress d s.latch s.mem = dictBytes .compress d s'.latch s'.mem →
    max s.latch.accel.toNat 1 = max s'.latch.accel.toNat 1 →
    capacity .compress s.latch = capacity .compress s'.latch →
    ∃ t t', exec i s = .next t ∧ exec i s' = .next t' ∧ t.status = t'.status ∧ t.resultLen = t'.resultLen ∧
      ((∃ out, t.status = 0b010#64 ∧ t.resultLen = BitVec.ofNat 64 out.length ∧
          t.mem = writeBytes s.mem s.latch.dstAddr.toNat out ∧ t'.mem = writeBytes s'.mem s'.latch.dstAddr.toNat out) ∨
        ((t.status = 0x206#64 ∨ t.status = 0x306#64) ∧ t.resultLen = 0#64))

/-! ## Tokens -/

/-- O40. TOKEN.SEQ within its checks: its literals are written at DST_ADDR + op, then ML = MLF + 4 bytes, each the one
`off` back in the output, or the dictionary's where that lies before the output; i and op move past them; no other byte
and no other part of the state changes (46_decoder.md R221, R224, R227, R229). -/
def Obligations.SequenceTokenCopiesLiteralsThenMatch : Prop :=
  ∀ (s : State) (lits : List Byte) (off : BitVec 16) (mlf : Nat), memoryWf s.mem = true →
    rangesInSpace .decompress s.dm s.latch = true → rangesApart .decompress s.dm s.latch = true →
    lits.length + (mlf + 4) ≤ s.latch.dstCap.toNat - s.dec.op → off ≠ 0#16 →
    off.toNat ≤ s.dec.op + lits.length + (dictBytes .decompress s.dm s.latch s.mem).length →
    ∃ m, exec (.tokenSeq lits off mlf) s = .next { s with
      mem := m, dec :=
          { i := s.dec.i + (1 + (lits.length + 240) / 255 + lits.length + 2 + (mlf + 240) / 255),
            op := s.dec.op + (lits.length + (mlf + 4)),
            tok := BitVec.ofNat 8 (16 * min lits.length 15 + min mlf 15), ll := lits.length, ml := mlf + 4, off := off } } ∧
      (∀ j, j < lits.length → readByte m (s.latch.dstAddr.toNat + (s.dec.op + j)) = lits.getD j 0#8) ∧
      (∀ q, InRange q (s.dec.op + lits.length) (mlf + 4) → readByte m (s.latch.dstAddr.toNat + q) =
        if off.toNat ≤ q then readByte m (s.latch.dstAddr.toNat + (q - off.toNat))
        else (dictBytes .decompress s.dm s.latch s.mem).getD
          ((dictBytes .decompress s.dm s.latch s.mem).length + q - off.toNat) 0#8) ∧
      ∀ a, ¬ InRange a (s.latch.dstAddr.toNat + s.dec.op) (lits.length + (mlf + 4)) → readByte m a = readByte s.mem a

/-- O41. TOKEN.SEQ outside its checks ends the command with CorruptStream: literals that do not fit are not written and
RESULT_LEN is op; with an offset of 0, an offset before the output and dictionary, or a match that does not fit, the
literals are written, RESULT_LEN counts them, and no match byte is written (46_decoder.md R221, R224, R227, R233). -/
def Obligations.BadSequenceTokensAreCorrupt : Prop :=
  ∀ (s : State) (lits : List Byte) (off : BitVec 16) (mlf : Nat), rangesInSpace .decompress s.dm s.latch = true →
    (s.latch.dstCap.toNat - s.dec.op < lits.length →
      ∃ dec, exec (.tokenSeq lits off mlf) s = .next { s with
        status := 0x406#64,
          resultLen := BitVec.ofNat 64 s.dec.op, dec := dec } ∧ dec.op = s.dec.op) ∧
    (lits.length ≤ s.latch.dstCap.toNat - s.dec.op →
      (off = 0#16 ∨ s.dec.op + lits.length + (dictBytes .decompress s.dm s.latch s.mem).length < off.toNat ∨
        s.latch.dstCap.toNat - (s.dec.op + lits.length) < mlf + 4) →
      ∃ dec, exec (.tokenSeq lits off mlf) s = .next { s with
        status := 0x406#64,
          resultLen := BitVec.ofNat 64 (s.dec.op + lits.length), dec := dec,
          mem := writeBytes s.mem (s.latch.dstAddr.toNat + s.dec.op) lits } ∧ dec.op = s.dec.op + lits.length)

/-- O42. TOKEN.LAST: literals that fit are written and the command succeeds with RESULT_LEN = op, its MLN not looked at;
literals that do not fit end it with CorruptStream, nothing written (46_decoder.md R221, R222). -/
def Obligations.LastTokenEndsTheCommand : Prop :=
  ∀ (s : State) (mln : BitVec 4) (lits : List Byte), rangesInSpace .decompress s.dm s.latch = true →
    (lits.length ≤ s.latch.dstCap.toNat - s.dec.op →
      exec (.tokenLast mln lits) s = .next { s with
        status := 0b010#64,
        resultLen := BitVec.ofNat 64 (s.dec.op + lits.length),
        mem := writeBytes s.mem (s.latch.dstAddr.toNat + s.dec.op) lits,
        dec := { s.dec with i := s.dec.i + (1 + (lits.length + 240) / 255) + lits.length, op := s.dec.op + lits.length,
                            tok := BitVec.ofNat 8 (16 * min lits.length 15 + mln.toNat), ll := lits.length } }) ∧
    (s.latch.dstCap.toNat - s.dec.op < lits.length →
      ∃ dec, exec (.tokenLast mln lits) s = .next { s with
        status := 0x406#64,
          resultLen := BitVec.ofNat 64 s.dec.op, dec := dec } ∧ dec.op = s.dec.op)

/-! ## The DECOMPRESS commands -/

/-- O43. A running DECOMPRESS completes, with success or with CorruptStream; RESULT_LEN is the output count op; op is at
most the capacity and the cursor at most SRC_LEN; only the bytes [DST_ADDR, +op) of host memory change, and of the core
only the decoder, dm, STATUS and RESULT_LEN (20_memory.md R61, 46_decoder.md R232 to R234, 70_reset_and_hazards.md R277). -/
def Obligations.DecompressCompletes : Prop :=
  ∀ (s : State) (i : Instr) (d : DictMode) (w : Word), DecompressForm i d w → Running .decompress d s →
    ∃ st m dec, exec i s = .next { s with status := st, resultLen := BitVec.ofNat 64 dec.op, dm := d, dec := dec, mem := m } ∧
      (st = 0b010#64 ∨ st = 0x406#64) ∧ dec.op ≤ s.latch.dstCap.toNat ∧ dec.i ≤ s.latch.srcLen.toNat ∧
      ∀ a, ¬ InRange a s.latch.dstAddr.toNat dec.op → readByte m a = readByte s.mem a

/-- O44. No leftover shows: two states that a host cannot tell apart, whatever the hash table, the engine's, wrapper's and
decoder's registers and (at idle) the latch hold, take steps to states a host cannot tell apart, or stop alike
(10_state.md R35, R45 and R48; 70_reset_and_hazards.md R264). -/
def Obligations.LeftoversNeverShow : Prop :=
  ∀ s s' : State, visible s = visible s' → SameOutcome (step s) (step s')

/-- O45. A running DECOMPRESS succeeds exactly when its stream, with its dictionary, expands under the grammar to at most
DST_CAP bytes; then those bytes stand at DST_ADDR and RESULT_LEN counts them, and otherwise it ends with CorruptStream
(46_decoder.md R215, R232; 30_encoding.md R75, R82). -/
def Obligations.DecompressDecodesTheGrammar : Prop :=
  ∀ (s : State) (i : Instr) (d : DictMode) (w : Word), DecompressForm i d w → Running .decompress d s →
    memoryWf s.mem = true →
    (∀ out, Expands (dictBytes .decompress d s.latch s.mem) (srcBytes s.latch s.mem) out →
      out.length ≤ s.latch.dstCap.toNat →
      ∃ t, exec i s = .next t ∧ t.status = 0b010#64 ∧ t.resultLen = BitVec.ofNat 64 out.length ∧
        readBytes t.mem s.latch.dstAddr.toNat out.length = out) ∧
    ((∀ out, Expands (dictBytes .decompress d s.latch s.mem) (srcBytes s.latch s.mem) out →
      s.latch.dstCap.toNat < out.length) →
      ∃ t, exec i s = .next t ∧ t.status = 0x406#64)

/-- O46. DECOMPRESS is a function of the stream, the dictionary bytes and DST_CAP: two running commands that agree on
these end with the same STATUS, RESULT_LEN and output bytes; and it leaves the hash table as it was (40_commands.md
R114). -/
def Obligations.DecompressIsAFunctionOfItsInputs : Prop :=
  ∀ (s s' : State) (i : Instr) (d : DictMode) (w : Word), DecompressForm i d w → Running .decompress d s →
    Running .decompress d s' → memoryWf s.mem = true → memoryWf s'.mem = true →
    srcBytes s.latch s.mem = srcBytes s'.latch s'.mem →
    dictBytes .decompress d s.latch s.mem = dictBytes .decompress d s'.latch s'.mem → s.latch.dstCap = s'.latch.dstCap →
    ∃ t t', exec i s = .next t ∧ exec i s' = .next t' ∧ t.status = t'.status ∧ t.resultLen = t'.resultLen ∧
      readBytes t.mem s.latch.dstAddr.toNat t.resultLen.toNat =
        readBytes t'.mem s'.latch.dstAddr.toNat t'.resultLen.toNat ∧
      t.engine = s.engine ∧ t'.engine = s'.engine

/-- O47. Round trip: a COMPRESS that succeeds leaves a stream which DECOMPRESS, with DST_CAP the source's length and the
same dictionary mode and bytes, decodes to the source, wherever its buffers lie; and with DST_CAP = 0 every COMPRESS of at
most CHUNK_MAX source bytes succeeds (40_commands.md R107). -/
def Obligations.RoundTrip : Prop :=
  (∀ (s t u : State) (i j : Instr) (d : DictMode) (w w' : Word), CompressForm i d w → DecompressForm j d w' →
    Running .compress d s → memoryWf s.mem = true → exec i s = .next t → t.status = 0b010#64 →
    Running .decompress d u → memoryWf u.mem = true →
    srcBytes u.latch u.mem = readBytes t.mem s.latch.dstAddr.toNat t.resultLen.toNat →
    dictBytes .decompress d u.latch u.mem = dictBytes .compress d s.latch s.mem → u.latch.dstCap = s.latch.srcLen →
    ∃ v, exec j u = .next v ∧ v.status = 0b010#64 ∧ v.resultLen = s.latch.srcLen ∧
      readBytes v.mem u.latch.dstAddr.toNat s.latch.srcLen.toNat = srcBytes s.latch s.mem) ∧
  (∀ (s : State) (i : Instr) (d : DictMode) (w : Word), CompressForm i d w → Running .compress d s →
    s.latch.dstCap = 0#64 → s.latch.srcLen.toNat ≤ 0x7ffff000 → ∃ t, exec i s = .next t ∧ t.status = 0b010#64)

/-! ## The whole machine -/

/-- O48. Every step keeps the machine's invariant: STATUS stays legal, a busy core runs a command `Start` accepted with its
latch equal to the registers and RESULT_LEN 0, and memory keeps its canonical form. -/
def Obligations.EveryStepKeepsTheInvariant : Prop := ∀ s t : State, Inv s → step s = .next t → Inv t

/-- O49. The STATUS invariants hold after every step from a state in which they hold, whatever else the state holds: BUSY
excludes DONE, ERROR and ERR; ERROR implies DONE and a code 1 to 6; DONE without ERROR has code 0
(70_reset_and_hazards.md R275). -/
def Obligations.StatusStaysLegal : Prop :=
  ∀ s t : State, StatusInv s.status → step s = .next t →
    (statusBusy t.status = true → statusDone t.status = false ∧ statusError t.status = false ∧ statusErr t.status = 0#4) ∧
    (statusError t.status = true →
      statusDone t.status = true ∧ 1 ≤ (statusErr t.status).toNat ∧ (statusErr t.status).toNat ≤ 6) ∧
    (statusDone t.status = true → statusError t.status = false → statusErr t.status = 0#4) ∧
    StatusInv t.status

/-- O50. No failure stops the machine: from a state with the invariant no step faults, and every turn of the core, be it left
to it by a wait or by no move at all, ends in a state that is not BUSY (40_commands.md R111, R112; 60_exceptions.md R246). A
step is refused exactly for a move the host may not make: which moves those are the spec says (20_memory.md R55, R69;
40_commands.md R90), and that such a move stops the machine is the model's choice (log 15, log 16). -/
def Obligations.OnlyForbiddenHostMovesStop : Prop :=
  ∀ s : State, Inv s →
    (∀ r, step s ≠ .fault r) ∧
    ((∃ t, step s = .next t) ↔ ∀ m rest, s.host = m :: rest → MoveAllowed s m) ∧
    ((∃ m rest, s.host = m :: rest ∧ ¬ MoveAllowed s m) → ∃ r, step s = .refused r) ∧
    (s.host = [] ∨ (∃ rest, s.host = .wait :: rest) → ∃ t, step s = .next t ∧ t.busy = false)

/-- O51. A command that has started completes after finitely many host steps (40_commands.md R94): if no pending move is
forbidden and none is a reset, then within one step more than the pending moves the core is idle with DONE set. That bound
is the model's: its schedule is a finite list of host moves, and an empty list gives the core its turn (log 2). -/
def Obligations.StartedCommandsComplete : Prop :=
  ∀ s : State, Inv s → s.busy = true → (∀ m ∈ s.host, MoveAllowed s m) → HostMove.reset ∉ s.host →
    ∃ k t, k ≤ s.host.length + 1 ∧ stepN k s = .next t ∧ t.busy = false ∧ statusDone t.status = true

/-- O52. The core never writes a parameter register: a step whose host move is neither a reset nor a register write, or is
a write of CMD, leaves all seven as they were (10_state.md R46). -/
def Obligations.ParametersAreTheHosts : Prop :=
  ∀ s t : State, step s = .next t → (∀ off width v rest, s.host = .regWrite off width v :: rest → off = 0) →
    (∀ rest, s.host ≠ .reset :: rest) →
    t.srcAddr = s.srcAddr ∧ t.srcLen = s.srcLen ∧ t.dstAddr = s.dstAddr ∧ t.dstCap = s.dstCap ∧
    t.dictAddr = s.dictAddr ∧ t.dictLen = s.dictLen ∧ t.accel = s.accel

/-- O53. Host memory changes only in the write range of the running command, but for the host's own writes; so the source
and the dictionary are never written (20_memory.md R57, 10_state.md R49). -/
def Obligations.OnlyTheWriteRangeChanges : Prop :=
  ∀ (s t : State) (a : Nat), Inv s → step s = .next t → (∀ x b rest, s.host ≠ .memWrite x b :: rest) →
    (s.busy = true → ∀ op d, decodeFields s.latch.word = .ok (op, d) → ¬ InWriteRange op s.latch a) →
    readByte t.mem a = readByte s.mem a

/-! ## The engine and the decoder, part by part -/

/-- O54. A stream with no whole token at the cursor ends the command with CorruptStream. With no token byte left, an LL ext
without an end, or fewer bytes than the literals announced, nothing is written and RESULT_LEN is op; with the literals whole
but one offset byte, or an ML ext without an end, the literals are written and counted, where they fit the capacity, and
else not (46_decoder.md R217, R219, R221, R223, R225, R233). -/
def Obligations.CutTokensAreCorrupt : Prop :=
  ∀ (s : State) (k : Nat),
    (streamAt s = [] ∨ (∃ tok s1, streamAt s = tok :: s1 ∧ (decLen (tok.toNat / 16) s1 = none ∨
        ∃ ll s2, decLen (tok.toNat / 16) s1 = some (ll, s2) ∧ s2.length < ll)) →
      ∃ dec, decodeLoop (k + 1) s = .next { s with
        status := 0x406#64, resultLen := BitVec.ofNat 64 s.dec.op, dec := dec } ∧ dec.op = s.dec.op) ∧
    (∀ tok s1 lits rest, streamAt s = tok :: s1 → decLen (tok.toNat / 16) s1 = some (lits.length, lits ++ rest) →
      (rest.length = 1 ∨ ∃ o0 o1 s4, rest = o0 :: o1 :: s4 ∧ decLen (tok.toNat % 16) s4 = none) →
      (lits.length ≤ s.latch.dstCap.toNat - s.dec.op →
        ∃ dec, decodeLoop (k + 1) s = .next { s with
          status := 0x406#64, resultLen := BitVec.ofNat 64 (s.dec.op + lits.length), dec := dec,
          mem := writeBytes s.mem (s.latch.dstAddr.toNat + s.dec.op) lits } ∧ dec.op = s.dec.op + lits.length) ∧
      (s.latch.dstCap.toNat - s.dec.op < lits.length →
        ∃ dec, decodeLoop (k + 1) s = .next { s with
          status := 0x406#64, resultLen := BitVec.ofNat 64 s.dec.op, dec := dec } ∧ dec.op = s.dec.op))

/-- O55. A chunk's run begins with both cursors at 0 and no output: below five bytes it goes straight to LastLiterals, the
table not touched; else position 0 is put and SeekMatch starts at 1 with step 1 and counter 64·A (44_compress_engine.md
R178, R180; 42_match_finder.md R140). -/
def Obligations.EngineEntersAtPositionOne : Prop :=
  ∀ (ch : Chunk) (e : Engine),
    (ch.n < 5 → engineEntry ch e = { e with ip := 0, anchor := 0, out := [], phase := .lastLiterals }) ∧
    (5 ≤ ch.n → engineEntry ch e = { e with
      ip := 0, anchor := 0, out := [], phase := .seekMatch, fwd := 1, step := 1, nb := 64 * ch.accel,
      ht := slotPut e.ht (hashAt ch e.tm ch.sb) ch.sb })

/-- O56. A probe at p, its successor within PROBE_LIMIT, takes the candidate its bucket held and puts its own position there;
it goes to CatchUp with that candidate exactly when the candidate is `Valid` (O27), and else the search goes on at the
successor. Past PROBE_LIMIT the search ends in LastLiterals with the table and the anchor as they were (42_match_finder.md
R141, R142, R144). -/
def Obligations.ProbesExchangeAndTest : Prop :=
  ∀ (ch : Chunk) (e : Engine) (slot : Option Nat),
    slot = slotGet e.ht (hashAt ch e.tm (ch.sb + e.fwd)) →
    (e.phase = .seekMatch → engineStep ch e = .running (probe ch e)) ∧
    (probeLimit ch.params.variant ch.n < ((e.fwd + e.step : Nat) : Int) → probe ch e = { e with
      p := e.fwd, fwd := e.fwd + e.step, step := e.nb / 64, nb := e.nb + 1, phase := .lastLiterals }) ∧
    (((e.fwd + e.step : Nat) : Int) ≤ probeLimit ch.params.variant ch.n → probe ch e = { e with
      p := e.fwd, fwd := e.fwd + e.step, step := e.nb / 64, nb := e.nb + 1, c := slot.getD 0,
      ht := slotPut e.ht (hashAt ch e.tm (ch.sb + e.fwd)) (ch.sb + e.fwd),
      phase := if validCandidate ch e.tm slot (ch.sb + e.fwd) = true then .catchUp else .seekMatch })

/-- O57. NextMatch puts the position two below the cursor, then takes the candidate of the cursor's bucket and puts the
cursor there. Exactly when the candidate is `ValidNext` (O27) a token byte 00 is begun at the cursor and EncodeMatch follows
with that candidate, or the output is full; else SeekMatch starts anew one after the cursor (44_compress_engine.md R188). -/
def Obligations.NextMatchChainsOrSeeks : Prop :=
  ∀ (ch : Chunk) (e e0 : Engine) (slot : Option Nat), e.phase = .nextMatch →
    e0 = { e with ht := slotPut e.ht (hashAt ch e.tm (ch.sb + e.ip - 2)) (ch.sb + e.ip - 2) } →
    slot = slotGet e0.ht (hashAt ch e.tm (ch.sb + e.ip)) →
    (validNext ch e.tm slot (ch.sb + e.ip) = true →
      (e.out.length < ch.cap → engineStep ch e = .running { e with
        c := slot.getD 0, ht := slotPut e0.ht (hashAt ch e.tm (ch.sb + e.ip)) (ch.sb + e.ip),
        tokpos := e.out.length, out := e.out ++ [0x00#8], p := e.ip, phase := .encodeMatch }) ∧
      (ch.cap ≤ e.out.length → ∃ e', engineStep ch e = .overflow e')) ∧
    (validNext ch e.tm slot (ch.sb + e.ip) = false → engineStep ch e = .running { e with
      c := slot.getD 0, ht := slotPut e0.ht (hashAt ch e.tm (ch.sb + e.ip)) (ch.sb + e.ip),
      fwd := e.ip + 1, step := 1, nb := 64 * ch.accel, phase := .seekMatch })

/-- O58. What the engine emits is tokens. EncodeLiterals begins a token with the literals from the anchor to p; EncodeMatch
completes a token so begun (or begun by NextMatch) to the token of its literals, the offset and the count, and moves ip and
the anchor past the match; LastLiterals of a final chunk emits the last token of the literals from the anchor on. Each
raises OutputBoundExceeded exactly when its bytes do not fit, or when the capacity is below COMPRESS_BOUND and its margin
check fails (44_compress_engine.md R182 to R187, R190; 43_varint_token.md R165, R166). -/
def Obligations.EngineEmitsTokens : Prop :=
  ∀ (ch : Chunk) (e : Engine) (lits : List Byte),
    (e.phase = .encodeLiterals → lits = (List.range (e.p - e.anchor)).map (fun j => ch.bytes (ch.sb + (e.anchor + j))) →
      if e.out.length + 1 + (lits.length + 240) / 255 + lits.length ≤ ch.cap ∧
          (ch.n + ch.n / 255 + 16 ≤ ch.cap ∨ (e.out.length + 1) + lits.length + 8 + lits.length / 255 ≤ ch.cap) then
        engineStep ch e = .running { e with
          tokpos := e.out.length, phase := .encodeMatch,
          out := e.out ++ tokenByte (min lits.length 15) 0 :: (lenExt lits.length ++ lits) }
      else ∃ e', engineStep ch e = .overflow e') ∧
    (∀ (pre : List Byte) (mlf : Nat), e.phase = .encodeMatch → e.tokpos = pre.length →
      e.out = pre ++ tokenByte (min lits.length 15) 0 :: (lenExt lits.length ++ lits) →
      e.c < ch.sb + e.p → ch.sb + e.p - e.c ≤ 65535 → mlf = countMatch ch e.p e.c →
      if e.out.length + 2 + (mlf + 240) / 255 ≤ ch.cap ∧
          (ch.n + ch.n / 255 + 16 ≤ ch.cap ∨
            (e.out.length + 2) + 6 + matchMarginTerm ch.params.variant mlf ≤ ch.cap) then
        engineStep ch e = .running { e with
          out := pre ++ encodeToken (.seq lits (BitVec.ofNat 16 (ch.sb + e.p - e.c)) mlf), k := mlf,
          ip := e.p + (4 + mlf), anchor := e.p + (4 + mlf),
          phase := if (ch.n : Int) - 12 < ((e.p + (4 + mlf) : Nat) : Int) then .lastLiterals else .nextMatch }
      else ∃ e', engineStep ch e = .overflow e') ∧
    (e.phase = .lastLiterals → ch.final = false → engineStep ch e = .finished { e with phase := .done } e.anchor) ∧
    (e.phase = .lastLiterals → ch.final = true →
      lits = (List.range (ch.n - e.anchor)).map (fun j => ch.bytes (ch.sb + (e.anchor + j))) →
      if e.out.length + 1 + (lits.length + 240) / 255 + lits.length ≤ ch.cap then
        engineStep ch e = .finished { e with phase := .done, out := e.out ++ encodeToken (.last 0#4 lits) } ch.n
      else ∃ e', engineStep ch e = .overflow e')

/-- O59. Matches are found: a source of n equal bytes, n from 14 to CHUNK_MAX, is one sequence token, one literal with offset
1 and ML = n - 6, and a last token of five literals, whatever the byte and the acceleration; it succeeds where that stream
fits and ends in OutputBoundExceeded where it does not (95_test_vectors.md V1, V12 and V49 are such runs; 42_match_finder.md
R141, R151; 44_compress_engine.md R177, R189). -/
def Obligations.RunsOfOneByteAreOneMatch : Prop :=
  ∀ (s : State) (b : Byte) (n : Nat) (U : List Byte), Running .compress .noDict s → 14 ≤ n → n ≤ 0x7ffff000 →
    s.latch.srcLen.toNat = n → srcBytes s.latch s.mem = List.replicate n b →
    U = encodeToken (.seq [b] 1#16 (n - 10)) ++ encodeToken (.last 0#4 (List.replicate 5 b)) →
    (U.length ≤ capacity .compress s.latch → ∃ e wr, exec .compress s = .next { s with
      status := 0b010#64, resultLen := BitVec.ofNat 64 U.length, dm := .noDict, engine := e, wrapper := wr,
      mem := writeBytes s.mem s.latch.dstAddr.toNat U }) ∧
    (capacity .compress s.latch < U.length → ∃ t, exec .compress s = .next t ∧ t.status = 0x206#64 ∧ t.resultLen = 0#64)

end
end

