-- ==== Sys2Proof/Laws/State.lean ====
section
/-! SUPPORT. One lemma for each field of the state under each named update: what the update leaves in it. -/

namespace Sys2Proof.Machine

/-! ### endWithError -/

@[simp] theorem endWithError_status (e : Err) (n : Nat) (s : State) : (endWithError e n s).status = errorWord e := rfl
@[simp] theorem endWithError_srcAddr (e : Err) (n : Nat) (s : State) : (endWithError e n s).srcAddr = s.srcAddr := rfl
@[simp] theorem endWithError_srcLen (e : Err) (n : Nat) (s : State) : (endWithError e n s).srcLen = s.srcLen := rfl
@[simp] theorem endWithError_dstAddr (e : Err) (n : Nat) (s : State) : (endWithError e n s).dstAddr = s.dstAddr := rfl
@[simp] theorem endWithError_dstCap (e : Err) (n : Nat) (s : State) : (endWithError e n s).dstCap = s.dstCap := rfl
@[simp] theorem endWithError_dictAddr (e : Err) (n : Nat) (s : State) : (endWithError e n s).dictAddr = s.dictAddr := rfl
@[simp] theorem endWithError_dictLen (e : Err) (n : Nat) (s : State) : (endWithError e n s).dictLen = s.dictLen := rfl
@[simp] theorem endWithError_accel (e : Err) (n : Nat) (s : State) : (endWithError e n s).accel = s.accel := rfl
@[simp] theorem endWithError_resultLen (e : Err) (n : Nat) (s : State) : (endWithError e n s).resultLen = BitVec.ofNat 64 n := rfl
@[simp] theorem endWithError_latch (e : Err) (n : Nat) (s : State) : (endWithError e n s).latch = s.latch := rfl
@[simp] theorem endWithError_dm (e : Err) (n : Nat) (s : State) : (endWithError e n s).dm = s.dm := rfl
@[simp] theorem endWithError_engine (e : Err) (n : Nat) (s : State) : (endWithError e n s).engine = s.engine := rfl
@[simp] theorem endWithError_wrapper (e : Err) (n : Nat) (s : State) : (endWithError e n s).wrapper = s.wrapper := rfl
@[simp] theorem endWithError_dec (e : Err) (n : Nat) (s : State) : (endWithError e n s).dec = s.dec := rfl
@[simp] theorem endWithError_mem (e : Err) (n : Nat) (s : State) : (endWithError e n s).mem = s.mem := rfl
@[simp] theorem endWithError_host (e : Err) (n : Nat) (s : State) : (endWithError e n s).host = s.host := rfl
@[simp] theorem endWithError_readData (e : Err) (n : Nat) (s : State) : (endWithError e n s).readData = s.readData := rfl
@[simp] theorem endWithError_draws (e : Err) (n : Nat) (s : State) : (endWithError e n s).draws = s.draws := rfl

/-! ### endOk -/

@[simp] theorem endOk_status (n : Nat) (s : State) : (endOk n s).status = doneWord := rfl
@[simp] theorem endOk_srcAddr (n : Nat) (s : State) : (endOk n s).srcAddr = s.srcAddr := rfl
@[simp] theorem endOk_srcLen (n : Nat) (s : State) : (endOk n s).srcLen = s.srcLen := rfl
@[simp] theorem endOk_dstAddr (n : Nat) (s : State) : (endOk n s).dstAddr = s.dstAddr := rfl
@[simp] theorem endOk_dstCap (n : Nat) (s : State) : (endOk n s).dstCap = s.dstCap := rfl
@[simp] theorem endOk_dictAddr (n : Nat) (s : State) : (endOk n s).dictAddr = s.dictAddr := rfl
@[simp] theorem endOk_dictLen (n : Nat) (s : State) : (endOk n s).dictLen = s.dictLen := rfl
@[simp] theorem endOk_accel (n : Nat) (s : State) : (endOk n s).accel = s.accel := rfl
@[simp] theorem endOk_resultLen (n : Nat) (s : State) : (endOk n s).resultLen = BitVec.ofNat 64 n := rfl
@[simp] theorem endOk_latch (n : Nat) (s : State) : (endOk n s).latch = s.latch := rfl
@[simp] theorem endOk_dm (n : Nat) (s : State) : (endOk n s).dm = s.dm := rfl
@[simp] theorem endOk_engine (n : Nat) (s : State) : (endOk n s).engine = s.engine := rfl
@[simp] theorem endOk_wrapper (n : Nat) (s : State) : (endOk n s).wrapper = s.wrapper := rfl
@[simp] theorem endOk_dec (n : Nat) (s : State) : (endOk n s).dec = s.dec := rfl
@[simp] theorem endOk_mem (n : Nat) (s : State) : (endOk n s).mem = s.mem := rfl
@[simp] theorem endOk_host (n : Nat) (s : State) : (endOk n s).host = s.host := rfl
@[simp] theorem endOk_readData (n : Nat) (s : State) : (endOk n s).readData = s.readData := rfl
@[simp] theorem endOk_draws (n : Nat) (s : State) : (endOk n s).draws = s.draws := rfl

/-! ### beginCommand -/

@[simp] theorem beginCommand_status (l : Latch) (s : State) : (beginCommand l s).status = busyWord := rfl
@[simp] theorem beginCommand_srcAddr (l : Latch) (s : State) : (beginCommand l s).srcAddr = s.srcAddr := rfl
@[simp] theorem beginCommand_srcLen (l : Latch) (s : State) : (beginCommand l s).srcLen = s.srcLen := rfl
@[simp] theorem beginCommand_dstAddr (l : Latch) (s : State) : (beginCommand l s).dstAddr = s.dstAddr := rfl
@[simp] theorem beginCommand_dstCap (l : Latch) (s : State) : (beginCommand l s).dstCap = s.dstCap := rfl
@[simp] theorem beginCommand_dictAddr (l : Latch) (s : State) : (beginCommand l s).dictAddr = s.dictAddr := rfl
@[simp] theorem beginCommand_dictLen (l : Latch) (s : State) : (beginCommand l s).dictLen = s.dictLen := rfl
@[simp] theorem beginCommand_accel (l : Latch) (s : State) : (beginCommand l s).accel = s.accel := rfl
@[simp] theorem beginCommand_resultLen (l : Latch) (s : State) : (beginCommand l s).resultLen = 0 := rfl
@[simp] theorem beginCommand_latch (l : Latch) (s : State) : (beginCommand l s).latch = l := rfl
@[simp] theorem beginCommand_dm (l : Latch) (s : State) : (beginCommand l s).dm = s.dm := rfl
@[simp] theorem beginCommand_engine (l : Latch) (s : State) : (beginCommand l s).engine = s.engine := rfl
@[simp] theorem beginCommand_wrapper (l : Latch) (s : State) : (beginCommand l s).wrapper = s.wrapper := rfl
@[simp] theorem beginCommand_dec (l : Latch) (s : State) : (beginCommand l s).dec = s.dec := rfl
@[simp] theorem beginCommand_mem (l : Latch) (s : State) : (beginCommand l s).mem = s.mem := rfl
@[simp] theorem beginCommand_host (l : Latch) (s : State) : (beginCommand l s).host = s.host := rfl
@[simp] theorem beginCommand_readData (l : Latch) (s : State) : (beginCommand l s).readData = s.readData := rfl
@[simp] theorem beginCommand_draws (l : Latch) (s : State) : (beginCommand l s).draws = s.draws := rfl

/-! ### resetEvent -/

@[simp] theorem resetEvent_status (s : State) : (resetEvent s).status = State.reset.status := rfl
@[simp] theorem resetEvent_srcAddr (s : State) : (resetEvent s).srcAddr = State.reset.srcAddr := rfl
@[simp] theorem resetEvent_srcLen (s : State) : (resetEvent s).srcLen = State.reset.srcLen := rfl
@[simp] theorem resetEvent_dstAddr (s : State) : (resetEvent s).dstAddr = State.reset.dstAddr := rfl
@[simp] theorem resetEvent_dstCap (s : State) : (resetEvent s).dstCap = State.reset.dstCap := rfl
@[simp] theorem resetEvent_dictAddr (s : State) : (resetEvent s).dictAddr = State.reset.dictAddr := rfl
@[simp] theorem resetEvent_dictLen (s : State) : (resetEvent s).dictLen = State.reset.dictLen := rfl
@[simp] theorem resetEvent_accel (s : State) : (resetEvent s).accel = State.reset.accel := rfl
@[simp] theorem resetEvent_resultLen (s : State) : (resetEvent s).resultLen = State.reset.resultLen := rfl
@[simp] theorem resetEvent_latch (s : State) : (resetEvent s).latch = State.reset.latch := rfl
@[simp] theorem resetEvent_dm (s : State) : (resetEvent s).dm = State.reset.dm := rfl
@[simp] theorem resetEvent_engine (s : State) : (resetEvent s).engine = State.reset.engine := rfl
@[simp] theorem resetEvent_wrapper (s : State) : (resetEvent s).wrapper = State.reset.wrapper := rfl
@[simp] theorem resetEvent_dec (s : State) : (resetEvent s).dec = State.reset.dec := rfl
@[simp] theorem resetEvent_mem (s : State) : (resetEvent s).mem = s.mem := rfl
@[simp] theorem resetEvent_host (s : State) : (resetEvent s).host = s.host := rfl
@[simp] theorem resetEvent_readData (s : State) : (resetEvent s).readData = s.readData := rfl
@[simp] theorem resetEvent_draws (s : State) : (resetEvent s).draws = s.draws := rfl

/-! ### writeOut -/

@[simp] theorem writeOut_status (b : Byte) (s : State) : (writeOut b s).status = s.status := rfl
@[simp] theorem writeOut_srcAddr (b : Byte) (s : State) : (writeOut b s).srcAddr = s.srcAddr := rfl
@[simp] theorem writeOut_srcLen (b : Byte) (s : State) : (writeOut b s).srcLen = s.srcLen := rfl
@[simp] theorem writeOut_dstAddr (b : Byte) (s : State) : (writeOut b s).dstAddr = s.dstAddr := rfl
@[simp] theorem writeOut_dstCap (b : Byte) (s : State) : (writeOut b s).dstCap = s.dstCap := rfl
@[simp] theorem writeOut_dictAddr (b : Byte) (s : State) : (writeOut b s).dictAddr = s.dictAddr := rfl
@[simp] theorem writeOut_dictLen (b : Byte) (s : State) : (writeOut b s).dictLen = s.dictLen := rfl
@[simp] theorem writeOut_accel (b : Byte) (s : State) : (writeOut b s).accel = s.accel := rfl
@[simp] theorem writeOut_resultLen (b : Byte) (s : State) : (writeOut b s).resultLen = s.resultLen := rfl
@[simp] theorem writeOut_latch (b : Byte) (s : State) : (writeOut b s).latch = s.latch := rfl
@[simp] theorem writeOut_dm (b : Byte) (s : State) : (writeOut b s).dm = s.dm := rfl
@[simp] theorem writeOut_engine (b : Byte) (s : State) : (writeOut b s).engine = s.engine := rfl
@[simp] theorem writeOut_wrapper (b : Byte) (s : State) : (writeOut b s).wrapper = s.wrapper := rfl
@[simp] theorem writeOut_dec (b : Byte) (s : State) : (writeOut b s).dec = { s.dec with op := s.dec.op + 1 } := rfl
@[simp] theorem writeOut_mem (b : Byte) (s : State) : (writeOut b s).mem = writeByte s.mem (s.latch.dstAddr.toNat + s.dec.op) b := rfl
@[simp] theorem writeOut_host (b : Byte) (s : State) : (writeOut b s).host = s.host := rfl
@[simp] theorem writeOut_readData (b : Byte) (s : State) : (writeOut b s).readData = s.readData := rfl
@[simp] theorem writeOut_draws (b : Byte) (s : State) : (writeOut b s).draws = s.draws := rfl

/-! ### raiseCorrupt -/

@[simp] theorem raiseCorrupt_status (s : State) : (raiseCorrupt s).status = errorWord .corruptStream := rfl
@[simp] theorem raiseCorrupt_srcAddr (s : State) : (raiseCorrupt s).srcAddr = s.srcAddr := rfl
@[simp] theorem raiseCorrupt_srcLen (s : State) : (raiseCorrupt s).srcLen = s.srcLen := rfl
@[simp] theorem raiseCorrupt_dstAddr (s : State) : (raiseCorrupt s).dstAddr = s.dstAddr := rfl
@[simp] theorem raiseCorrupt_dstCap (s : State) : (raiseCorrupt s).dstCap = s.dstCap := rfl
@[simp] theorem raiseCorrupt_dictAddr (s : State) : (raiseCorrupt s).dictAddr = s.dictAddr := rfl
@[simp] theorem raiseCorrupt_dictLen (s : State) : (raiseCorrupt s).dictLen = s.dictLen := rfl
@[simp] theorem raiseCorrupt_accel (s : State) : (raiseCorrupt s).accel = s.accel := rfl
@[simp] theorem raiseCorrupt_resultLen (s : State) : (raiseCorrupt s).resultLen = BitVec.ofNat 64 s.dec.op := rfl
@[simp] theorem raiseCorrupt_latch (s : State) : (raiseCorrupt s).latch = s.latch := rfl
@[simp] theorem raiseCorrupt_dm (s : State) : (raiseCorrupt s).dm = s.dm := rfl
@[simp] theorem raiseCorrupt_engine (s : State) : (raiseCorrupt s).engine = s.engine := rfl
@[simp] theorem raiseCorrupt_wrapper (s : State) : (raiseCorrupt s).wrapper = s.wrapper := rfl
@[simp] theorem raiseCorrupt_dec (s : State) : (raiseCorrupt s).dec = s.dec := rfl
@[simp] theorem raiseCorrupt_mem (s : State) : (raiseCorrupt s).mem = s.mem := rfl
@[simp] theorem raiseCorrupt_host (s : State) : (raiseCorrupt s).host = s.host := rfl
@[simp] theorem raiseCorrupt_readData (s : State) : (raiseCorrupt s).readData = s.readData := rfl
@[simp] theorem raiseCorrupt_draws (s : State) : (raiseCorrupt s).draws = s.draws := rfl

/-! ### takeToken -/

@[simp] theorem takeToken_status (tok : Byte) (ll n : Nat) (s : State) : (takeToken tok ll n s).status = s.status := rfl
@[simp] theorem takeToken_srcAddr (tok : Byte) (ll n : Nat) (s : State) : (takeToken tok ll n s).srcAddr = s.srcAddr := rfl
@[simp] theorem takeToken_srcLen (tok : Byte) (ll n : Nat) (s : State) : (takeToken tok ll n s).srcLen = s.srcLen := rfl
@[simp] theorem takeToken_dstAddr (tok : Byte) (ll n : Nat) (s : State) : (takeToken tok ll n s).dstAddr = s.dstAddr := rfl
@[simp] theorem takeToken_dstCap (tok : Byte) (ll n : Nat) (s : State) : (takeToken tok ll n s).dstCap = s.dstCap := rfl
@[simp] theorem takeToken_dictAddr (tok : Byte) (ll n : Nat) (s : State) : (takeToken tok ll n s).dictAddr = s.dictAddr := rfl
@[simp] theorem takeToken_dictLen (tok : Byte) (ll n : Nat) (s : State) : (takeToken tok ll n s).dictLen = s.dictLen := rfl
@[simp] theorem takeToken_accel (tok : Byte) (ll n : Nat) (s : State) : (takeToken tok ll n s).accel = s.accel := rfl
@[simp] theorem takeToken_resultLen (tok : Byte) (ll n : Nat) (s : State) : (takeToken tok ll n s).resultLen = s.resultLen := rfl
@[simp] theorem takeToken_latch (tok : Byte) (ll n : Nat) (s : State) : (takeToken tok ll n s).latch = s.latch := rfl
@[simp] theorem takeToken_dm (tok : Byte) (ll n : Nat) (s : State) : (takeToken tok ll n s).dm = s.dm := rfl
@[simp] theorem takeToken_engine (tok : Byte) (ll n : Nat) (s : State) : (takeToken tok ll n s).engine = s.engine := rfl
@[simp] theorem takeToken_wrapper (tok : Byte) (ll n : Nat) (s : State) : (takeToken tok ll n s).wrapper = s.wrapper := rfl
@[simp] theorem takeToken_dec (tok : Byte) (ll n : Nat) (s : State) : (takeToken tok ll n s).dec = { s.dec with i := s.dec.i + n, tok := tok, ll := ll } := rfl
@[simp] theorem takeToken_mem (tok : Byte) (ll n : Nat) (s : State) : (takeToken tok ll n s).mem = s.mem := rfl
@[simp] theorem takeToken_host (tok : Byte) (ll n : Nat) (s : State) : (takeToken tok ll n s).host = s.host := rfl
@[simp] theorem takeToken_readData (tok : Byte) (ll n : Nat) (s : State) : (takeToken tok ll n s).readData = s.readData := rfl
@[simp] theorem takeToken_draws (tok : Byte) (ll n : Nat) (s : State) : (takeToken tok ll n s).draws = s.draws := rfl

/-! ### beginDecode -/

@[simp] theorem beginDecode_status (d : DictMode) (s : State) : (beginDecode d s).status = s.status := rfl
@[simp] theorem beginDecode_srcAddr (d : DictMode) (s : State) : (beginDecode d s).srcAddr = s.srcAddr := rfl
@[simp] theorem beginDecode_srcLen (d : DictMode) (s : State) : (beginDecode d s).srcLen = s.srcLen := rfl
@[simp] theorem beginDecode_dstAddr (d : DictMode) (s : State) : (beginDecode d s).dstAddr = s.dstAddr := rfl
@[simp] theorem beginDecode_dstCap (d : DictMode) (s : State) : (beginDecode d s).dstCap = s.dstCap := rfl
@[simp] theorem beginDecode_dictAddr (d : DictMode) (s : State) : (beginDecode d s).dictAddr = s.dictAddr := rfl
@[simp] theorem beginDecode_dictLen (d : DictMode) (s : State) : (beginDecode d s).dictLen = s.dictLen := rfl
@[simp] theorem beginDecode_accel (d : DictMode) (s : State) : (beginDecode d s).accel = s.accel := rfl
@[simp] theorem beginDecode_resultLen (d : DictMode) (s : State) : (beginDecode d s).resultLen = s.resultLen := rfl
@[simp] theorem beginDecode_latch (d : DictMode) (s : State) : (beginDecode d s).latch = s.latch := rfl
@[simp] theorem beginDecode_dm (d : DictMode) (s : State) : (beginDecode d s).dm = d := rfl
@[simp] theorem beginDecode_engine (d : DictMode) (s : State) : (beginDecode d s).engine = s.engine := rfl
@[simp] theorem beginDecode_wrapper (d : DictMode) (s : State) : (beginDecode d s).wrapper = s.wrapper := rfl
@[simp] theorem beginDecode_dec (d : DictMode) (s : State) : (beginDecode d s).dec = Decoder.start := rfl
@[simp] theorem beginDecode_mem (d : DictMode) (s : State) : (beginDecode d s).mem = s.mem := rfl
@[simp] theorem beginDecode_host (d : DictMode) (s : State) : (beginDecode d s).host = s.host := rfl
@[simp] theorem beginDecode_readData (d : DictMode) (s : State) : (beginDecode d s).readData = s.readData := rfl
@[simp] theorem beginDecode_draws (d : DictMode) (s : State) : (beginDecode d s).draws = s.draws := rfl

/-! ### BUSY under the words the core writes to STATUS -/

@[simp] theorem statusBusy_busyWord : statusBusy busyWord = true := rfl
@[simp] theorem statusBusy_doneWord : statusBusy doneWord = false := rfl
@[simp] theorem statusBusy_errorWord (e : Err) : statusBusy (errorWord e) = false := by cases e <;> rfl
@[simp] theorem endWithError_busy (e : Err) (n : Nat) (s : State) : (endWithError e n s).busy = false := by
  simp [State.busy]
@[simp] theorem endOk_busy (n : Nat) (s : State) : (endOk n s).busy = false := by simp [State.busy]
@[simp] theorem beginCommand_busy (l : Latch) (s : State) : (beginCommand l s).busy = true := by simp [State.busy]
@[simp] theorem raiseCorrupt_busy (s : State) : (raiseCorrupt s).busy = false := by simp [State.busy]
@[simp] theorem writeOut_busy (b : Byte) (s : State) : (writeOut b s).busy = s.busy := rfl
@[simp] theorem takeToken_busy (tok : Byte) (ll n : Nat) (s : State) : (takeToken tok ll n s).busy = s.busy := rfl
@[simp] theorem beginDecode_busy (d : DictMode) (s : State) : (beginDecode d s).busy = s.busy := rfl

theorem statusInv_busyWord : StatusInv busyWord := by decide
theorem statusInv_doneWord : StatusInv doneWord := by decide
theorem statusInv_errorWord (e : Err) : StatusInv (errorWord e) := by cases e <;> decide
theorem statusInv_zero : StatusInv 0#64 := by decide

end Sys2Proof.Machine
end

