-- ==== Sys2Proof/Laws/Encoding.lean ====
section
/-! SUPPORT. Sizes of the encodings, the two nibbles of a token byte, and that reading a token uses up bytes. -/

namespace Sys2Proof

@[simp] theorem leBytes_length (n v : Nat) : (leBytes n v).length = n := by
  induction n generalizing v with
  | zero => rfl
  | succ n ih => simp [leBytes, ih]

/-- `ext(x)` counts the continuation bytes (R161). -/
@[simp] theorem lenExt_length (x : Nat) : (lenExt x).length = lenExtSize x := by
  unfold lenExt lenExtSize; split <;> simp

/-- A token's bytes are as many as `tokenSize` says (R167). -/
theorem encodeToken_length (t : Token) : (encodeToken t).length = tokenSize t := by
  cases t <;> simp [encodeToken, tokenSize] <;> omega

theorem lenNibble_lt (x : Nat) : lenNibble x < 16 := by
  have : lenNibble x ≤ Config.runMask := Nat.min_le_right _ _
  simp only [Config.runMask] at this; omega

theorem tokenByte_lln {a b : Nat} (ha : a < 16) (hb : b < 16) : tokenLln (tokenByte a b) = a := by
  simp only [tokenLln, tokenByte, BitVec.extractLsb'_toNat, BitVec.toNat_ofNat, Nat.shiftRight_eq_div_pow]
  omega

theorem tokenByte_mln {a b : Nat} (hb : b < 16) : (tokenMln (tokenByte a b)).toNat = b := by
  simp only [tokenMln, tokenByte, BitVec.extractLsb'_toNat, BitVec.toNat_ofNat, Nat.shiftRight_eq_div_pow]
  omega

theorem decExt_length {x y : Nat} {s t : List Byte} (h : decExt x s = some (y, t)) : t.length < s.length := by
  induction s generalizing x with
  | nil => cases h
  | cons b bs ih =>
    simp only [decExt] at h
    split at h
    · have := ih h; simp; omega
    · cases h; simp

theorem decLen_length {n y : Nat} {s t : List Byte} (h : decLen n s = some (y, t)) : t.length ≤ s.length := by
  unfold decLen at h
  split at h
  · exact Nat.le_of_lt (decExt_length h)
  · cases h; exact Nat.le_refl _

end Sys2Proof
end

