-- ==== Sys2Proof/Laws/Memory.lean ====
section
/-! SUPPORT. Host memory and the hash table's slots: a read after a write, what a write leaves alone, and that every
memory operation keeps the canonical form. -/

namespace Sys2Proof.Machine

/-! ### One byte -/

/-- A write leaves every other byte alone. -/
theorem readByte_writeByte_ne (m : Memory) {a x : Nat} (b : Byte) (h : x ≠ a) :
    readByte (writeByte m a b) x = readByte m x := by
  induction m with
  | nil => simp only [writeByte]; split <;> simp [readByte, Ne.symm h]
  | cons c m ih =>
    obtain ⟨k, v⟩ := c
    simp only [writeByte]
    split
    · split <;> simp [readByte, Ne.symm h]
    · split
      · subst_vars; split <;> simp [readByte, Ne.symm h]
      · simp [readByte, ih]

/-- Below every listed address memory reads the unlisted byte. -/
theorem readByte_of_below {m : Memory} {a : Nat} (h : ∀ c ∈ m, a < c.1) : readByte m a = unlistedByte := by
  induction m with
  | nil => rfl
  | cons c m ih =>
    obtain ⟨k, v⟩ := c
    have hk : a < k := h (k, v) (by simp)
    simp only [readByte, if_neg (by omega : k ≠ a)]
    exact ih fun c hc => h c (by simp [hc])

/-- The head and the tail of a canonical memory. -/
theorem memoryWf_cons {k : Nat} {v : Byte} {m : Memory} :
    memoryWf ((k, v) :: m) = true ↔ k < Config.addrSpace ∧ v ≠ unlistedByte ∧ (∀ c ∈ m, k < c.1) ∧ memoryWf m = true := by
  simp [memoryWf, and_assoc]

/-- A byte written is the byte read back. -/
theorem readByte_writeByte_same {m : Memory} (hm : memoryWf m = true) (a : Nat) (b : Byte) :
    readByte (writeByte m a b) a = b := by
  induction m with
  | nil =>
    simp only [writeByte]
    split
    · simp [readByte, *]
    · simp [readByte]
  | cons c m ih =>
    obtain ⟨k, v⟩ := c
    obtain ⟨-, -, hlt, hm'⟩ := memoryWf_cons.1 hm
    simp only [writeByte]
    split
    · split
      · have : readByte m a = unlistedByte := readByte_of_below fun c hc => by have := hlt c hc; omega
        simp only [readByte, if_neg (by omega : ¬ k = a)]; simp [*]
      · simp [readByte]
    · split
      · subst_vars
        split
        · rw [readByte_of_below hlt]; simp [*]
        · simp [readByte]
      · simp only [readByte, if_neg (by omega : ¬ k = a)]; exact ih hm'

/-- The addresses a written memory lists. -/
theorem mem_writeByte {m : Memory} {a : Nat} {b : Byte} {c : Host.Cell} (h : c ∈ writeByte m a b) :
    c = (a, b) ∨ c ∈ m := by
  induction m with
  | nil => simp only [writeByte] at h; split at h <;> simp_all
  | cons c' m ih =>
    obtain ⟨k, v⟩ := c'
    simp only [writeByte] at h
    split at h
    · split at h
      · exact .inr h
      · simpa using h
    · split at h
      · split at h
        · exact .inr (by simp [h])
        · rcases List.mem_cons.1 h with h | h
          · exact .inl h
          · exact .inr (by simp [h])
      · rcases List.mem_cons.1 h with h | h
        · exact .inr (by simp [h])
        · rcases ih h with h | h
          · exact .inl h
          · exact .inr (by simp [h])

/-- A write keeps the canonical form. -/
theorem writeByte_wf {m : Memory} (hm : memoryWf m = true) {a : Nat} (ha : a < Config.addrSpace) (b : Byte) :
    memoryWf (writeByte m a b) = true := by
  induction m with
  | nil =>
    simp only [writeByte]
    split
    · exact hm
    · exact memoryWf_cons.2 ⟨ha, ‹_›, by simp, rfl⟩
  | cons c m ih =>
    obtain ⟨k, v⟩ := c
    obtain ⟨hk, hv, hlt, hm'⟩ := memoryWf_cons.1 hm
    simp only [writeByte]
    split
    · split
      · exact hm
      · refine memoryWf_cons.2 ⟨ha, ‹_›, fun c hc => ?_, hm⟩
        rcases List.mem_cons.1 hc with rfl | hc
        · assumption
        · have := hlt c hc; omega
    · split
      · subst_vars
        split
        · exact hm'
        · exact memoryWf_cons.2 ⟨ha, ‹_›, hlt, hm'⟩
      · refine memoryWf_cons.2 ⟨hk, hv, fun c hc => ?_, ih hm'⟩
        rcases mem_writeByte hc with rfl | hc
        · show k < a; omega
        · exact hlt c hc

/-! ### Byte strings -/

@[simp] theorem readBytes_length (m : Memory) (a n : Nat) : (readBytes m a n).length = n := by
  induction n generalizing a with
  | zero => rfl
  | succ n ih => simp [readBytes, ih]

theorem readBytes_getElem? (m : Memory) {a n j : Nat} (h : j < n) : (readBytes m a n)[j]? = some (readByte m (a + j)) := by
  induction n generalizing a j with
  | zero => omega
  | succ n ih =>
    cases j with
    | zero => simp [readBytes]
    | succ j => simp only [readBytes, List.getElem?_cons_succ]; rw [ih (by omega)]; congr 2; omega

/-- Two memories that agree on a range read the same byte string there. -/
theorem readBytes_congr {m m' : Memory} {a n : Nat} (h : ∀ x, a ≤ x → x < a + n → readByte m x = readByte m' x) :
    readBytes m a n = readBytes m' a n := by
  induction n generalizing a with
  | zero => rfl
  | succ n ih =>
    simp only [readBytes]
    rw [h a (by omega) (by omega), ih fun x h1 h2 => h x (by omega) (by omega)]

/-- Writing a byte string leaves every address outside it alone. -/
theorem readByte_writeBytes_outside {m : Memory} {a x : Nat} {bs : List Byte} (h : x < a ∨ a + bs.length ≤ x) :
    readByte (writeBytes m a bs) x = readByte m x := by
  induction bs generalizing m a with
  | nil => rfl
  | cons b bs ih =>
    simp only [List.length_cons] at h
    rw [writeBytes, ih (by omega), readByte_writeByte_ne _ _ (by omega)]

theorem writeBytes_wf {m : Memory} (hm : memoryWf m = true) {a : Nat} {bs : List Byte}
    (h : a + bs.length ≤ Config.addrSpace) : memoryWf (writeBytes m a bs) = true := by
  induction bs generalizing m a with
  | nil => exact hm
  | cons b bs ih =>
    simp only [List.length_cons] at h
    exact ih (writeByte_wf hm (by omega) b) (by omega)

/-- A byte string written is the byte string read back. -/
theorem readBytes_writeBytes {m : Memory} (hm : memoryWf m = true) {a : Nat} {bs : List Byte}
    (h : a + bs.length ≤ Config.addrSpace) : readBytes (writeBytes m a bs) a bs.length = bs := by
  induction bs generalizing m a with
  | nil => rfl
  | cons b bs ih =>
    simp only [List.length_cons] at h
    have hm' := writeByte_wf hm (by omega : a < Config.addrSpace) b
    simp only [writeBytes, List.length_cons, readBytes]
    rw [ih hm' (by omega), readByte_writeBytes_outside (.inl (by omega)), readByte_writeByte_same hm]

/-- Free bytes leave every address outside their range alone. -/
theorem readByte_fillFree_outside {m : Memory} {a x n k : Nat} (h : x < a ∨ a + n ≤ x) :
    readByte (fillFree m a n k) x = readByte m x := by
  induction n generalizing m a k with
  | zero => rfl
  | succ n ih => rw [fillFree, ih (by omega), readByte_writeByte_ne _ _ (by omega)]

theorem fillFree_wf {m : Memory} (hm : memoryWf m = true) {a n k : Nat} (h : a + n ≤ Config.addrSpace) :
    memoryWf (fillFree m a n k) = true := by
  induction n generalizing m a k with
  | zero => exact hm
  | succ n ih => exact ih (writeByte_wf hm (by omega) _) (by omega)

/-! ### The hash table's slots -/

theorem slotGet_slotPut_ne (t : List (Nat × Nat)) {h x : Nat} (v : Nat) (hx : x ≠ h) :
    slotGet (slotPut t h v) x = slotGet t x := by
  induction t with
  | nil => simp [slotPut, slotGet, Ne.symm hx]
  | cons c t ih =>
    obtain ⟨k, w⟩ := c
    simp only [slotPut]
    split
    · simp [slotGet, Ne.symm hx]
    · split
      · subst_vars; simp [slotGet, Ne.symm hx]
      · simp [slotGet, ih]

theorem slotGet_slotPut_same (t : List (Nat × Nat)) (h v : Nat) : slotGet (slotPut t h v) h = some v := by
  induction t with
  | nil => simp [slotPut, slotGet]
  | cons c t ih =>
    obtain ⟨k, w⟩ := c
    simp only [slotPut]
    split
    · simp [slotGet]
    · split
      · subst_vars; simp [slotGet]
      · simp only [slotGet, if_neg (by omega : ¬ k = h)]; exact ih

end Sys2Proof.Machine
end

