-- ==== Sys2Proof/Laws/Decoder.lean ====
section
/-! SUPPORT. The token decoder: what copying writes and leaves alone, what a token changes, and that a DECOMPRESS ends. -/

namespace Sys2Proof.Machine

/-! ### What a stretch of output writes changes -/

/-- From `s` to `t` the decoder wrote `n` bytes at its output position and moved only its own registers. -/
structure Wrote (s t : State) (n : Nat) : Prop where
  op      : t.dec.op = s.dec.op + n
  outside : ∀ x, x < s.latch.dstAddr.toNat + s.dec.op ∨ s.latch.dstAddr.toNat + s.dec.op + n ≤ x →
    readByte t.mem x = readByte s.mem x
  wf      : memoryWf s.mem = true → s.latch.dstAddr.toNat + s.dec.op + n ≤ Config.addrSpace → memoryWf t.mem = true
  rest    : t = { s with mem := t.mem, dec := t.dec, status := t.status, resultLen := t.resultLen }

theorem Wrote.latch {s t : State} {n : Nat} (h : Wrote s t n) : t.latch = s.latch := by rw [h.rest]
theorem Wrote.dm {s t : State} {n : Nat} (h : Wrote s t n) : t.dm = s.dm := by rw [h.rest]

/-- Nothing written. -/
theorem wrote_zero {s t : State} (hm : t.mem = s.mem) (ho : t.dec.op = s.dec.op)
    (hr : t = { s with mem := t.mem, dec := t.dec, status := t.status, resultLen := t.resultLen }) : Wrote s t 0 :=
  ⟨by simpa using ho, fun x _ => by rw [hm], fun h _ => by rw [hm]; exact h, hr⟩

/-- One stretch of writes after another. -/
theorem Wrote.trans {s t u : State} {n k : Nat} (h1 : Wrote s t n) (h2 : Wrote t u k) : Wrote s u (n + k) where
  op := by rw [h2.op, h1.op]; omega
  outside := fun x hx => by
    rw [h2.outside x (by rw [h1.op, h1.latch]; omega), h1.outside x (by omega)]
  wf := fun hm hb => h2.wf (h1.wf hm (by omega)) (by rw [h1.op, h1.latch]; omega)
  rest := by have a := h1.rest; have b := h2.rest; rw [b, a]

theorem writeOut_wrote (b : Byte) (s : State) : Wrote s (writeOut b s) 1 where
  op := rfl
  outside := fun x hx => readByte_writeByte_ne _ _ (by omega)
  wf := fun hm hb => writeByte_wf hm (by omega) _
  rest := rfl

theorem copyLiterals_wrote (bs : List Byte) (s : State) : Wrote s (copyLiterals bs s) bs.length := by
  induction bs generalizing s with
  | nil => exact wrote_zero rfl rfl rfl
  | cons b bs ih =>
    have := (writeOut_wrote b s).trans (ih (writeOut b s))
    rwa [Nat.add_comm, ← List.length_cons] at this

/-- Copying literals is writing them as one byte string at DST_ADDR + op (R221). -/
theorem copyLiterals_eq (bs : List Byte) (s : State) : copyLiterals bs s =
    { s with mem := writeBytes s.mem (s.latch.dstAddr.toNat + s.dec.op) bs,
             dec := { s.dec with op := s.dec.op + bs.length } } := by
  induction bs generalizing s with
  | nil => rfl
  | cons b bs ih =>
    simp only [copyLiterals, ih, writeOut, writeBytes, List.length_cons]
    congr 1
    congr 1; omega

theorem copyMatch_wrote (off n : Nat) (s : State) : Wrote s (copyMatch off n s) n := by
  induction n generalizing s with
  | zero => exact wrote_zero rfl rfl rfl
  | succ n ih =>
    have := (writeOut_wrote (historyByte s off) s).trans (ih (writeOut (historyByte s off) s))
    rwa [Nat.add_comm] at this

theorem copyLiterals_dec (bs : List Byte) (s : State) :
    (copyLiterals bs s).dec = { s.dec with op := s.dec.op + bs.length } := by
  induction bs generalizing s with
  | nil => rfl
  | cons b bs ih => simp only [copyLiterals, ih, writeOut_dec, List.length_cons]; congr 1; omega

theorem copyMatch_dec (off n : Nat) (s : State) : (copyMatch off n s).dec = { s.dec with op := s.dec.op + n } := by
  induction n generalizing s with
  | zero => rfl
  | succ n ih => simp only [copyMatch, ih, writeOut_dec]; congr 1; omega

theorem copyLiterals_frame (bs : List Byte) (s : State) :
    copyLiterals bs s = { s with mem := (copyLiterals bs s).mem, dec := (copyLiterals bs s).dec } := by
  induction bs generalizing s with
  | nil => rfl
  | cons b bs ih => simp only [copyLiterals]; rw [ih (writeOut b s)]; rfl

theorem copyMatch_frame (off n : Nat) (s : State) :
    copyMatch off n s = { s with mem := (copyMatch off n s).mem, dec := (copyMatch off n s).dec } := by
  induction n generalizing s with
  | zero => rfl
  | succ n ih => simp only [copyMatch]; rw [ih (writeOut (historyByte s off) s)]; rfl

theorem copyLiterals_busy (bs : List Byte) (s : State) : (copyLiterals bs s).busy = s.busy := by
  induction bs generalizing s with
  | nil => rfl
  | cons b bs ih => simp [copyLiterals, ih]

theorem copyMatch_busy (off n : Nat) (s : State) : (copyMatch off n s).busy = s.busy := by
  induction n generalizing s with
  | zero => rfl
  | succ n ih => simp [copyMatch, ih]

/-! ### What a token changes -/

theorem tokenLln_eq (tok : Byte) : tokenLln tok = tok.toNat / 16 := by
  simp [tokenLln, BitVec.extractLsb'_toNat, Nat.shiftRight_eq_div_pow]; omega

theorem tokenMln_toNat (tok : Byte) : (tokenMln tok).toNat = tok.toNat % 16 := by simp [tokenMln]

/-- How a token left the command: it goes on with the cursor moved, or it ended with op reported (R233). -/
def TokenLeft (s t : State) : Prop :=
  (t.status = s.status ∧ t.resultLen = s.resultLen ∧ s.dec.i < t.dec.i) ∨
  ((t.status = doneWord ∨ t.status = errorWord .corruptStream) ∧ t.resultLen = BitVec.ofNat 64 t.dec.op)

/-- A token writes at most the capacity that is left, and nothing but the output and the decoder's registers; then it goes
on, or ends the command. -/
structure TokenStep (s t : State) : Prop where
  wrote : ∃ n, n ≤ capacityLeft s ∧ Wrote s t n
  left  : TokenLeft s t

theorem raiseCorrupt_wrote (s : State) : Wrote s (raiseCorrupt s) 0 := wrote_zero rfl rfl rfl

theorem tokenLeft_raise (s t : State) : TokenLeft s (raiseCorrupt t) := .inr ⟨.inr rfl, rfl⟩

/-- The literal part fails with nothing written, or writes the literals and moves the cursor past them. -/
theorem literalPart_cases (tok : Byte) (lits : List Byte) (s : State) :
    (capacityLeft s < lits.length ∧ ∃ t, literalPart tok lits s = .error t ∧ TokenStep s t) ∨
    (lits.length ≤ capacityLeft s ∧ ∃ t, literalPart tok lits s = .ok t ∧ Wrote s t lits.length ∧
      t.status = s.status ∧ t.resultLen = s.resultLen ∧
      t.dec.i = s.dec.i + (1 + lenExtSize lits.length) + lits.length) := by
  unfold literalPart
  simp only
  split
  · rename_i h
    refine .inl ⟨h, _, rfl, ⟨0, Nat.zero_le _, wrote_zero rfl rfl rfl⟩, tokenLeft_raise _ _⟩
  · rename_i h
    have hw := copyLiterals_wrote lits (takeToken tok lits.length (1 + lenExtSize lits.length) s)
    have hf := copyLiterals_frame lits (takeToken tok lits.length (1 + lenExtSize lits.length) s)
    refine .inr ⟨Nat.le_of_not_lt h, _, rfl, ⟨hw.op, hw.outside, hw.wf, ?_⟩, ?_, ?_, ?_⟩
    · rw [hf]; rfl
    · rw [hf]; rfl
    · rw [hf]; rfl
    · simp [copyLiterals_dec]

/-- The literal part in full: an error with nothing written, or the literals written as one byte string (R221). -/
theorem literalPart_eq (tok : Byte) (lits : List Byte) (s : State) :
    literalPart tok lits s =
      if capacityLeft s < lits.length then
        .error (raiseCorrupt (takeToken tok lits.length (1 + lenExtSize lits.length) s))
      else .ok { s with
        mem := writeBytes s.mem (s.latch.dstAddr.toNat + s.dec.op) lits,
        dec := { s.dec with
          i := s.dec.i + (1 + lenExtSize lits.length) + lits.length, op := s.dec.op + lits.length,
          tok := tok, ll := lits.length } } := by
  simp only [literalPart, copyLiterals_eq]
  rfl

/-- The match part writes at most the capacity that is left; the command goes on past the match, or ends. -/
theorem matchPart_step (off : BitVec 16) (mlf : Nat) (s : State) : TokenStep s (matchPart off mlf s) := by
  unfold matchPart
  simp only
  split
  · exact ⟨⟨0, Nat.zero_le _, wrote_zero rfl rfl rfl⟩, tokenLeft_raise _ _⟩
  · split
    · exact ⟨⟨0, Nat.zero_le _, wrote_zero rfl rfl rfl⟩, tokenLeft_raise _ _⟩
    · split
      · exact ⟨⟨0, Nat.zero_le _, wrote_zero rfl rfl rfl⟩, tokenLeft_raise _ _⟩
      · rename_i h
        let s2 : State := { s with dec := { s.dec with i := s.dec.i + 2 + lenExtSize mlf, ml := mlf + Config.minMatch, off := off } }
        have hw := copyMatch_wrote off.toNat (mlf + Config.minMatch) s2
        have hf := copyMatch_frame off.toNat (mlf + Config.minMatch) s2
        have hd := copyMatch_dec off.toNat (mlf + Config.minMatch) s2
        refine ⟨⟨mlf + Config.minMatch, Nat.le_of_not_lt h, hw.op, hw.outside, hw.wf, ?_⟩, .inl ⟨?_, ?_, ?_⟩⟩
        · show copyMatch off.toNat (mlf + Config.minMatch) s2 = _; rw [hf]
        · show (copyMatch off.toNat (mlf + Config.minMatch) s2).status = _; rw [hf]
        · show (copyMatch off.toNat (mlf + Config.minMatch) s2).resultLen = _; rw [hf]
        · show _ < (copyMatch off.toNat (mlf + Config.minMatch) s2).dec.i; rw [hd]; show s.dec.i < s.dec.i + 2 + _; omega

/-- The capacity left after writing. -/
theorem capacityLeft_wrote {s t : State} {n : Nat} (h : Wrote s t n) : capacityLeft t = capacityLeft s - n := by
  unfold capacityLeft; rw [h.op, h.latch]; omega

/-- What a step does after the literals, the whole token does. -/
theorem TokenStep.after {s t u : State} {n : Nat} (hn : n ≤ capacityLeft s) (h : Wrote s t n)
    (hst : t.status = s.status) (hr : t.resultLen = s.resultLen) (hi : s.dec.i < t.dec.i) (h2 : TokenStep t u) :
    TokenStep s u := by
  obtain ⟨⟨k, hk, hw⟩, hl⟩ := h2
  refine ⟨⟨n + k, by rw [capacityLeft_wrote h] at hk; omega, h.trans hw⟩, ?_⟩
  rcases hl with ⟨a, b, c⟩ | hl
  · exact .inl ⟨a.trans hst, b.trans hr, by omega⟩
  · exact .inr hl

theorem tokenSeqState_step (lits : List Byte) (off : BitVec 16) (mlf : Nat) (s : State) :
    TokenStep s (tokenSeqState lits off mlf s) := by
  unfold tokenSeqState
  rcases literalPart_cases (tokenByte (lenNibble lits.length) (lenNibble mlf)) lits s with
    ⟨-, t, ht, h⟩ | ⟨hn, t, ht, hw, hst, hr, hi⟩ <;> rw [ht]
  · exact h
  · exact TokenStep.after hn hw hst hr (by omega) (matchPart_step off mlf t)

theorem tokenLastState_step (mln : BitVec 4) (lits : List Byte) (s : State) : TokenStep s (tokenLastState mln lits s) := by
  unfold tokenLastState
  rcases literalPart_cases (tokenByte (lenNibble lits.length) mln.toNat) lits s with
    ⟨-, t, ht, h⟩ | ⟨hn, t, ht, hw, hst, hr, hi⟩ <;> rw [ht]
  · exact h
  · exact TokenStep.after hn hw hst hr (by omega)
      ⟨⟨0, Nat.zero_le _, wrote_zero rfl rfl rfl⟩, .inr ⟨.inl rfl, rfl⟩⟩

theorem tokenErrorState_step (err : DecodeError) (s : State) : TokenStep s (tokenErrorState err s) := by
  have h0 : ∀ t : State, t.mem = s.mem → t.dec.op = s.dec.op →
      t = { s with mem := t.mem, dec := t.dec, status := t.status, resultLen := t.resultLen } →
      TokenStep s (raiseCorrupt t) := fun t hm ho hr =>
    ⟨⟨0, Nat.zero_le _, by simpa using (wrote_zero hm ho hr).trans (raiseCorrupt_wrote t)⟩, tokenLeft_raise _ _⟩
  cases err with
  | reservedBits => exact h0 s rfl rfl rfl
  | reservedOp => exact h0 s rfl rfl rfl
  | reservedDict => exact h0 s rfl rfl rfl
  | notOneWord => exact h0 s rfl rfl rfl
  | noToken => exact h0 s rfl rfl rfl
  | literalExtCut tok => exact h0 _ rfl rfl rfl
  | literalsCut tok ll => exact h0 _ rfl rfl rfl
  | offsetCut tok lits =>
    simp only [tokenErrorState]
    rcases literalPart_cases tok lits s with ⟨-, t, ht, h⟩ | ⟨hn, t, ht, hw, hst, hr, hi⟩ <;> rw [ht]
    · exact h
    · exact TokenStep.after hn hw hst hr (by omega) ⟨⟨0, Nat.zero_le _, wrote_zero rfl rfl rfl⟩, tokenLeft_raise _ _⟩
  | matchExtCut tok lits off =>
    simp only [tokenErrorState]
    rcases literalPart_cases tok lits s with ⟨-, t, ht, h⟩ | ⟨hn, t, ht, hw, hst, hr, hi⟩ <;> rw [ht]
    · exact h
    · exact TokenStep.after hn hw hst hr (by omega) ⟨⟨0, Nat.zero_le _, wrote_zero rfl rfl rfl⟩, tokenLeft_raise _ _⟩

/-- A round, within the address space, answers a next state, and is a token step. -/
theorem tokenRound_step {s : State} (h : rangesInSpace .decompress s.dm s.latch = true) :
    ∃ t, tokenRound s = .next t ∧ TokenStep s t := by
  unfold tokenRound execTokenSeq execTokenLast
  simp only [h, if_true]
  split
  · exact ⟨_, rfl, tokenSeqState_step _ _ _ _⟩
  · exact ⟨_, rfl, tokenLastState_step _ _ _⟩
  · exact ⟨_, rfl, tokenErrorState_step _ _⟩

/-- With no byte of the stream left, a round ends the command. -/
theorem tokenRound_exhausted {s : State} (h : s.latch.srcLen.toNat ≤ s.dec.i) : tokenRound s = .next (raiseCorrupt s) := by
  unfold tokenRound streamAt
  rw [Nat.sub_eq_zero_of_le h]
  rfl

/-! ### A DECOMPRESS ends -/

theorem tokenLeft_not_busy {s t : State} (h : TokenLeft s t) (hb : s.busy = true) :
    (t.busy = true ∧ t.status = s.status ∧ t.resultLen = s.resultLen ∧ s.dec.i < t.dec.i) ∨
    (t.busy = false ∧ (t.status = doneWord ∨ t.status = errorWord .corruptStream) ∧
      t.resultLen = BitVec.ofNat 64 t.dec.op) := by
  rcases h with ⟨h1, h2, h3⟩ | ⟨h1, h2⟩
  · exact .inl ⟨by simpa [State.busy, h1] using hb, h1, h2, h3⟩
  · exact .inr ⟨by rcases h1 with h1 | h1 <;> simp [State.busy, h1], h1, h2⟩

/-- How a DECOMPRESS's rounds end from a busy state (R94, R112, R233). -/
theorem decodeLoop_ends {fuel : Nat} {s : State} (hs : rangesInSpace .decompress s.dm s.latch = true)
    (hb : s.busy = true) (hf : s.latch.srcLen.toNat - s.dec.i < fuel) :
    ∃ t n, decodeLoop fuel s = .next t ∧ n ≤ capacityLeft s ∧ Wrote s t n ∧
      (t.status = doneWord ∨ t.status = errorWord .corruptStream) ∧ t.resultLen = BitVec.ofNat 64 t.dec.op := by
  induction fuel generalizing s with
  | zero => omega
  | succ fuel ih =>
    obtain ⟨t, ht, ⟨n, hn, hw⟩, hl⟩ := tokenRound_step hs
    simp only [decodeLoop, ht]
    rcases tokenLeft_not_busy hl hb with ⟨hbt, -, -, hi⟩ | ⟨hbt, hst, hr⟩
    · by_cases hx : s.latch.srcLen.toNat ≤ s.dec.i
      · rw [tokenRound_exhausted hx] at ht
        cases ht
        simp at hbt
      · obtain ⟨u, k, hu, hk, hwu, hst, hr⟩ := ih (s := t) (by rw [hw.dm, hw.latch]; exact hs) hbt
          (by rw [hw.latch]; omega)
        refine ⟨u, n + k, by simpa [hbt] using hu, ?_, hw.trans hwu, hst, hr⟩
        rw [capacityLeft_wrote hw] at hk; omega
    · exact ⟨t, n, by simp [hbt], hn, hw, hst, hr⟩

/-- A DECOMPRESS within the address space ends, with success or CorruptStream, having written exactly its output (R61,
R94, R233). -/
theorem completeDecompress_ends {d : DictMode} {s : State} (hs : rangesInSpace .decompress d s.latch = true)
    (hb : s.busy = true) :
    ∃ t, completeDecompress d s = .next t ∧ t.dec.op ≤ capacity .decompress s.latch ∧
      Wrote (beginDecode d s) t t.dec.op ∧
      (t.status = doneWord ∨ t.status = errorWord .corruptStream) ∧ t.resultLen = BitVec.ofNat 64 t.dec.op := by
  obtain ⟨t, n, ht, hn, hw, hst, hr⟩ := decodeLoop_ends (fuel := s.latch.srcLen.toNat + 1) (s := beginDecode d s) hs hb
    (by simp [Decoder.start])
  have hop : t.dec.op = n := by rw [hw.op]; simp [Decoder.start]
  refine ⟨t, by simp [completeDecompress, hs, ht], ?_, by rwa [hop], hst, hr⟩
  rw [hop]
  simpa [capacityLeft, Decoder.start] using hn

end Sys2Proof.Machine
end

