-- ==== Sys2Proof/Laws/Engine.lean ====
section
/-! SUPPORT. The compression engine and the chunk wrapper: what each engine step can do, that the output stays within the
capacity, and that every run ends within its bound. -/

namespace Sys2Proof.Machine

/-! ### Small facts of the parts -/

/-- `Out` succeeds exactly within the capacity, and only appends. -/
theorem emit_eq_some {ch : Chunk} {bs : List Byte} {e e' : Engine} :
    emit ch bs e = some e' ↔ e.out.length + bs.length ≤ ch.cap ∧ e' = { e with out := e.out ++ bs } := by
  unfold emit; split <;> simp_all [eq_comm]

@[simp] theorem put_ht_only (ch : Chunk) (v : Nat) (e : Engine) :
    put ch v e = { e with ht := slotPut e.ht (hashAt ch e.tm v) v } := rfl

/-- Catch-up steps p and c back by the same amount, p not below the anchor. -/
theorem catchUpLoop_spec (ch : Chunk) (anchor lo p c : Nat) :
    ∃ d, (catchUpLoop ch anchor lo p c).1 + d = p ∧ (catchUpLoop ch anchor lo p c).2 + d = c ∧
      (anchor ≤ p → anchor ≤ (catchUpLoop ch anchor lo p c).1) := by
  induction p generalizing c with
  | zero => exact ⟨0, by simp [catchUpLoop]⟩
  | succ p ih =>
    simp only [catchUpLoop]
    split
    · obtain ⟨d, h1, h2, h3⟩ := ih (c - 1)
      exact ⟨d + 1, by omega, by omega, fun _ => h3 (by omega)⟩
    · exact ⟨0, by simp⟩

theorem countEqual_le (X : Nat → Byte) (limit a b : Nat) : countEqual X limit a b ≤ limit := by
  induction limit generalizing a b with
  | zero => simp [countEqual]
  | succ limit ih => simp only [countEqual]; split <;> [have := ih (a + 1) (b + 1); skip] <;> omega

/-- A match ends at least LASTLITERALS before the chunk's end (R151). -/
theorem countMatch_le (ch : Chunk) (p c : Nat) : countMatch ch p c ≤ ch.n - (p + 9) := by
  have := countEqual_le ch.bytes (ch.n - (p + Config.minMatch + Config.lastLiterals)) (c + Config.minMatch)
    (ch.sb + p + Config.minMatch)
  simpa [countMatch, Config.minMatch, Config.lastLiterals] using this

/-- The count reaches its limit where all the bytes agree. -/
theorem countEqual_eq_limit (X : Nat → Byte) (limit a b : Nat) (h : ∀ j, j < limit → X (a + j) = X (b + j)) :
    countEqual X limit a b = limit := by
  induction limit generalizing a b with
  | zero => rfl
  | succ limit ih =>
    have h0 : X a = X b := h 0 (by omega)
    simp only [countEqual, h0, if_true]
    rw [ih]
    intro j hj
    have := h (j + 1) (by omega)
    rwa [show a + (j + 1) = a + 1 + j by omega, show b + (j + 1) = b + 1 + j by omega] at this

/-- A slot holds what was last put there. -/
@[simp] theorem slotGet_slotPut_self (t : List (Nat × Nat)) (h v : Nat) : slotGet (slotPut t h v) h = some v := by
  induction t with
  | nil => simp [slotPut, slotGet]
  | cons x t ih =>
    obtain ⟨k, w⟩ := x
    simp only [slotPut]
    split
    · simp [slotGet]
    · split
      · simp [slotGet]
      · rename_i h1 h2
        simp [slotGet, Ne.symm h2, ih]

theorem skipShift_shiftLeft (a : Nat) : a <<< Config.skipShift = 64 * a := by
  simp only [Config.skipShift, Nat.shiftLeft_eq]; omega

theorem skipShift_shiftRight (a : Nat) : a >>> Config.skipShift = a / 64 := by
  simp [Config.skipShift, Nat.shiftRight_eq_div_pow]

/-- The integer PROBE_LIMIT and the margin the model adds to the other side (log 32). -/
theorem probeLimit_lt (v : Config.Variant) (n x : Nat) : probeLimit v n < (x : Int) ↔ n < x + probeMargin v := by
  cases v <;> simp [probeLimit, probeMargin, Config.mfLimit] <;> omega

theorem matchMargin_eq (v : Config.Variant) (mlf : Nat) : matchMargin v mlf = matchMarginTerm v mlf := by
  cases v <;> simp [matchMargin, matchMarginTerm, Nat.shiftRight_eq_div_pow]

theorem sourceSlice_eq (ch : Chunk) (a b : Nat) :
    sourceSlice ch a b = (List.range (b - a)).map (fun j => ch.bytes (ch.sb + (a + j))) := by
  unfold sourceSlice; apply List.ext_getElem <;> simp

/-- A token byte's low nibble is filled in by an or (R184). -/
theorem tokenByte_or (a b : Nat) (ha : a ≤ 15) (hb : b ≤ 15) : tokenByte a 0 ||| BitVec.ofNat 8 b = tokenByte a b := by
  have h : ∀ a b : Fin 16, tokenByte a.1 0 ||| BitVec.ofNat 8 b.1 = tokenByte a.1 b.1 := by decide
  exact h ⟨a, by omega⟩ ⟨b, by omega⟩

/-- Changing the byte at the end of a prefix. -/
theorem modify_append_cons (pre l : List Byte) (f : Byte → Byte) (b : Byte) :
    (pre ++ b :: l).modify pre.length f = pre ++ f b :: l := by
  induction pre with
  | nil => rfl
  | cons x xs ih => simp [List.modify_succ_cons, ih]

theorem probeMargin_ge (v : Config.Variant) : 11 ≤ probeMargin v ∧ probeMargin v ≤ 12 := by cases v <;> decide

/-! ### What a step can do -/

/-- A probe ends the search, accepts its position or goes on to the next (R141). -/
theorem probe_cases (ch : Chunk) (e : Engine) :
    (ch.n < e.fwd + e.step + probeMargin ch.params.variant ∧ probe ch e = { advance e with phase := .lastLiterals }) ∨
    (e.fwd + e.step + probeMargin ch.params.variant ≤ ch.n ∧
      ((∃ ht c, probe ch e = { advance e with phase := .catchUp, c := c, ht := ht }) ∨
        (∃ ht c, probe ch e = { advance e with phase := .seekMatch, c := c, ht := ht }))) := by
  unfold probe pastProbeLimit
  by_cases h : ch.n < (advance e).fwd + probeMargin ch.params.variant
  · left; exact ⟨h, by simp [h]⟩
  · right
    refine ⟨by simpa [advance] using h, ?_⟩
    simp only [h, decide_false, Bool.false_eq_true, if_false]
    split
    · exact .inl ⟨_, _, rfl⟩
    · exact .inr ⟨_, _, rfl⟩

/-- Where a probe lies and what it leaves of the schedule, however it ends (R141). -/
theorem probe_schedule (ch : Chunk) (e : Engine) : (probe ch e).p = e.fwd ∧ (probe ch e).fwd = e.fwd + e.step ∧
    (probe ch e).step = e.nb / 64 ∧ (probe ch e).nb = e.nb + 1 := by
  rcases probe_cases ch e with ⟨-, h⟩ | ⟨-, ⟨ht, c, h⟩ | ⟨ht, c, h⟩⟩ <;> rw [h] <;>
    simp [advance, skipShift_shiftRight]

/-- EncodeLiterals overflows, or appends one token byte with its ext and literals. -/
theorem stepEncodeLiterals_cases {ch : Chunk} {e e' : Engine} (h : stepEncodeLiterals ch e = .running e') :
    ∃ bs, e.out.length + bs.length ≤ ch.cap ∧
      e' = { e with phase := .encodeMatch, tokpos := e.out.length, out := e.out ++ bs } := by
  unfold stepEncodeLiterals at h
  simp only at h
  split at h
  · cases h
  · split at h
    · cases h
    · rename_i e1 he
      obtain ⟨hle, rfl⟩ := emit_eq_some.1 he
      cases h
      exact ⟨_, hle, rfl⟩

/-- EncodeMatch overflows, or moves the cursor and the anchor past the match. -/
theorem stepEncodeMatch_cases {ch : Chunk} {e e' : Engine} (h : stepEncodeMatch ch e = .running e') :
    ∃ out ip, ip = e.p + (4 + countMatch ch e.p e.c) ∧ out.length ≤ ch.cap ∧
      e' = { e with out := out, k := countMatch ch e.p e.c, ip := ip, anchor := ip,
                    phase := if pastMatchEnd ch ip then .lastLiterals else .nextMatch } := by
  unfold stepEncodeMatch at h
  split at h
  · cases h
  · rename_i e1 he1
    obtain ⟨-, rfl⟩ := emit_eq_some.1 he1
    simp only at h
    split at h
    · cases h
    · split at h
      · cases h
      · rename_i e4 he4
        obtain ⟨hle, rfl⟩ := emit_eq_some.1 he4
        cases h
        exact ⟨_, _, rfl, by simpa using hle, rfl⟩

/-- NextMatch overflows, chains a match at the cursor, or seeks from the position after it. -/
theorem stepNextMatch_cases {ch : Chunk} {e e' : Engine} (h : stepNextMatch ch e = .running e') :
    ∃ c ht, (e.out.length + 1 ≤ ch.cap ∧
        e' = { e with c := c, ht := ht, tokpos := e.out.length, out := e.out ++ [0#8], p := e.ip, phase := .encodeMatch }) ∨
      e' = beginSeek ch (e.ip + 1) { e with c := c, ht := ht } := by
  unfold stepNextMatch at h
  simp only at h
  split at h
  · split at h
    · cases h
    · rename_i e2 he2
      obtain ⟨hle, rfl⟩ := emit_eq_some.1 he2
      cases h
      exact ⟨_, _, .inl ⟨by simpa [exchange] using hle, rfl⟩⟩
  · cases h
    exact ⟨_, _, .inr rfl⟩

/-- LastLiterals never goes on. -/
theorem stepLastLiterals_not_running {ch : Chunk} {e e' : Engine} : stepLastLiterals ch e ≠ .running e' := by
  unfold stepLastLiterals
  split
  · simp
  · simp only
    split
    · simp
    · split <;> simp

/-! ### The output stays within the capacity (R183) -/

theorem engineStep_running_cap {ch : Chunk} {e e' : Engine} (h : engineStep ch e = .running e') (hc : e.out.length ≤ ch.cap) :
    e'.out.length ≤ ch.cap := by
  unfold engineStep at h
  split at h
  · cases h
    rcases probe_cases ch e with ⟨-, h⟩ | ⟨-, ⟨ht, c, h⟩ | ⟨ht, c, h⟩⟩ <;> rw [h] <;> exact hc
  · unfold stepCatchUp at h; cases h; exact hc
  · obtain ⟨bs, hle, rfl⟩ := stepEncodeLiterals_cases h; simpa using hle
  · obtain ⟨out, ip, -, hle, rfl⟩ := stepEncodeMatch_cases h; exact hle
  · obtain ⟨c, ht, ⟨hle, rfl⟩ | rfl⟩ := stepNextMatch_cases h
    · simpa using hle
    · exact hc
  · exact absurd h stepLastLiterals_not_running
  · cases h

theorem engineStep_finished_cap {ch : Chunk} {e e' : Engine} {k : Nat} (h : engineStep ch e = .finished e' k)
    (hc : e.out.length ≤ ch.cap) : e'.out.length ≤ ch.cap := by
  unfold engineStep at h
  split at h
  · cases h
  · unfold stepCatchUp at h; cases h
  · unfold stepEncodeLiterals at h; simp only at h; split at h <;> [cases h; (split at h <;> cases h)]
  · unfold stepEncodeMatch at h; split at h
    · cases h
    · simp only at h; split at h <;> [cases h; (split at h <;> cases h)]
  · unfold stepNextMatch at h; simp only at h; split at h <;> [(split at h <;> cases h); cases h]
  · unfold stepLastLiterals at h
    split at h
    · cases h; exact hc
    · simp only at h
      split at h
      · cases h
      · split at h
        · cases h
        · rename_i e1 he
          obtain ⟨hle, rfl⟩ := emit_eq_some.1 he
          cases h
          simpa using hle
  · cases h; exact hc

theorem engineRun_cap {ch : Chunk} {fuel k : Nat} {e e' : Engine} (h : engineRun ch fuel e = .finished e' k)
    (hc : e.out.length ≤ ch.cap) : e'.out.length ≤ ch.cap := by
  induction fuel generalizing e with
  | zero => cases h
  | succ fuel ih =>
    simp only [engineRun] at h
    split at h
    · rename_i e1 hs; exact ih h (engineStep_running_cap hs hc)
    · rename_i e1 k1 hs; cases h; exact engineStep_finished_cap hs hc
    · cases h

/-- A chunk's output fits its capacity. -/
theorem runEngine_cap {ch : Chunk} {k : Nat} {e e' : Engine} (h : runEngine ch e = .finished e' k) :
    e'.out.length ≤ ch.cap := by
  refine engineRun_cap h ?_
  unfold engineEntry
  simp only
  split <;> simp [beginSeek]

/-! ### Every run ends (R112) -/

/-- What a chunk's engine state satisfies between steps, enough to see that it moves on. -/
def EngineMoves (ch : Chunk) (e : Engine) : Prop :=
  e.anchor ≤ ch.n ∧
  match e.phase with
  | .seekMatch => e.anchor ≤ e.fwd ∧ 1 ≤ e.step ∧ 64 ≤ e.nb
  | .catchUp => e.anchor ≤ e.p ∧ e.p + 11 ≤ ch.n
  | .encodeLiterals => e.anchor ≤ e.p ∧ e.p + 11 ≤ ch.n
  | .encodeMatch => e.anchor ≤ e.p ∧ e.p + 11 ≤ ch.n
  | .nextMatch => e.anchor = e.ip ∧ e.ip + 12 ≤ ch.n
  | .lastLiterals => True
  | .done => True

/-- What is left to do in a phase. -/
def phaseRank (ch : Chunk) (e : Engine) : Nat :=
  match e.phase with
  | .seekMatch => ch.n + 2 - e.fwd + 4
  | .catchUp => 4
  | .encodeLiterals => 3
  | .encodeMatch => 2
  | .nextMatch => ch.n + 7
  | .lastLiterals => 1
  | .done => 0

/-- A count that every engine step lowers. -/
def engineRank (ch : Chunk) (e : Engine) : Nat := (ch.n + 1 - e.anchor) * (ch.n + 8) + phaseRank ch e

theorem accel_shift {a : Nat} (h : 1 ≤ a) : 64 ≤ a <<< Config.skipShift := by
  simp only [Config.skipShift, Nat.shiftLeft_eq]; omega

/-- Each step keeps `EngineMoves` and lowers the rank. -/
theorem engineStep_moves {ch : Chunk} {e e' : Engine} (ha : 1 ≤ ch.accel) (hm : EngineMoves ch e)
    (h : engineStep ch e = .running e') : EngineMoves ch e' ∧ engineRank ch e' < engineRank ch e := by
  obtain ⟨hn, hm⟩ := hm
  unfold engineStep at h
  split at h
  · rename_i hp
    simp only [hp] at hm
    obtain ⟨h1, h2, h3⟩ := hm
    have hpm := probeMargin_ge ch.params.variant
    have hnb : 1 ≤ e.nb >>> Config.skipShift := by
      simp only [Config.skipShift, Nat.shiftRight_eq_div_pow]; omega
    cases h
    rcases probe_cases ch e with ⟨-, h⟩ | ⟨hle, ⟨ht, c, h⟩ | ⟨ht, c, h⟩⟩ <;> rw [h] <;>
      simp only [EngineMoves, engineRank, phaseRank, advance, hp] <;>
      refine ⟨⟨hn, ?_⟩, ?_⟩ <;> first | trivial | omega
  · rename_i hp
    simp only [hp] at hm
    unfold stepCatchUp at h
    cases h
    obtain ⟨d, h1, h2, h3⟩ := catchUpLoop_spec ch e.anchor (catchUpLow ch e.c) e.p e.c
    simp only [EngineMoves, engineRank, phaseRank, hp]
    have := h3 hm.1
    exact ⟨⟨hn, by omega, by omega⟩, by omega⟩
  · rename_i hp
    simp only [hp] at hm
    obtain ⟨bs, -, rfl⟩ := stepEncodeLiterals_cases h
    simp only [EngineMoves, engineRank, phaseRank, hp]
    exact ⟨⟨hn, hm⟩, by omega⟩
  · rename_i hp
    simp only [hp] at hm
    obtain ⟨out, ip, hip, -, rfl⟩ := stepEncodeMatch_cases h
    have hk := countMatch_le ch e.p e.c
    have hmul : (ch.n + 1 - ip) * (ch.n + 8) + (ch.n + 8) ≤ (ch.n + 1 - e.anchor) * (ch.n + 8) := by
      have : ch.n + 1 - ip + 1 ≤ ch.n + 1 - e.anchor := by omega
      calc (ch.n + 1 - ip) * (ch.n + 8) + (ch.n + 8) = (ch.n + 1 - ip + 1) * (ch.n + 8) := by ring
        _ ≤ _ := Nat.mul_le_mul_right _ this
    cases hpast : pastMatchEnd ch ip
    · have hle : ip + 12 ≤ ch.n := by
        have := of_decide_eq_false hpast
        simp only [Config.mfLimit] at this; omega
      simp only [EngineMoves, engineRank, phaseRank, hp, Bool.false_eq_true, if_false]
      exact ⟨⟨by omega, trivial, hle⟩, by omega⟩
    · simp only [EngineMoves, engineRank, phaseRank, hp, if_true]
      exact ⟨⟨by omega, trivial⟩, by omega⟩
  · rename_i hp
    simp only [hp] at hm
    obtain ⟨c, ht, ⟨-, rfl⟩ | rfl⟩ := stepNextMatch_cases h
    · simp only [EngineMoves, engineRank, phaseRank, hp]
      exact ⟨⟨hn, by omega, by omega⟩, by omega⟩
    · simp only [EngineMoves, engineRank, phaseRank, hp, beginSeek]
      exact ⟨⟨hn, by omega, by omega, accel_shift ha⟩, by omega⟩
  · exact absurd h stepLastLiterals_not_running
  · cases h

/-- With more fuel than the rank, the run ends. -/
theorem engineRun_ends {ch : Chunk} (ha : 1 ≤ ch.accel) {fuel : Nat} {e : Engine} (hm : EngineMoves ch e)
    (hf : engineRank ch e < fuel) (e' : Engine) : engineRun ch fuel e ≠ .unfinished e' := by
  induction fuel generalizing e with
  | zero => omega
  | succ fuel ih =>
    simp only [engineRun]
    split
    · rename_i e1 hs
      obtain ⟨hm1, hr⟩ := engineStep_moves ha hm hs
      exact ih hm1 (by omega)
    · simp
    · simp

/-- A chunk's run ends. -/
theorem runEngine_ends {ch : Chunk} (ha : 1 ≤ ch.accel) (e e' : Engine) : runEngine ch e ≠ .unfinished e' := by
  refine engineRun_ends ha ?_ ?_ e'
  · unfold engineEntry
    simp only
    split
    · exact ⟨by simp, trivial⟩
    · exact ⟨by simp [beginSeek], by simp [beginSeek], by simp [beginSeek], by simpa [beginSeek] using accel_shift ha⟩
  · have hmul : (ch.n + 2) * (ch.n + 8) = (ch.n + 1) * (ch.n + 8) + (ch.n + 8) := by ring
    unfold engineEntry engineFuel
    simp only
    split
    · simp only [engineRank, phaseRank, Nat.sub_zero]; omega
    · simp only [engineRank, phaseRank, beginSeek, put_ht_only, Nat.sub_zero]; omega

/-! ### The wrapper -/

/-- The stream a COMPRESS makes fits its capacity. -/
theorem chunkLoop_cap {P : Config.Params} {S D : List Byte} {dm : DictMode} {accel cape fuel pos : Nat}
    {out out' : List Byte} {e e' : Engine} {w : Wrapper}
    (h : chunkLoop P S D dm accel cape fuel pos out e = .stream out' e' w) (hc : out.length ≤ cape) :
    out'.length ≤ cape := by
  induction fuel generalizing pos out e with
  | zero => cases h
  | succ fuel ih =>
    simp only [chunkLoop] at h
    split at h
    · cases h
    · cases h
    · rename_i e1 consumed hrun
      have hle : e1.out.length ≤ cape - out.length := runEngine_cap hrun
      split at h
      · split at h
        · cases h
        · cases h; rw [List.length_append]; omega
      · split at h
        · cases h
        · split at h
          · cases h
          · exact ih h (by rw [List.length_append]; omega)

theorem chunkCompress_cap {P : Config.Params} {S D : List Byte} {dm : DictMode} {accel cape : Nat}
    {out : List Byte} {e e' : Engine} {w : Wrapper} (h : chunkCompress P S D dm accel cape e = .stream out e' w) :
    out.length ≤ cape := chunkLoop_cap h (by simp)

/-- The wrapper's rounds end. -/
theorem chunkLoop_ends {P : Config.Params} {S D : List Byte} {dm : DictMode} {accel cape fuel pos : Nat}
    {out : List Byte} {e : Engine} (ha : 1 ≤ accel) (hf : S.length - pos < fuel) (e' : Engine) (w : Wrapper) :
    chunkLoop P S D dm accel cape fuel pos out e ≠ .unfinished e' w := by
  induction fuel generalizing pos out e with
  | zero => omega
  | succ fuel ih =>
    simp only [chunkLoop]
    split
    · rename_i e1 hrun; exact absurd hrun (runEngine_ends (by exact ha) _ _)
    · simp
    · rename_i e1 consumed hrun
      split
      · split <;> simp
      · split
        · simp
        · split
          · simp
          · exact ih (by simp_all; omega)

theorem chunkCompress_ends {P : Config.Params} {S D : List Byte} {dm : DictMode} {accel cape : Nat} {e : Engine}
    (ha : 1 ≤ accel) (e' : Engine) (w : Wrapper) : chunkCompress P S D dm accel cape e ≠ .unfinished e' w :=
  chunkLoop_ends ha (by omega) e' w

end Sys2Proof.Machine
end

