-- ==== Sys2Proof/Laws/Commands.lean ====
section
/-! SUPPORT. Commands and the step: the two halves of a command's meaning, what `Start` and `Complete` can answer, and what
one move of the machine can do. -/

namespace Sys2Proof.Machine

/-! ### Words and forms -/

/-- The word of a command (R73). -/
def wordOf : Op → DictMode → Word
  | .compress, .noDict => 0x01#64
  | .compress, .withPrefix64k => 0x11#64
  | .compress, .usingExtDict => 0x21#64
  | .decompress, .noDict => 0x02#64
  | .decompress, .withPrefix64k => 0x12#64
  | .decompress, .usingExtDict => 0x22#64

@[simp] theorem decodeFields_wordOf (op : Op) (d : DictMode) : decodeFields (wordOf op d) = .ok (op, d) := by
  cases op <;> cases d <;> decide

/-- The three instances of a form are `commandOf` with its word. -/
theorem commandForm_iff {i : Instr} {op : Op} {d : DictMode} {w : Word} :
    CommandForm i op d w ↔ i = commandOf op d ∧ w = wordOf op d := by
  cases op <;> cases d <;> simp [CommandForm, CompressForm, DecompressForm, commandOf, wordOf]

theorem compressForm_iff {i : Instr} {d : DictMode} {w : Word} :
    CompressForm i d w ↔ i = commandOf .compress d ∧ w = wordOf .compress d := by
  cases d <;> simp [CompressForm, commandOf, wordOf]

theorem decompressForm_iff {i : Instr} {d : DictMode} {w : Word} :
    DecompressForm i d w ↔ i = commandOf .decompress d ∧ w = wordOf .decompress d := by
  cases d <;> simp [DecompressForm, commandOf, wordOf]

/-- `Complete` of a command (R94). -/
def complete (op : Op) (d : DictMode) (s : State) : Host.Outcome State Fault Refusal :=
  match op with
  | .compress => completeCompress d s
  | .decompress => completeDecompress d s

/-- A command's meaning: `Complete` while BUSY, `Start` while idle. -/
theorem exec_commandOf (op : Op) (d : DictMode) (s : State) :
    exec (commandOf op d) s = if s.busy then complete op d s else .next (startCommand op d (wordOf op d) s) := by
  cases op <;> cases d <;> rfl

/-! ### Start -/

theorem checkCommand_none {op : Op} {d : DictMode} {l : Latch} (h : checkCommand op d l = none) :
    rangesInSpace op d l = true ∧ rangesApart op d l = true ∧
      (op = .compress → d ≠ .noDict → l.srcLen.toNat ≤ Config.hw.chunkMax) := by
  unfold checkCommand at h
  split at h
  · cases h
  · rename_i h1
    split at h
    · cases h
    · rename_i h2
      simp only [Bool.not_eq_true', Bool.and_eq_false_iff, not_or, Bool.not_eq_false] at h1
      refine ⟨h1.1, h1.2, fun ho hd => ?_⟩
      simp only [ho, decide_true, hd, ne_eq, not_false_eq_true, Bool.true_and, decide_eq_true_eq, Nat.not_lt] at h2
      simpa using h2

theorem startCommand_cases (op : Op) (d : DictMode) (w : Word) (s : State) :
    (checkCommand op d (latchOf w s) = none ∧ startCommand op d w s = beginCommand (latchOf w s) s) ∨
    ∃ e, checkCommand op d (latchOf w s) = some e ∧ startCommand op d w s = endWithError e 0 s := by
  unfold startCommand
  cases h : checkCommand op d (latchOf w s) with
  | none => exact .inl ⟨rfl, rfl⟩
  | some e => exact .inr ⟨e, rfl, rfl⟩

/-! ### Complete -/

/-- On a build whose chunks are longer than the tail limit every round makes progress or fails (R206). -/
theorem chunkLoop_progress {P : Config.Params} (hP : P.chunkTail ≤ P.chunkMax) {S D : List Byte} {dm : DictMode}
    {accel cape fuel pos : Nat} {out : List Byte} {e : Engine} (e' : Engine) (w : Wrapper) :
    chunkLoop P S D dm accel cape fuel pos out e ≠ .noProgress e' w := by
  induction fuel generalizing pos out e with
  | zero => simp [chunkLoop]
  | succ fuel ih =>
    simp only [chunkLoop]
    split
    · simp
    · simp
    · split
      · split <;> simp
      · rename_i hfin
        split
        · simp
        · rename_i htail
          split
          · rename_i h0
            simp only [decide_eq_true_eq, Nat.not_le] at hfin
            exact absurd (by omega) htail
          · exact ih

theorem chunkCompress_hw_progress {S D : List Byte} {dm : DictMode} {accel cape : Nat} {e : Engine} (e' : Engine)
    (w : Wrapper) : chunkCompress Config.hw S D dm accel cape e ≠ .noProgress e' w :=
  chunkLoop_progress (by decide) e' w

/-- What `Complete` of a COMPRESS can answer: the stream written, or an error with the write range alone unspecified
(R94, R98). -/
theorem completeCompress_cases {d : DictMode} {s : State} (hs : rangesInSpace .compress d s.latch = true) :
    (∃ out e w, compressRun d s = .stream out e w ∧ out.length ≤ capacity .compress s.latch ∧
      completeCompress d s = .next (endOk out.length
        { s with dm := (compressDict Config.hw d s.latch s.mem).1, engine := e, wrapper := w,
                 mem := writeBytes s.mem s.latch.dstAddr.toNat out })) ∨
    (∃ err e w, compressRun d s = .raised err e w ∧
      completeCompress d s = .next (endWithError err 0
        { s with dm := (compressDict Config.hw d s.latch s.mem).1, engine := e, wrapper := w,
                 mem := fillFree s.mem s.latch.dstAddr.toNat (capacity .compress s.latch) s.draws,
                 draws := s.draws + capacity .compress s.latch })) := by
  simp only [completeCompress, hs, if_true]
  cases h : compressRun d s with
  | stream out e w => exact .inl ⟨out, e, w, rfl, chunkCompress_cap h, rfl⟩
  | raised err e w => exact .inr ⟨err, e, w, rfl, rfl⟩
  | noProgress e w => exact absurd h (chunkCompress_hw_progress e w)
  | unfinished e w => exact absurd h (chunkCompress_ends (Nat.le_max_right _ _) e w)

/-! ### One move of the machine -/

theorem decodeCommand_ok {w : Word} {i : Instr} (h : decodeCommand w = .ok i) :
    ∃ op d, decodeFields w = .ok (op, d) ∧ i = commandOf op d := by
  unfold decodeCommand at h
  cases hf : decodeFields w with
  | error e => rw [hf] at h; cases h
  | ok p => rw [hf] at h; cases h; exact ⟨p.1, p.2, rfl, rfl⟩

/-- What the core's turn does (R94). -/
theorem coreTurn_cases {s t : State} (h : coreTurn s = .next t) :
    (s.busy = false ∧ t = s) ∨
    ∃ op d, s.busy = true ∧ decodeFields s.latch.word = .ok (op, d) ∧ complete op d s = .next t := by
  unfold coreTurn at h
  split at h
  · rename_i hb
    cases hd : decodeCommand s.latch.word with
    | error e => rw [hd] at h; cases h
    | ok i =>
      rw [hd] at h
      obtain ⟨op, d, hf, rfl⟩ := decodeCommand_ok hd
      simp only [exec_commandOf, hb, if_true] at h
      exact .inr ⟨op, d, hb, hf, h⟩
  · rename_i hb
    cases h
    exact .inl ⟨by simpa using hb, rfl⟩

/-- What a register write does (R92, R93). -/
theorem busRegWrite_cases {off : Nat} {v : Word} {s t : State} (h : busRegWrite off v s = .next t) :
    (s.busy = true ∧ t = s) ∨ (s.busy = false ∧ off ≠ 0 ∧ t = regWrite s off v) ∨
    (s.busy = false ∧ off = 0 ∧ t = startIllegal s) ∨
    ∃ op d, s.busy = false ∧ off = 0 ∧ decodeFields v = .ok (op, d) ∧ t = startCommand op d (wordOf op d) s := by
  unfold busRegWrite at h
  split at h
  · rename_i hb; cases h; exact .inl ⟨hb, rfl⟩
  · rename_i hb
    have hb : s.busy = false := by simpa using hb
    split at h
    · rename_i ho
      unfold writeCommand at h
      cases hd : decodeCommand v with
      | error e => rw [hd] at h; cases h; exact .inr (.inr (.inl ⟨hb, ho, rfl⟩))
      | ok i =>
        rw [hd] at h
        obtain ⟨op, d, hf, rfl⟩ := decodeCommand_ok hd
        simp only [exec_commandOf, hb] at h
        cases h
        exact .inr (.inr (.inr ⟨op, d, hb, ho, hf, rfl⟩))
    · rename_i ho; cases h; exact .inr (.inl ⟨hb, ho, rfl⟩)

/-- What a host move does when it goes on. -/
theorem hostMove_cases {m : HostMove} {s t : State} (h : hostMove m s = .next t) :
    (∃ v, t = { s with readData := v }) ∨
    (∃ a b, m = .memWrite a b ∧ ownedForWrite s a.toNat = false ∧ t = { s with mem := writeByte s.mem a.toNat b }) ∨
    (∃ off width v, m = .regWrite off width v ∧ busRegWrite off v s = .next t) ∨
    (m = .wait ∧ coreTurn s = .next t) ∨ (m = .reset ∧ t = resetEvent s) := by
  cases m with
  | regRead off width =>
    simp only [hostMove] at h
    split at h
    · cases h
    · cases h; exact .inl ⟨_, rfl⟩
  | regWrite off width v =>
    simp only [hostMove] at h
    split at h
    · cases h
    · exact .inr (.inr (.inl ⟨off, width, v, rfl, h⟩))
  | memRead a =>
    simp only [hostMove] at h
    split at h
    · cases h
    · cases h; exact .inl ⟨_, rfl⟩
  | memWrite a b =>
    simp only [hostMove] at h
    split at h
    · cases h
    · rename_i ho; cases h; exact .inr (.inl ⟨a, b, rfl, by simpa using ho, rfl⟩)
  | wait => exact .inr (.inr (.inr (.inl ⟨rfl, h⟩)))
  | reset => cases h; exact .inr (.inr (.inr (.inr ⟨rfl, rfl⟩)))

/-- A step is the core's turn or the host's oldest move. -/
theorem step_cases (s : State) :
    (s.host = [] ∧ step s = coreTurn s) ∨
    ∃ m rest, s.host = m :: rest ∧ step s = hostMove m { s with host := rest } := by
  unfold step machineStep
  cases h : s.host with
  | nil => exact .inl ⟨rfl, rfl⟩
  | cons m rest => exact .inr ⟨m, rest, rfl, rfl⟩

end Sys2Proof.Machine
end

