-- ==== Sys2Proof/Laws/PerInstr.lean ====
section
/-! SUPPORT. A fact of every instruction, one lemma each: its encoding has the number of bytes the spec gives it
(30_encoding.md R74, 43_varint_token.md R167). -/

namespace Sys2Proof.Laws.EncodedSize
open Sys2Proof

/-- The encoding of `i` has `encodedSize i` bytes. -/
def Statement (i : Instr) : Prop := (encode i).length = encodedSize i

theorem compress : Statement .compress := rfl
theorem compressPrefix : Statement .compressPrefix := rfl
theorem compressExtdict : Statement .compressExtdict := rfl
theorem decompress : Statement .decompress := rfl
theorem decompressPrefix : Statement .decompressPrefix := rfl
theorem decompressExtdict : Statement .decompressExtdict := rfl
theorem tokenSeq (lits : List Byte) (off : BitVec 16) (mlf : Nat) : Statement (.tokenSeq lits off mlf) :=
  encodeToken_length (.seq lits off mlf)
theorem tokenLast (mln : BitVec 4) (lits : List Byte) : Statement (.tokenLast mln lits) :=
  encodeToken_length (.last mln lits)

end Sys2Proof.Laws.EncodedSize
end

