-- ==== Sys2Proof/Tests/Slice0.lean ====
section
/-! SUPPORT. The model's own tests: WellFormed refuses ill-formed terms, words written out of the spec decode to what they
stand for, a step or two of every instruction against the vectors of 95_test_vectors.md, and for every statement with
hypotheses a state and operands that meet them. -/

namespace Sys2Proof.Tests
open Sys2Proof Sys2Proof.Machine

/-! ## Small states -/

/-- Source at 0x1000, destination at 0x2000, an external dictionary at 0x3000 and a copy of it below the source and below
the destination, in memory and in the registers. -/
def loaded (src dict : List Byte) (cap : Word) : State :=
  { State.reset with
    srcAddr := 0x1000, srcLen := BitVec.ofNat 64 src.length, dstAddr := 0x2000, dstCap := cap,
    dictAddr := 0x3000, dictLen := BitVec.ofNat 64 dict.length,
    mem := writeBytes (writeBytes (writeBytes (writeBytes [] 0x1000 src) (0x1000 - dict.length) dict)
      (0x2000 - dict.length) dict) 0x3000 dict }

/-- A state in which `Start` has accepted word w. -/
def started (w : Word) (s : State) : State := beginCommand (latchOf w s) s

/-- The state a step answers; the given one where it stops. -/
def after (o : Host.Outcome State Fault Refusal) (s : State) : State :=
  match o with
  | .next t => t
  | .fault _ => s
  | .refused _ => s

/-- A step answers a next state. -/
def goesOn (o : Host.Outcome State Fault Refusal) : Bool :=
  match o with
  | .next _ => true
  | .fault _ => false
  | .refused _ => false

theorem next_of_goesOn {o : Host.Outcome State Fault Refusal} (s : State) (h : goesOn o = true) : o = .next (after o s) := by
  cases o with
  | next t => rfl
  | fault r => cases h
  | refused r => cases h

/-- STATUS, RESULT_LEN and the first `n` bytes at 0x2000 after a step; none where it stops. -/
def result (n : Nat) (o : Host.Outcome State Fault Refusal) : Option (Word × Word × List Byte) :=
  match o with
  | .next t => some (t.status, t.resultLen, readBytes t.mem 0x2000 n)
  | .fault _ => none
  | .refused _ => none

/-- "a" 20 times. -/
def as20 : List Byte := List.replicate 20 0x61#8
/-- V1's stream of it. -/
def v1 : List Byte := [0x1A#8, 0x61#8, 0x01#8, 0x00#8, 0x50#8, 0x61#8, 0x61#8, 0x61#8, 0x61#8, 0x61#8]
/-- "0123456K", V22's dictionary. -/
def dict22 : List Byte := [0x30#8, 0x31#8, 0x32#8, 0x33#8, 0x34#8, 0x35#8, 0x36#8, 0x4B#8]
/-- "LMNOPKLMNOPQRSTUVWXYZ", V22's source. -/
def src22 : List Byte := [0x4C#8, 0x4D#8, 0x4E#8, 0x4F#8, 0x50#8, 0x4B#8, 0x4C#8, 0x4D#8, 0x4E#8, 0x4F#8, 0x50#8, 0x51#8,
  0x52#8, 0x53#8, 0x54#8, 0x55#8, 0x56#8, 0x57#8, 0x58#8, 0x59#8, 0x5A#8]

/-! ## WellFormed refuses ill-formed terms -/

/-- A sequence token with offset 0 (R79). -/
theorem test_illformed_zero_offset : wellFormed (.tokenSeq [0x61#8] 0#16 10) = false := by decide
/-- A sequence token of more than 2^64 bytes (R24). -/
theorem test_illformed_seq_too_long : wellFormed (.tokenSeq [] 1#16 (2 ^ 80)) = false := by decide
/-- A last token of 2^64 bytes or more (R24). -/
theorem test_illformed_last_too_long (lits : List Byte) (h : 2 ^ 64 ≤ lits.length) : wellFormed (.tokenLast 0#4 lits) = false := by
  have h : ¬ tokenSize (.last 0#4 lits) < Config.addrSpace := by
    simp only [tokenSize, Config.addrSpace]; omega
  simp only [wellFormed, Token.fits, h, decide_false]
/-- Offsets 1 and 65535 and a length of two ext bytes are well-formed. -/
theorem test_wellformed_seq : wellFormed (.tokenSeq [] 1#16 300) = true ∧ wellFormed (.tokenSeq [0#8] 0xFFFF#16 0) = true := by
  decide

/-! ## Decoding: words from R73 and R172 -/

theorem test_decode_compress : decodeTableWord 64 0x0000000000000001 = some .compress := by decide
theorem test_decode_compressPrefix : decodeTableWord 64 0x0000000000000011 = some .compressPrefix := by decide
theorem test_decode_compressExtdict : decodeTableWord 64 0x0000000000000021 = some .compressExtdict := by decide
theorem test_decode_decompress : decodeTableWord 64 0x0000000000000002 = some .decompress := by decide
theorem test_decode_decompressPrefix : decodeTableWord 64 0x0000000000000012 = some .decompressPrefix := by decide
theorem test_decode_decompressExtdict : decodeTableWord 64 0x0000000000000022 = some .decompressExtdict := by decide
/-- Reserved OP 3, reserved DICT 3, and a set bit in [63:6] (R70 to R72). -/
theorem test_decode_reserved : decodeCommand 0x03#64 = .error .reservedOp ∧ decodeCommand 0x31#64 = .error .reservedDict ∧
    decodeCommand 0x41#64 = .error .reservedBits ∧ decodeCommand 0x8000000000000001#64 = .error .reservedBits := by decide
/-- R172: EmitSeq(1, "a", 1, 10) = 1A 61 01 00. -/
theorem test_decode_tokenSeq : decodeToken [0x1A#8, 0x61#8, 0x01#8, 0x00#8, 0x50#8] = .ok (.seq [0x61#8] 1#16 10, [0x50#8]) := by
  decide
/-- R172: EmitSeq(1, "a", 1, 290) = 1F 61 01 00 FF 14. -/
theorem test_encode_tokenSeq : encodeToken (.seq [0x61#8] 1#16 290) = [0x1F#8, 0x61#8, 0x01#8, 0x00#8, 0xFF#8, 0x14#8] := by
  decide
/-- R172: EmitLast(5, "aaaaa") = 50 61 61 61 61 61; R222: MLN is not read. -/
theorem test_decode_tokenLast : decodeToken [0x50#8, 0x61#8, 0x61#8, 0x61#8, 0x61#8, 0x61#8] =
    .ok (.last 0#4 (List.replicate 5 0x61#8), []) ∧ decodeToken [0x1F#8, 0x61#8] = .ok (.last 15#4 [0x61#8], []) := by decide
/-- R238: streams that end inside a token. -/
theorem test_decode_cut : decodeToken [] = .error .noToken ∧ decodeToken [0xF0#8, 0xFF#8] = .error (.literalExtCut 0xF0#8) ∧
    decodeToken [0x30#8, 0x61#8, 0x62#8] = .error (.literalsCut 0x30#8 3) ∧
    decodeToken [0x10#8, 0x61#8, 0x01#8] = .error (.offsetCut 0x10#8 [0x61#8]) ∧
    decodeToken [0x1F#8, 0x61#8, 0x01#8, 0x00#8] = .error (.matchExtCut 0x1F#8 [0x61#8] 1#16) := by decide

/-! ## Start -/

/-- V31 before its Complete: after reset a CMD write of 0x01 sets BUSY. -/
theorem test_start_after_reset : result 0 (step { State.reset with host := [.regWrite 0 64 0x01#64] }) =
    some (1#64, 0#64, []) := by decide
/-- R247: CMD 0x03 gives STATUS 0x506. -/
theorem test_start_illegal : result 0 (step { State.reset with host := [.regWrite 0 64 0x03#64] }) =
    some (0x506#64, 0#64, []) := by decide
/-- R248: source 0x1000 +0x100, destination 0x1080 +0x100 give STATUS 0x606. -/
theorem test_start_badRegion : result 0 (exec .compress
    { State.reset with srcAddr := 0x1000, srcLen := 0x100, dstAddr := 0x1080, dstCap := 0x100 }) =
    some (0x606#64, 0#64, []) := by decide
/-- R242: COMPRESS.EXTDICT with SRC_LEN 0x7ffff001 gives STATUS 0x106. -/
theorem test_start_inputTooLarge : result 0 (exec .compressExtdict
    { State.reset with srcLen := 0x7ffff001, dstAddr := 0x100000000 }) = some (0x106#64, 0#64, []) := by decide
/-- A placed word runs as the first instruction after reset, and a placed token byte as a whole stream. -/
theorem test_withFetchWord : result 0 (step (State.reset.withFetchWord 64 0x21)) = some (1#64, 0#64, []) ∧
    result 0 (step (State.reset.withFetchWord 8 0x00)) = some (2#64, 0#64, []) := by decide +kernel

/-! ## COMPRESS -/

/-- V31: the run after reset writes 00 at address 0. -/
theorem test_compress_reset : (match exec .compress (started 0x01 State.reset) with
    | .next t => some (t.status, t.resultLen, readBytes t.mem 0 1)
    | .fault _ => none
    | .refused _ => none) = some (2#64, 1#64, [0x00#8]) := by decide +kernel
/-- V1: "a" × 20. -/
theorem test_compress_v1 : result 10 (exec .compress (started 0x01 (loaded as20 [] 0))) = some (2#64, 10#64, v1) := by
  decide +kernel
/-- V25: DST_CAP 9 is one byte short. -/
theorem test_compress_v25 : result 0 (exec .compress (started 0x01 (loaded as20 [] 9))) = some (0x206#64, 0#64, []) := by
  decide +kernel
/-- V22, PREFIX: catch-up crosses into the dictionary. -/
theorem test_compressPrefix_v22 : result 8 (exec .compressPrefix (started 0x11 (loaded src22 dict22 0))) =
    some (2#64, 19#64, [0x52#8, 0x4C#8, 0x4D#8, 0x4E#8, 0x4F#8, 0x50#8, 0x06#8, 0x00#8]) := by decide +kernel
/-- V22, EXTDICT: catch-up stops at the source start. -/
theorem test_compressExtdict_v22 : result 9 (exec .compressExtdict (started 0x21 (loaded src22 dict22 0))) =
    some (2#64, 20#64, [0x61#8, 0x4C#8, 0x4D#8, 0x4E#8, 0x4F#8, 0x50#8, 0x4B#8, 0x06#8, 0x00#8]) := by decide +kernel

/-! ## DECOMPRESS and the tokens -/

/-- V1 backwards. -/
theorem test_decompress_v1 : result 20 (exec .decompress (started 0x02 (loaded v1 [] 20))) = some (2#64, 20#64, as20) := by
  decide +kernel
/-- V32e: capacity 19 leaves CorruptStream with op 15. -/
theorem test_decompress_v32e : result 15 (exec .decompress (started 0x02 (loaded v1 [] 19))) =
    some (0x406#64, 15#64, List.replicate 15 0x61#8) := by decide +kernel
/-- R224: 11 61 02 00 00 with dictionary "Z" gives 61 5A 61 5A 61 5A. -/
theorem test_decompressPrefix : result 6 (exec .decompressPrefix
    (started 0x12 (loaded [0x11#8, 0x61#8, 0x02#8, 0x00#8, 0x00#8] [0x5A#8] 10))) =
    some (2#64, 6#64, [0x61#8, 0x5A#8, 0x61#8, 0x5A#8, 0x61#8, 0x5A#8]) := by decide +kernel
/-- V47: 04 03 00 00 with dictionary "XYZ" gives XYZXYZXY. -/
theorem test_decompressExtdict : result 8 (exec .decompressExtdict
    (started 0x22 (loaded [0x04#8, 0x03#8, 0x00#8, 0x00#8] [0x58#8, 0x59#8, 0x5A#8] 8))) =
    some (2#64, 8#64, [0x58#8, 0x59#8, 0x5A#8, 0x58#8, 0x59#8, 0x5A#8, 0x58#8, 0x59#8]) := by decide +kernel
/-- R221, R229: the first token of V1 writes 15 bytes "a" and goes on. -/
theorem test_tokenSeq : result 15 (exec (.tokenSeq [0x61#8] 1#16 10) (started 0x02 (loaded v1 [] 20))) =
    some (1#64, 0#64, List.replicate 15 0x61#8) := by decide +kernel
/-- V3: offset 0 leaves one literal and CorruptStream. -/
theorem test_tokenSeq_zero_offset : result 2 (exec (.tokenSeq [0x61#8] 0#16 1) (started 0x02 (loaded v1 [] 20))) =
    some (0x406#64, 1#64, [0x61#8, 0x00#8]) := by decide +kernel
/-- R222: a last token of one literal, MLN 15, succeeds. -/
theorem test_tokenLast : result 1 (exec (.tokenLast 15#4 [0x61#8]) (started 0x02 (loaded v1 [] 1))) =
    some (2#64, 1#64, [0x61#8]) := by decide +kernel
/-- R221 (ii): 10 61 with capacity 0 is corrupt. -/
theorem test_tokenLast_full : result 1 (exec (.tokenLast 0#4 [0x61#8]) (started 0x02 (loaded v1 [] 0))) =
    some (0x406#64, 0#64, [0x00#8]) := by decide +kernel

/-! ## The worked hashes of R137 -/

theorem test_hashes : hash4 (fun v => [0x01#8].getD v 0#8) 13 0 = 5062 ∧ hash4 (fun v => [0x01#8].getD v 0#8) 12 0 = 2531 ∧
    hash5 (fun v => [0x01#8].getD v 0#8) 12 0 = 3313 ∧ hash5 (fun _ => 0xFF#8) 12 0 = 782 ∧
    hash5 (fun v => if v = 4 then 0x01#8 else 0#8) 12 0 = 2992 := by decide

/-! ## Witnesses: every statement's hypotheses are met together -/

/-- A running COMPRESS of "a" × 20 with DST_CAP 0, in each mode. -/
def runC (w : Word) : State := started w (loaded as20 dict22 0)
/-- A running DECOMPRESS of V1's stream with DST_CAP 20, in each mode. -/
def runD (w : Word) : State := started w (loaded v1 dict22 20)

/-- O3: a reset event, busy and idle. -/
theorem witness_O3 : { runC 0x01 with host := [.reset] }.host = .reset :: [] ∧ (runC 0x01).busy = true ∧
    { loaded as20 [] 0 with host := [.reset, .wait] }.host = .reset :: [.wait] ∧ (loaded as20 [] 0).busy = false := by decide
/-- O4, O5: every clause, at the first and the last offset it speaks of. -/
theorem witness_O4_O5 : ∀ off ∈ [0x00, 0x08, 0x10, 0x18, 0x20, 0x28, 0x30, 0x38, 0x40, 0x48, 0x50, 0xF8],
    off < 0x100 ∧ off % 8 = 0 ∧ { runC 0x01 with host := [.regRead off 64] }.host = .regRead off 64 :: [] ∧
    (runC 0x01).busy = true ∧ (loaded [] [] 0).busy = false ∧
    { loaded [] [] 0 with host := [.regWrite off 64 7] }.host = .regWrite off 64 7 :: [] := by decide
/-- O6: a 32-bit access, and a misaligned one at the window's end. -/
theorem witness_O6 : ((0 : Nat) < 0x100 ∧ ¬ (32 = 64 ∧ 0 % 8 = 0)) ∧ ((0xFF : Nat) < 0x100 ∧ ¬ (64 = 64 ∧ 0xFF % 8 = 0)) := by
  decide
/-- A word that is none of the six (R73). -/
abbrev NotACommand (w : Word) : Prop := w ≠ 0x01#64 ∧ w ≠ 0x11#64 ∧ w ≠ 0x21#64 ∧ w ≠ 0x02#64 ∧ w ≠ 0x12#64 ∧ w ≠ 0x22#64
/-- O8: a reserved OP, the reserved DICT, and a set reserved bit. -/
theorem witness_O8 : CommandWritten { State.reset with host := [.regWrite 0 64 0x03#64] } 0x03#64 [] ∧
    NotACommand 0x03#64 ∧ NotACommand 0x00#64 ∧ NotACommand 0x31#64 ∧ NotACommand 0x41#64 ∧
    NotACommand 0x8000000000000001#64 := by decide
/-- O9, O10: a legal word whose checks pass, and one whose checks fail. -/
theorem witness_O9_O10 : CommandWritten { State.reset with host := [.regWrite 0 64 0x01] } 0x01 [] ∧
    decodeCommand 0x01 = .ok .compress ∧ startCheck 0x01 State.reset = none ∧
    CommandWritten { loaded as20 [] 0 with dstAddr := 0x1000, host := [.regWrite 0 64 0x01] } 0x01 [] ∧
    startCheck 0x01 { loaded as20 [] 0 with dstAddr := 0x1000 } = some .badRegion := by decide
/-- O11: a word that is none; a destination that shares its last byte with the source, and one that ends just below it;
a range that ends at 2^64, and one past it; a PREFIX dictionary that starts at 0, and one below. -/
theorem witness_O11 : (∀ i op d, ¬ CommandForm i op d 0x03#64) ∧ CommandForm .compress .compress .noDict 0x01#64 ∧
    BadRanges .compress .noDict 0x1000 4 0xFF1 16 0 0 ∧ ¬ BadRanges .compress .noDict 0x1000 4 0xFF0 16 0 0 ∧
    ¬ BadRanges .compress .noDict (2 ^ 64 - 4) 4 0 16 0 0 ∧ BadRanges .compress .noDict (2 ^ 64 - 3) 4 0 16 0 0 ∧
    ¬ BadRanges .decompress .withPrefix64k 0x1000 4 8 16 0 8 ∧ BadRanges .decompress .withPrefix64k 0x1000 4 8 16 0 9 := by
  refine ⟨?_, by decide, ?_, ?_, ?_, ?_, ?_, ?_⟩
  · intro i op d h
    rcases h with ⟨_, h⟩ | ⟨_, h⟩ <;> rcases h with ⟨_, _, h⟩ | ⟨_, _, h⟩ | ⟨_, _, h⟩ <;> revert h <;> decide
  · exact .inr (.inr (.inr (.inr ⟨0x1000, by omega, .inl (by omega)⟩)))
  all_goals simp [BadRanges, InRange]
  all_goals first | done | (intros; omega)
/-- O12: an idle core, a command that is accepted and one that is not. -/
theorem witness_O12 : CommandForm .compressPrefix .compress .withPrefix64k 0x11#64 ∧ (loaded as20 dict22 0).busy = false ∧
    checkCommand .compress .withPrefix64k (latchOf 0x11 (loaded as20 dict22 0)) = none ∧
    checkCommand .compress .withPrefix64k (latchOf 0x11 { loaded as20 dict22 0 with srcAddr := 7 }) = some .badRegion := by
  decide
/-- O13: BUSY and idle, with no host move and with one. -/
theorem witness_O13 : (runC 0x01).busy = true ∧ decodeCommand (runC 0x01).latch.word = .ok .compress ∧
    (runC 0x01).host = [] ∧ { runC 0x01 with host := [.wait] }.host = .wait :: [] ∧ State.reset.busy = false ∧
    State.reset.host = [] := by decide
/-- O14: a running DECOMPRESS, and its first token. -/
theorem witness_O14 : DecompressForm .decompress .noDict 0x02#64 ∧ (runD 0x02).busy = true ∧
    rangesInSpace .decompress .noDict (runD 0x02).latch = true ∧
    decodeToken (streamAt (runD 0x02)) = .ok (.seq [0x61#8] 1#16 10, [0x50#8, 0x61#8, 0x61#8, 0x61#8, 0x61#8, 0x61#8]) ∧
    goesOn (exec (Token.seq [0x61#8] 1#16 10).toInstr (runD 0x02)) = true := by decide +kernel
/-- O16: a well-formed instruction of every kind. -/
theorem witness_O16 : wellFormed .compress = true ∧ wellFormed .compressPrefix = true ∧ wellFormed .compressExtdict = true ∧
    wellFormed .decompress = true ∧ wellFormed .decompressPrefix = true ∧ wellFormed .decompressExtdict = true ∧
    wellFormed (.tokenSeq [0x61#8] 0xFFFF#16 270) = true ∧ wellFormed (.tokenLast 15#4 []) = true := by decide
/-- O17: bytes of both languages that decode. -/
theorem witness_O17 : decode .command [0x11#8, 0#8, 0#8, 0#8, 0#8, 0#8, 0#8, 0#8] = .ok (.compressPrefix, []) ∧
    decode .token [0x11#8, 0x61#8, 0x01#8, 0x00#8, 0x10#8, 0x62#8] = .ok (.tokenSeq [0x61#8] 1#16 1, [0x10#8, 0x62#8]) := by
  decide
/-- O19: a final byte that is not 0xFF, and the largest nibble without an ext. -/
theorem witness_O19 : (0xFE#8 : Byte) ≠ 0xFF#8 ∧ (14 : Nat) < 15 := by decide
/-- O20: two bytes at the top of host memory. -/
theorem witness_O20 : memoryWf (loaded as20 dict22 0).mem = true ∧ 2 ^ 64 - 2 + 2 ≤ 2 ^ 64 := by decide
/-- O21: a running DECOMPRESS.EXTDICT; the first and last address of each range, and those beside them. -/
theorem witness_O21 : CommandForm .decompressExtdict .decompress .usingExtDict (runD 0x22).latch.word ∧
    Running .decompress .usingExtDict (runD 0x22) ∧
    InWriteRange .decompress (runD 0x22).latch 0x2000 ∧ InWriteRange .decompress (runD 0x22).latch 0x2013 ∧
    ¬ InWriteRange .decompress (runD 0x22).latch 0x1FFF ∧ ¬ InWriteRange .decompress (runD 0x22).latch 0x2014 ∧
    InRange 0x1009 (runD 0x22).latch.srcAddr.toNat (runD 0x22).latch.srcLen.toNat ∧
    ¬ InRange 0x100A (runD 0x22).latch.srcAddr.toNat (runD 0x22).latch.srcLen.toNat ∧
    InRange 0x3007 (dictRegion .decompress .usingExtDict (runD 0x22).latch).base
      (dictRegion .decompress .usingExtDict (runD 0x22).latch).len ∧
    ¬ InRange 0x3008 (dictRegion .decompress .usingExtDict (runD 0x22).latch).base
      (dictRegion .decompress .usingExtDict (runD 0x22).latch).len := by decide
/-- O22, O23: the widths of the table modes, chunks of both builds, and the lengths on both sides of the limit. -/
theorem witness_O22_O23 : (13 : Nat) ≤ 32 ∧ (12 : Nat) ≤ 64 ∧ (65546 : Nat) < 65547 ∧ (65547 : Nat) ≤ 65547 ∧
    Config.hw.arch64 = true ∧ { Config.hw with arch64 := false }.arch64 = false ∧
    (chunkOf Config.hw as20 [] .noDict 1 true 36).params.arch64 = true ∧
    (chunkOf { Config.hw with arch64 := false } as20 [] .noDict 1 true 36).params.arch64 = false := by decide

/-- A chunk of V22's source with its dictionary, in a dictionary mode. -/
def chunk22 (dm : DictMode) : Chunk := chunkOf Config.hw src22 dict22 dm 1 true 200
/-- A chunk of "a" × 20. -/
def chunkA : Chunk := chunkOf Config.hw as20 [] .noDict 1 true 36

/-- O24: two positions of one bucket, and two of different buckets. -/
theorem witness_O24 : hashAt chunkA .u16 1 = hashAt chunkA .u16 2 ∧
    hashAt (chunk22 .usingExtDict) .u32 65536 ≠ hashAt (chunk22 .usingExtDict) .u32 65537 := by decide +kernel
/-- O25: a dictionary of 8 bytes indexes exactly position 0; its slot holds it. -/
theorem witness_O25 : (chunk22 .usingExtDict).dm ≠ .noDict ∧
    3 * 0 + Config.hashUnit (chunk22 .usingExtDict).params ≤ (chunk22 .usingExtDict).dl ∧
    ¬ 3 * 1 + Config.hashUnit (chunk22 .usingExtDict).params ≤ (chunk22 .usingExtDict).dl ∧
    slotGet (setupTable (chunk22 .usingExtDict) Engine.idle).ht (hashAt (chunk22 .usingExtDict) .u32 65536) = some 65536 ∧
    chunkA.dm = .noDict := by decide +kernel

/-- The probe positions of R143. -/
def probePos (start accel : Nat) : Nat → Nat
  | 0 => start
  | 1 => start + 1
  | j + 2 => probePos start accel (j + 1) + accel + j / 64

theorem probePos_step (start accel : Nat) : probePos start accel 0 = start ∧ probePos start accel 1 = start + 1 ∧
    ∀ j, 1 ≤ j → probePos start accel (j + 1) = probePos start accel j + accel + (j - 1) / 64 := by
  refine ⟨rfl, rfl, fun j hj => ?_⟩
  obtain ⟨k, rfl⟩ : ∃ k, j = k + 1 := ⟨j - 1, by omega⟩
  simp [probePos]
/-- A chunk of the 20 bytes 00 .. 13, of which none repeats (R198). -/
def chunkDistinct : Chunk := chunkOf Config.hw ((List.range 20).map (BitVec.ofNat 8)) [] .noDict 1 true 37
/-- O26: probes at 1, 2, …, 7 are rejected, the last with its successor at PROBE_LIMIT = 8; the next one ends the search. -/
theorem witness_O26 : (probePos 1 1 0 = 1 ∧ probePos 1 1 1 = 1 + 1 ∧
      ∀ j, 1 ≤ j → probePos 1 1 (j + 1) = probePos 1 1 j + 1 + (j - 1) / 64) ∧
    (∀ i, 1 ≤ i → i ≤ 7 →
      (Nat.iterate (probe chunkDistinct) i (beginSeek chunkDistinct 1 Engine.idle)).phase = .seekMatch) ∧
    probePos 1 1 7 = 8 ∧ probeLimit .linux chunkDistinct.n = 8 ∧ chunkDistinct.accel = 1 := by
  refine ⟨probePos_step 1 1, fun i h1 h2 => ?_, by decide, by decide, by decide⟩
  have h : ∀ i ∈ List.range 8, 1 ≤ i →
      (Nat.iterate (probe chunkDistinct) i (beginSeek chunkDistinct 1 Engine.idle)).phase = .seekMatch := by decide +kernel
  exact h i (List.mem_range.mpr (by omega)) h1
/-- O27: an empty slot and a full one. -/
theorem witness_O27 : (0 : Nat) = (none : Option Nat).getD 0 ∧ (TableMode.u16 = .ptr → (none : Option Nat) ≠ none) ∧
    (7 : Nat) = (some 7).getD 0 ∧ (TableMode.ptr = .ptr → (some 7) ≠ none) := by decide
/-- O28: each lower bound, with the candidate at it and the anchor at p. -/
theorem witness_O28 : (0 ≤ 0 ∧ 0 = (if chunkA.dm = .noDict then 0 else if chunkA.dm = .usingExtDict ∧ chunkA.sb ≤ 0 then
      chunkA.sb else 65536)) ∧
    65544 = (if (chunk22 .usingExtDict).dm = .noDict then 0 else if (chunk22 .usingExtDict).dm = .usingExtDict ∧
      (chunk22 .usingExtDict).sb ≤ 65544 then (chunk22 .usingExtDict).sb else 65536) ∧
    65536 = (if (chunk22 .usingExtDict).dm = .noDict then 0 else if (chunk22 .usingExtDict).dm = .usingExtDict ∧
      (chunk22 .usingExtDict).sb ≤ 65543 then (chunk22 .usingExtDict).sb else 65536) ∧
    65536 = (if (chunk22 .withPrefix64k).dm = .noDict then 0 else if (chunk22 .withPrefix64k).dm = .usingExtDict ∧
      (chunk22 .withPrefix64k).sb ≤ 65544 then (chunk22 .withPrefix64k).sb else 65536) := by decide
/-- O29: the last position a match can start at, a count that runs to the limit, and one that ends at a difference. -/
theorem witness_O29 : 11 + 9 ≤ chunkA.n ∧ countMatch chunkA 1 0 = 10 ∧
    2 + 4 + countMatch (chunk22 .usingExtDict) 2 65544 < (chunk22 .usingExtDict).n - 5 := by decide +kernel

/-- The engine after `k` steps of a chunk's run; none where it has ended. -/
def engineAt (ch : Chunk) (start : Engine) : Nat → Option Engine
  | 0 => some (engineEntry ch (setupTable ch start))
  | k + 1 =>
    match engineAt ch start k with
    | none => none
    | some e =>
      match engineStep ch e with
      | .running e1 => some e1
      | .finished _ _ => none
      | .overflow _ => none

theorem engineAt_reaches {ch : Chunk} {start : Engine} : ∀ {k : Nat} {e : Engine}, engineAt ch start k = some e →
    EngineReaches ch start e
  | 0, e, h => by cases h; exact .entry
  | k + 1, e, h => by
    simp only [engineAt] at h
    split at h
    · cases h
    · next e0 h0 =>
      split at h
      · next e1 h1 => cases h; exact .next (engineAt_reaches h0) h1
      · cases h
      · cases h

/-- Some reached state has a property that the engine after `k` steps has. -/
theorem reaches_such {ch : Chunk} {start : Engine} (k : Nat) (p : Engine → Bool)
    (h : (engineAt ch start k).any p = true) : ∃ e, EngineReaches ch start e ∧ p e = true := by
  cases he : engineAt ch start k with
  | none => rw [he] at h; cases h
  | some e => rw [he] at h; exact ⟨e, engineAt_reaches he, h⟩

/-- V15's source "aabbbbbbbaabbbbbbbbab", which chains a match. -/
def chunk15 : Chunk := chunkOf Config.hw [0x61#8, 0x61#8, 0x62#8, 0x62#8, 0x62#8, 0x62#8, 0x62#8, 0x62#8, 0x62#8, 0x61#8,
  0x61#8, 0x62#8, 0x62#8, 0x62#8, 0x62#8, 0x62#8, 0x62#8, 0x62#8, 0x62#8, 0x61#8, 0x62#8] [] .noDict 1 true 100

theorem chunk15_wrapper : WrapperChunk chunk15 :=
  ⟨_, _, _, _, _, _, _, rfl, by decide, by decide, by decide, by decide⟩
theorem chunk22_wrapper : WrapperChunk (chunk22 .usingExtDict) :=
  ⟨_, _, _, _, _, _, _, rfl, by decide, by decide, by decide, by decide⟩

/-- O30: a chunk with a dictionary and one without reach each of the states the clauses name, a probe within its limit and
a table with a slot among them. -/
theorem witness_O30 : WrapperChunk (chunk22 .usingExtDict) ∧ WrapperChunk chunk15 ∧
    (∃ e, EngineReaches chunk15 Engine.idle e ∧ (decide (e.phase = .seekMatch) &&
      !pastProbeLimit chunk15 (advance e).fwd && decide (slotGet e.ht (hashAt chunk15 .u16 0) = some 0)) = true) ∧
    (∃ e, EngineReaches chunk15 Engine.idle e ∧ decide (e.phase = .catchUp) = true) ∧
    (∃ e, EngineReaches chunk15 Engine.idle e ∧ decide (e.phase = .nextMatch) = true) ∧
    (∃ e, EngineReaches (chunk22 .usingExtDict) Engine.idle e ∧ decide (e.phase = .encodeMatch) = true) :=
  ⟨chunk22_wrapper, chunk15_wrapper, reaches_such 0 _ (by decide +kernel), reaches_such 3 _ (by decide +kernel),
    reaches_such 6 _ (by decide +kernel), reaches_such 8 _ (by decide +kernel)⟩

/-- The stream a wrapper run answers. -/
def streamOf (c : CompressEnd) : Option (List Byte × Engine × Wrapper) :=
  match c with
  | .stream out e w => some (out, e, w)
  | .raised _ _ _ => none
  | .noProgress _ _ => none
  | .unfinished _ _ => none

theorem stream_of {c : CompressEnd} {p : List Byte × Engine × Wrapper} (h : streamOf c = some p) :
    c = .stream p.1 p.2.1 p.2.2 := by
  cases c <;> simp [streamOf] at h
  subst h; rfl

/-- O31 to O33: a run with a match answers V1's ten bytes, so that capacity 10 is enough and 9 is not; and a run of a
dictionary mode answers a stream. -/
theorem witness_O31_to_O33 :
    (∃ e w, chunkCompress Config.hw as20 [] .noDict 1 36 Engine.idle = .stream v1 e w) ∧ v1.length ≤ 10 ∧ 9 < v1.length ∧
    as20.length ≤ Config.hw.chunkMax ∧
    (∃ out e w, chunkCompress Config.hw src22 dict22 .usingExtDict 1 37 Engine.idle = .stream out e w) ∧
    src22.length ≤ Config.hw.chunkMax := by
  have h1 : (streamOf (chunkCompress Config.hw as20 [] .noDict 1 36 Engine.idle)).map (·.1) = some v1 := by decide +kernel
  have h2 : (streamOf (chunkCompress Config.hw src22 dict22 .usingExtDict 1 37 Engine.idle)).isSome = true := by
    decide +kernel
  refine ⟨?_, by decide, by decide, by decide, ?_, by decide⟩
  · obtain ⟨p, hp, hv⟩ := Option.map_eq_some_iff.mp h1
    exact ⟨p.2.1, p.2.2, hv ▸ stream_of hp⟩
  · obtain ⟨p, hp⟩ := Option.isSome_iff_exists.mp h2
    exact ⟨p.1, p.2.1, p.2.2, stream_of hp⟩

/-- How much a chunk that is not the last consumes. -/
def consumedOf (ch : Chunk) : Option Nat :=
  match runEngine ch (setupTable ch Engine.idle) with
  | .finished _ k => some k
  | .overflow _ => none
  | .unfinished _ => none

/-- O34: chunks of 20 bytes of a longer source that are not the last; "a" × 20 leaves 5 bytes, so that a tail limit of 5
fails and one of 6 goes on. -/
theorem witness_O34 : 20 < (as20 ++ as20).length - 0 ∧
    consumedOf (chunkOf { Config.hw with chunkMax := 20, chunkTail := 5 } (((as20 ++ as20).drop 0).take 20) [] .noDict 1 false
      (60 - 0)) = some 15 ∧
    consumedOf (chunkOf { Config.hw with chunkMax := 20, chunkTail := 6 } (((as20 ++ as20).drop 0).take 20) [] .noDict 1 false
      (60 - 0)) = some 15 ∧ 5 ≤ 20 - 15 ∧ 20 - 15 < 6 := by decide +kernel

/-- O35, O36, O39: each COMPRESS runs with DST_CAP 0 on a source within CHUNK_MAX; the mode and dictionary of R97. -/
theorem witness_O35_O36_O39 : CompressForm .compress .noDict 0x01#64 ∧ CompressForm .compressPrefix .withPrefix64k 0x11#64 ∧
    CompressForm .compressExtdict .usingExtDict 0x21#64 ∧ Running .compress .noDict (runC 0x01) ∧
    Running .compress .withPrefix64k (runC 0x11) ∧ Running .compress .usingExtDict (runC 0x21) ∧
    (runC 0x21).latch.dstCap = 0#64 ∧ (runC 0x21).latch.srcLen.toNat ≤ 0x7ffff000 ∧
    ((DictMode.usingExtDict, dictBytes .compress .usingExtDict (runC 0x21).latch (runC 0x21).mem) =
      if DictMode.usingExtDict = .noDict ∨ min (runC 0x21).latch.dictLen.toNat 65536 < 8 then (.noDict, [])
      else (.usingExtDict, dictBytes .compress .usingExtDict (runC 0x21).latch (runC 0x21).mem)) ∧
    { runC 0x21 with engine := { Engine.idle with ht := [(3, 7)] } } ≠ runC 0x21 := by decide +kernel
/-- 13 bytes of V22's source with its dictionary. -/
def run13 (cap : Word) : State := started 0x11 (loaded (src22.take 13) dict22 cap)
/-- O37: 13 bytes, with room for exactly 14 and for 13. -/
theorem witness_O37 : Running .compress .withPrefix64k (run13 14) ∧ (run13 14).latch.srcLen.toNat ≤ 13 ∧
    (run13 14).latch.srcLen.toNat + 1 ≤ capacity .compress (run13 14).latch ∧ Running .compress .withPrefix64k (run13 13) ∧
    capacity .compress (run13 13).latch < (run13 13).latch.srcLen.toNat + 1 := by decide
/-- O38: a dictionary of 7 bytes, in both modes. -/
theorem witness_O38 : (started 0x11 (loaded src22 (dict22.take 7) 0)).busy = true ∧
    (started 0x11 (loaded src22 (dict22.take 7) 0)).latch.dictLen.toNat < 8 ∧
    checkCommand .compress .withPrefix64k (started 0x11 (loaded src22 (dict22.take 7) 0)).latch = none ∧
    checkCommand .compress .usingExtDict (started 0x21 (loaded src22 (dict22.take 7) 0)).latch = none := by decide
/-- O40: a token that fills the capacity exactly, with an offset that reaches the dictionary's first byte. -/
theorem witness_O40 : memoryWf (started 0x22 (loaded v1 dict22 10)).mem = true ∧
    rangesInSpace .decompress .usingExtDict (started 0x22 (loaded v1 dict22 10)).latch = true ∧
    rangesApart .decompress .usingExtDict (started 0x22 (loaded v1 dict22 10)).latch = true ∧
    [0x61#8].length + (5 + 4) ≤ (started 0x22 (loaded v1 dict22 10)).latch.dstCap.toNat - 0 ∧ 9#16 ≠ 0#16 ∧
    (9#16).toNat ≤ 0 + [0x61#8].length + (dictBytes .decompress .usingExtDict (started 0x22 (loaded v1 dict22 10)).latch
      (started 0x22 (loaded v1 dict22 10)).mem).length := by decide +kernel
/-- O41, O42: literals that fit and that do not; an offset of 0, one before the history, and a match one byte too long. -/
theorem witness_O41_O42 : rangesInSpace .decompress .noDict (runD 0x02).latch = true ∧
    (runD 0x02).latch.dstCap.toNat - 0 < (List.replicate 21 0x61#8).length ∧
    (List.replicate 20 0x61#8).length ≤ (runD 0x02).latch.dstCap.toNat - 0 ∧ (0#16 : BitVec 16) = 0#16 ∧
    0 + [0x61#8].length + (dictBytes .decompress .noDict (runD 0x02).latch (runD 0x02).mem).length < (2#16).toNat ∧
    (runD 0x02).latch.dstCap.toNat - (0 + [0x61#8].length) < 16 + 4 := by decide +kernel
/-- O43, O46: each DECOMPRESS runs, in canonical memory. -/
theorem witness_O43_O46 : DecompressForm .decompress .noDict 0x02#64 ∧
    DecompressForm .decompressPrefix .withPrefix64k 0x12#64 ∧ DecompressForm .decompressExtdict .usingExtDict 0x22#64 ∧
    Running .decompress .noDict (runD 0x02) ∧ Running .decompress .withPrefix64k (runD 0x12) ∧
    Running .decompress .usingExtDict (runD 0x22) ∧ memoryWf (runD 0x22).mem = true ∧
    { runD 0x22 with engine := { Engine.idle with ht := [(3, 7)] } } ≠ runD 0x22 := by decide +kernel
/-- O44: two different busy states, and two different idle ones, that a host cannot tell apart. -/
theorem witness_O44 : visible (runC 0x01) = visible { runC 0x01 with engine := { Engine.idle with ht := [(3, 7)] } } ∧
    runC 0x01 ≠ { runC 0x01 with engine := { Engine.idle with ht := [(3, 7)] } } ∧
    visible State.reset = visible { State.reset with latch := { Latch.unset with word := 0x02 }, dm := .usingExtDict } ∧
    State.reset ≠ { State.reset with latch := { Latch.unset with word := 0x02 }, dm := .usingExtDict } := by decide +kernel

/-- V1's stream expands to "a" × 20. -/
theorem v1_expands : Expands [] v1 as20 :=
  ⟨[.seq [0x61#8] 1#16 10], 0#4, List.replicate 5 0x61#8, by decide, by decide, by decide⟩
/-- An empty stream expands to nothing. -/
theorem empty_expands_to_nothing (D out : List Byte) : ¬ Expands D [] out := by
  rintro ⟨seqs, mln, lits, -, h, -⟩
  have h := (List.append_eq_nil_iff.mp h.symm).2
  cases h
/-- O45: a stream that expands to as many bytes as DST_CAP, and one that expands to none. -/
theorem witness_O45 : Running .decompress .noDict (runD 0x02) ∧ memoryWf (runD 0x02).mem = true ∧
    Expands (dictBytes .decompress .noDict (runD 0x02).latch (runD 0x02).mem)
      (srcBytes (runD 0x02).latch (runD 0x02).mem) as20 ∧ as20.length ≤ (runD 0x02).latch.dstCap.toNat ∧
    Running .decompress .noDict (started 0x02 (loaded [] [] 20)) ∧
    (∀ out, Expands (dictBytes .decompress .noDict (started 0x02 (loaded [] [] 20)).latch [])
      (srcBytes (started 0x02 (loaded [] [] 20)).latch []) out → 20 < out.length) := by
  refine ⟨by decide, by decide, ?_, by decide, by decide, fun out h => absurd h (empty_expands_to_nothing _ out)⟩
  have h1 : dictBytes .decompress .noDict (runD 0x02).latch (runD 0x02).mem = [] := by decide
  have h2 : srcBytes (runD 0x02).latch (runD 0x02).mem = v1 := by decide +kernel
  rw [h1, h2]; exact v1_expands

/-- The state COMPRESS.EXTDICT of V22 leaves. -/
def packed : State := after (exec .compressExtdict (started 0x21 (loaded src22 dict22 0))) State.reset
/-- A running DECOMPRESS.EXTDICT of the stream it wrote, with the source's length as DST_CAP. -/
def unpacking : State := started 0x22 (loaded (readBytes packed.mem 0x2000 20) dict22 21)

/-- O47: COMPRESS.EXTDICT of V22 succeeds, and a DECOMPRESS.EXTDICT of its stream runs with its dictionary. -/
theorem witness_O47 : Running .compress .usingExtDict (started 0x21 (loaded src22 dict22 0)) ∧
    memoryWf (started 0x21 (loaded src22 dict22 0)).mem = true ∧
    exec .compressExtdict (started 0x21 (loaded src22 dict22 0)) = .next packed ∧ packed.status = 0b010#64 ∧
    Running .decompress .usingExtDict unpacking ∧ memoryWf unpacking.mem = true ∧
    srcBytes unpacking.latch unpacking.mem = readBytes packed.mem 0x2000 packed.resultLen.toNat ∧
    dictBytes .decompress .usingExtDict unpacking.latch unpacking.mem =
      dictBytes .compress .usingExtDict (started 0x21 (loaded src22 dict22 0)).latch (loaded src22 dict22 0).mem ∧
    unpacking.latch.dstCap = (started 0x21 (loaded src22 dict22 0)).latch.srcLen := by
  refine ⟨by decide, by decide, next_of_goesOn _ (by decide +kernel), by decide +kernel, by decide +kernel,
    by decide +kernel, by decide +kernel, by decide +kernel, by decide +kernel⟩

/-- O48 to O50, O52, O53: a busy state with the invariant steps on, and an address outside its write range. -/
theorem witness_O48_to_O53 : Inv (runD 0x22) ∧ step (runD 0x22) = .next (after (step (runD 0x22)) State.reset) ∧
    StatusInv (runD 0x22).status ∧ (runD 0x22).host = [] ∧ (runD 0x22).busy = true ∧
    decodeFields (runD 0x22).latch.word = .ok (.decompress, .usingExtDict) ∧
    ¬ InWriteRange .decompress (runD 0x22).latch 0x2014 := by
  refine ⟨by decide +kernel, next_of_goesOn _ (by decide +kernel), by decide, by decide, by decide, by decide, by decide⟩
/-- O50: a busy core whose host waits, and one whose host reads the first byte of the write range, which it may not. -/
theorem witness_O50 : Inv { runD 0x22 with host := [.wait] } ∧ Inv { runD 0x22 with host := [.memRead 0x2000#64] } ∧
    ¬ MoveAllowed { runD 0x22 with host := [.memRead 0x2000#64] } (.memRead 0x2000#64) ∧
    ¬ MoveAllowed State.reset (.regRead 0x100 64) ∧ ¬ MoveAllowed State.reset (.regRead 0xF8 32) := by
  refine ⟨by decide +kernel, by decide +kernel, ?_, ?_, ?_⟩ <;> simp only [MoveAllowed] <;> decide +kernel
/-- O51: a busy state whose host reads STATUS, writes a register, reads the source and writes a byte of its own. -/
theorem witness_O51 : Inv { runD 0x22 with host := [.regRead 8 64, .regWrite 0x18 64 4, .memRead 0x1000, .memWrite 0x5000 1] } ∧
    (∀ m ∈ [HostMove.regRead 8 64, .regWrite 0x18 64 4, .memRead 0x1000, .memWrite 0x5000 1], MoveAllowed (runD 0x22) m) ∧
    HostMove.reset ∉ [HostMove.regRead 8 64, .regWrite 0x18 64 4, .memRead 0x1000, .memWrite 0x5000 1] := by
  refine ⟨by decide +kernel, ?_, by decide⟩
  intro m hm
  simp only [List.mem_cons, List.not_mem_nil, or_false] at hm
  rcases hm with rfl | rfl | rfl | rfl <;> simp only [MoveAllowed] <;> decide +kernel

/-- The running DECOMPRESS of a stream, with a capacity. -/
def runS (stream : List Byte) (cap : Word) : State := started 0x02 (loaded stream [] cap)
/-- O54: every way a token is cut short (R238), with room for exactly its literals and for one less. -/
theorem witness_O54 : streamAt (runS [] 5) = [] ∧
    (streamAt (runS [0xF0#8, 0xFF#8] 5) = 0xF0#8 :: [0xFF#8] ∧ decLen ((0xF0#8 : Byte).toNat / 16) [0xFF#8] = none) ∧
    (streamAt (runS [0x30#8, 0x61#8, 0x62#8] 5) = 0x30#8 :: [0x61#8, 0x62#8] ∧
      decLen ((0x30#8 : Byte).toNat / 16) [0x61#8, 0x62#8] = some (3, [0x61#8, 0x62#8]) ∧ [0x61#8, 0x62#8].length < 3) ∧
    (streamAt (runS [0x10#8, 0x61#8, 0x01#8] 1) = 0x10#8 :: [0x61#8, 0x01#8] ∧
      decLen ((0x10#8 : Byte).toNat / 16) [0x61#8, 0x01#8] = some ([0x61#8].length, [0x61#8] ++ [0x01#8]) ∧
      [0x61#8].length ≤ (runS [0x10#8, 0x61#8, 0x01#8] 1).latch.dstCap.toNat - 0) ∧
    (streamAt (runS [0x1F#8, 0x61#8, 0x01#8, 0x00#8] 0) = 0x1F#8 :: [0x61#8, 0x01#8, 0x00#8] ∧
      decLen ((0x1F#8 : Byte).toNat / 16) [0x61#8, 0x01#8, 0x00#8] = some ([0x61#8].length, [0x61#8] ++ [0x01#8, 0x00#8]) ∧
      decLen ((0x1F#8 : Byte).toNat % 16) [] = none ∧
      (runS [0x1F#8, 0x61#8, 0x01#8, 0x00#8] 0).latch.dstCap.toNat - 0 < [0x61#8].length) := by decide +kernel
/-- O55: four bytes and five. -/
theorem witness_O55 : (chunkOf Config.hw (as20.take 4) [] .noDict 1 true 36).n < 5 ∧
    5 ≤ (chunkOf Config.hw (as20.take 5) [] .noDict 1 true 36).n := by decide
/-- O56: V1's chunk at position 1, whose candidate is valid; the distinct bytes' at 7, the last probe of its search, whose
candidate is not, and at 8, past PROBE_LIMIT. -/
theorem witness_O56 : (((1 + 1 : Nat) : Int) ≤ probeLimit chunkA.params.variant chunkA.n ∧
      validCandidate chunkA .u16 (some 0) (chunkA.sb + 1) = true) ∧
    (((7 + 1 : Nat) : Int) ≤ probeLimit chunkDistinct.params.variant chunkDistinct.n ∧
      validCandidate chunkDistinct .u16 none (chunkDistinct.sb + 7) = false) ∧
    probeLimit chunkDistinct.params.variant chunkDistinct.n < ((8 + 1 : Nat) : Int) := by decide
/-- O57: the engine of V15's chunk at cursor 9, whose bucket holds position 0, and one of the distinct bytes' chunk. -/
theorem witness_O57 : (∃ e, EngineReaches chunk15 Engine.idle e ∧ (decide (e.phase = .nextMatch) && decide (e.ip = 9) &&
      decide (slotGet (put chunk15 (chunk15.sb + 7) e).ht (hashAt chunk15 e.tm (chunk15.sb + 9)) = some 0) &&
      validNext chunk15 e.tm (some 0) (chunk15.sb + 9) && decide (e.out.length < chunk15.cap)) = true) ∧
    ({ chunk15 with cap := 6 }.cap ≤ [0x32#8, 0x61#8, 0x61#8, 0x62#8, 0x01#8, 0x00#8].length ∧
      validNext { chunk15 with cap := 6 } .u16 (some 0) 9 = true) ∧
    validNext chunkDistinct .u16 none (chunkDistinct.sb + 8) = false :=
  ⟨reaches_such 6 _ (by decide +kernel), by decide, by decide⟩
/-- O58: V15's chunk before its first literals and before its first match, and V1's chunk before its last literals, with
room and without. -/
theorem witness_O58 : (∃ e, EngineReaches chunk15 Engine.idle e ∧ (decide (e.phase = .encodeLiterals) &&
      decide ([0x61#8, 0x61#8, 0x62#8] = (List.range (e.p - e.anchor)).map fun j => chunk15.bytes (chunk15.sb + (e.anchor + j)))) =
      true) ∧
    (∃ e, EngineReaches chunk15 Engine.idle e ∧ (decide (e.phase = .encodeMatch) && decide (e.tokpos = ([] : List Byte).length) &&
      decide (e.out = [] ++ tokenByte (min [0x61#8, 0x61#8, 0x62#8].length 15) 0 ::
        (lenExt [0x61#8, 0x61#8, 0x62#8].length ++ [0x61#8, 0x61#8, 0x62#8])) && decide (e.c < chunk15.sb + e.p) &&
      decide (chunk15.sb + e.p - e.c ≤ 65535) && decide (2 = countMatch chunk15 e.p e.c)) = true) ∧
    (∃ e, EngineReaches chunkA Engine.idle e ∧ (decide (e.phase = .lastLiterals) && chunkA.final &&
      decide (List.replicate 5 0x61#8 = (List.range (chunkA.n - e.anchor)).map fun j => chunkA.bytes (chunkA.sb + (e.anchor + j))) &&
      decide (e.out.length = 4)) = true) ∧
    4 + 1 + (5 + 240) / 255 + 5 ≤ 10 ∧ ¬ 4 + 1 + (5 + 240) / 255 + 5 ≤ 9 :=
  ⟨reaches_such 4 _ (by decide +kernel), reaches_such 5 _ (by decide +kernel), reaches_such 4 _ (by decide +kernel),
    by decide, by decide⟩
/-- O59: 14 bytes "a", with room for exactly their ten output bytes and for nine (R196). -/
theorem witness_O59 : Running .compress .noDict (started 0x01 (loaded (as20.take 14) [] 10)) ∧
    (started 0x01 (loaded (as20.take 14) [] 10)).latch.srcLen.toNat = 14 ∧
    srcBytes (started 0x01 (loaded (as20.take 14) [] 10)).latch (loaded (as20.take 14) [] 10).mem = List.replicate 14 0x61#8 ∧
    encodeToken (.seq [0x61#8] 1#16 (14 - 10)) ++ encodeToken (.last 0#4 (List.replicate 5 0x61#8)) =
      [0x14#8, 0x61#8, 0x01#8, 0x00#8, 0x50#8, 0x61#8, 0x61#8, 0x61#8, 0x61#8, 0x61#8] ∧
    capacity .compress (started 0x01 (loaded (as20.take 14) [] 10)).latch = 10 ∧
    Running .compress .noDict (started 0x01 (loaded (as20.take 14) [] 9)) ∧
    capacity .compress (started 0x01 (loaded (as20.take 14) [] 9)).latch = 9 := by decide +kernel

end Sys2Proof.Tests
end

section
/-! The command word: a word is its three fields, the fields of an operation and a mode are those of one word only, and
`StartCheck` finds IllegalCommand exactly for the words that decode to no command. -/

namespace Sys2Proof.Machine

/-- The three fields are the whole word (R70). -/
theorem toNat_eq_fields (w : Word) : w.toNat = opField w + 16 * dictField w + 64 * reservedField w := by
  simp only [opField, dictField, reservedField, BitVec.extractLsb'_toNat, Nat.shiftRight_eq_div_pow]
  omega

theorem word_ext_fields {v w : Word} (hop : opField v = opField w) (hdict : dictField v = dictField w)
    (hres : reservedField v = reservedField w) : v = w :=
  BitVec.eq_of_toNat_eq (by rw [toNat_eq_fields, toNat_eq_fields, hop, hdict, hres])

/-- One OP value names an operation (R71). -/
theorem opOf_inj {m n : Nat} {op : Op} (hm : opOf m = some op) (hn : opOf n = some op) : m = n := by
  grind [opOf]

/-- One DICT value names a mode (R72). -/
theorem dictOf_inj {m n : Nat} {d : DictMode} (hm : dictOf m = some d) (hn : dictOf n = some d) : m = n := by
  grind [dictOf]

/-- A word is legal where its reserved bits are clear and OP and DICT each name something (R70 to R72). -/
theorem decodeFields_eq_ok {w : Word} {op : Op} {d : DictMode} (h : decodeFields w = .ok (op, d)) :
    reservedField w = 0 ∧ opOf (opField w) = some op ∧ dictOf (dictField w) = some d := by
  unfold decodeFields at h
  split at h
  · cases h
  · rename_i hres
    split at h
    · cases h
    · rename_i hop
      split at h
      · cases h
      · rename_i hdict
        cases h
        exact ⟨not_not.mp hres, hop, hdict⟩

/-- A word decodes to an operation and a mode only where it is their word (R73). -/
theorem decodeFields_eq_ok_iff {w : Word} {op : Op} {d : DictMode} :
    decodeFields w = .ok (op, d) ↔ w = wordOf op d := by
  constructor
  · intro h
    obtain ⟨hres, hop, hdict⟩ := decodeFields_eq_ok h
    obtain ⟨hres', hop', hdict'⟩ := decodeFields_eq_ok (decodeFields_wordOf op d)
    exact word_ext_fields (opOf_inj hop hop') (dictOf_inj hdict hdict') (hres.trans hres'.symm)
  · rintro rfl
    exact decodeFields_wordOf op d

@[simp] theorem decodeCommand_wordOf (op : Op) (d : DictMode) : decodeCommand (wordOf op d) = .ok (commandOf op d) := by
  simp [decodeCommand]

theorem decodeCommand_eq_ok_iff {w : Word} {i : Instr} :
    decodeCommand w = .ok i ↔ ∃ op d, w = wordOf op d ∧ i = commandOf op d := by
  constructor
  · intro h
    obtain ⟨op, d, hf, hi⟩ := decodeCommand_ok h
    exact ⟨op, d, decodeFields_eq_ok_iff.mp hf, hi⟩
  · rintro ⟨op, d, rfl, rfl⟩
    exact decodeCommand_wordOf op d

/-- The checks on a legal command never find it illegal (R95). -/
theorem checkCommand_ne_illegalCommand (op : Op) (d : DictMode) (l : Latch) :
    checkCommand op d l ≠ some .illegalCommand := by
  unfold checkCommand
  split
  · simp
  · split <;> simp

/-- `StartCheck` finds IllegalCommand exactly for the words that decode to no command (R95, R247). -/
theorem startCheck_eq_illegalCommand_iff {w : Word} {s : State} :
    startCheck w s = some .illegalCommand ↔ ∀ i, decodeCommand w ≠ .ok i := by
  cases hf : decodeFields w with
  | error e => simp [startCheck, decodeCommand, hf]
  | ok p => simp [startCheck, decodeCommand, hf, checkCommand_ne_illegalCommand]

/-- The six words and their commands, written out (R73). -/
theorem exists_wordOf_commandOf_iff {w : Word} {i : Instr} :
    (∃ op d, w = wordOf op d ∧ i = commandOf op d) ↔
      (w = 0x01#64 ∧ i = .compress) ∨ (w = 0x11#64 ∧ i = .compressPrefix) ∨ (w = 0x21#64 ∧ i = .compressExtdict) ∨
      (w = 0x02#64 ∧ i = .decompress) ∨ (w = 0x12#64 ∧ i = .decompressPrefix) ∨ (w = 0x22#64 ∧ i = .decompressExtdict) := by
  constructor
  · rintro ⟨op, d, rfl, rfl⟩
    cases op <;> cases d <;> simp [wordOf, commandOf]
  · rintro (h | h | h | h | h | h)
    · exact ⟨.compress, .noDict, h⟩
    · exact ⟨.compress, .withPrefix64k, h⟩
    · exact ⟨.compress, .usingExtDict, h⟩
    · exact ⟨.decompress, .noDict, h⟩
    · exact ⟨.decompress, .withPrefix64k, h⟩
    · exact ⟨.decompress, .usingExtDict, h⟩

/-- Settles O7: a word decodes exactly where it is the word of an operation and a mode, and `StartCheck` finds the others
illegal. -/
theorem sixWordsAreCommands : Obligations.SixWordsAreCommands :=
  ⟨fun _ _ => decodeCommand_eq_ok_iff.trans exists_wordOf_commandOf_iff,
   fun _ _ => startCheck_eq_illegalCommand_iff.symm⟩

end Sys2Proof.Machine
end

section
/-! The token stream: `DecLen` reads exactly what `EncLen` writes (R78, R162), and a token is read from the front of a
stream exactly where its encoding stands there (R75). -/

namespace Sys2Proof

/-- The loop of `DecLen` adds 0xFF bytes and then one other byte (R162). -/
theorem decExt_eq_some_iff {x y : Nat} {s t : List Byte} :
    decExt x s = some (y, t) ↔
      ∃ k b, b ≠ 0xFF#8 ∧ s = List.replicate k 0xFF#8 ++ b :: t ∧ y = x + 255 * k + b.toNat := by
  constructor
  · intro h
    induction s generalizing x with
    | nil => cases h
    | cons a s ih =>
      rw [decExt] at h
      split at h
      · rename_i ha
        obtain ⟨k, b, hb, rfl, rfl⟩ := ih h
        exact ⟨k + 1, b, hb, by simp [ha, List.replicate_succ], by simp [ha]; omega⟩
      · rename_i ha
        cases h
        exact ⟨0, a, ha, rfl, rfl⟩
  · rintro ⟨k, b, hb, rfl, rfl⟩
    induction k generalizing x with
    | zero => simp [decExt, hb]
    | succ k ih =>
      have hff : (0xFF#8).toNat = 255 := rfl
      simp only [List.replicate_succ, List.cons_append, decExt, if_true, ih, hff]
      congr 2; omega

theorem byte_ne_ff_iff {b : Byte} : b ≠ 0xFF#8 ↔ b.toNat < 255 := by
  have := b.isLt
  rw [Ne, ← BitVec.toNat_inj]
  simp; omega

/-- `DecLen` is the exact inverse of `EncLen` (R78, R162). -/
theorem decLen_eq_some_iff {n x : Nat} {s t : List Byte} (hn : n < 16) :
    decLen n s = some (x, t) ↔ n = lenNibble x ∧ s = lenExt x ++ t := by
  unfold decLen lenNibble lenExt Config.runMask
  split
  · subst_vars
    rw [decExt_eq_some_iff]
    constructor
    · rintro ⟨k, b, hb, rfl, rfl⟩
      rw [byte_ne_ff_iff] at hb
      have hk : (15 + 255 * k + b.toNat - 15) / 255 = k := by omega
      have hr : (15 + 255 * k + b.toNat - 15) % 255 = b.toNat := by omega
      refine ⟨by omega, ?_⟩
      rw [if_neg (by omega), hk, hr]
      simp
    · rintro ⟨hx, hs⟩
      rw [if_neg (by omega)] at hs
      have hlt : (x - 15) % 255 < 255 := Nat.mod_lt _ (by decide)
      have hb : (BitVec.ofNat 8 ((x - 15) % 255)).toNat = (x - 15) % 255 := by
        rw [BitVec.toNat_ofNat, Nat.mod_eq_of_lt (by omega)]
      exact ⟨(x - 15) / 255, _, by rw [byte_ne_ff_iff, hb]; exact hlt, by simpa using hs, by rw [hb]; omega⟩
  · constructor
    · intro h
      cases h
      exact ⟨by omega, by rw [if_pos (by omega)]; rfl⟩
    · rintro ⟨hx, hs⟩
      rw [if_pos (by omega)] at hs
      rw [hs]
      simp; omega

theorem leBytes_offsetOf (o0 o1 : Byte) : leBytes 2 (offsetOf o0 o1).toNat = [o0, o1] := by
  have h0 := o0.isLt
  have h1 := o1.isLt
  have hv : (offsetOf o0 o1).toNat = o0.toNat + 256 * o1.toNat := by
    simp [offsetOf, leNat]; omega
  simp only [leBytes, hv, List.cons.injEq, and_true]
  constructor <;> apply BitVec.eq_of_toNat_eq <;> simp <;> omega

theorem leBytes_two_eq (off : BitVec 16) :
    ∃ o0 o1, leBytes 2 off.toNat = [o0, o1] ∧ offsetOf o0 o1 = off := by
  refine ⟨_, _, rfl, BitVec.eq_of_toNat_eq ?_⟩
  have := off.isLt
  simp [offsetOf, leNat]; omega

theorem tokenByte_nibbles (tok : Byte) : tokenByte (tokenLln tok) (tokenMln tok).toNat = tok := by
  apply BitVec.eq_of_toNat_eq
  have := tok.isLt
  simp only [tokenByte, tokenLln, tokenMln, BitVec.extractLsb'_toNat, BitVec.toNat_ofNat, Nat.shiftRight_eq_div_pow]
  omega

theorem tokenLln_lt (tok : Byte) : tokenLln tok < 16 := (tok.extractLsb' 4 4).isLt

/-- What is read as a token is the token's encoding (R78). -/
theorem eq_encodeToken_of_decodeToken {T rest : List Byte} {t : Token} (h : decodeToken T = .ok (t, rest)) :
    T = encodeToken t ++ rest := by
  cases T with
  | nil => cases h
  | cons tok s1 =>
    rw [decodeToken] at h
    split at h
    · cases h
    · rename_i ll s2 hll
      obtain ⟨hlln, rfl⟩ := (decLen_eq_some_iff (tokenLln_lt tok)).1 hll
      split at h
      · cases h
      · rename_i hlen
        have htake : (s2.take ll).length = ll := by rw [List.length_take]; omega
        have hs2 := List.take_append_drop ll s2
        split at h
        · rename_i hdrop
          cases h
          rw [hdrop, List.append_nil] at hs2
          rw [encodeToken, htake, ← hlln, tokenByte_nibbles, hs2, List.append_nil]
        · cases h
        · rename_i o0 o1 s4 hdrop
          split at h
          · cases h
          · rename_i mlf s5 hmlf
            obtain ⟨hmln, rfl⟩ := (decLen_eq_some_iff (tokenMln tok).isLt).1 hmlf
            cases h
            rw [encodeToken, htake, ← hlln, ← hmln, tokenByte_nibbles, leBytes_offsetOf]
            rw [hdrop] at hs2
            simpa using hs2.symm

/-- A sequence token is read from the front of any stream that begins with its encoding (R75, R165). -/
theorem decodeToken_encodeToken_seq (lits : List Byte) (off : BitVec 16) (mlf : Nat) (rest : List Byte) :
    decodeToken (encodeToken (.seq lits off mlf) ++ rest) = .ok (.seq lits off mlf, rest) := by
  obtain ⟨o0, o1, ho, hoff⟩ := leBytes_two_eq off
  have hll := lenNibble_lt lits.length
  have hml := lenNibble_lt mlf
  have hmln := tokenByte_mln (a := lenNibble lits.length) hml
  simp only [encodeToken, ho, List.cons_append, List.append_assoc, decodeToken, tokenByte_lln hll hml, hmln]
  rw [(decLen_eq_some_iff hll).2 ⟨rfl, rfl⟩]
  simp only [List.length_append]
  rw [if_neg (by omega), List.drop_left, List.take_left]
  simp only [List.nil_append, hoff]
  rw [(decLen_eq_some_iff hml).2 ⟨rfl, rfl⟩]

/-- A last token is read where its encoding is all that is left of the stream (R75, R222). -/
theorem decodeToken_encodeToken_last (mln : BitVec 4) (lits : List Byte) :
    decodeToken (encodeToken (.last mln lits)) = .ok (.last mln lits, []) := by
  have hll := lenNibble_lt lits.length
  have hmln : tokenMln (tokenByte (lenNibble lits.length) mln.toNat) = mln :=
    BitVec.eq_of_toNat_eq (tokenByte_mln mln.isLt)
  simp only [encodeToken, decodeToken, tokenByte_lln hll mln.isLt, hmln]
  rw [(decLen_eq_some_iff hll).2 ⟨rfl, rfl⟩]
  simp

end Sys2Proof
end

section
/-! What tokens make of a history (R75, R229): how long it grows, that an earlier history in front changes nothing, that a
match within a string grows what stands before it to what stands before its end, and how many bytes sequence tokens take
for what they grow (R168). -/

namespace Sys2Proof.Machine

theorem growMatch_length (off n : Nat) (h : List Byte) : (growMatch off n h).length = h.length + n := by
  induction n generalizing h with
  | zero => rfl
  | succ n ih => simp only [growMatch, ih, List.length_append, List.length_singleton]; omega

/-- A match reads only its own history, whatever stands before it. -/
theorem growMatch_append (k : List Byte) {off n : Nat} {h : List Byte} (hle : off ≤ h.length) :
    growMatch off n (k ++ h) = k ++ growMatch off n h := by
  induction n generalizing h with
  | zero => rfl
  | succ n ih =>
    have hget : (k ++ h).getD ((k ++ h).length - off) 0 = h.getD (h.length - off) 0 := by
      simp only [List.getD_eq_getElem?_getD, List.length_append]
      rw [List.getElem?_append_right (by omega), show k.length + h.length - off - k.length = h.length - off by omega]
    rw [growMatch, growMatch, hget, List.append_assoc, ih (by rw [List.length_append]; omega)]

/-- A match between two places of a string grows what stands before the match to what stands before its end. -/
theorem growMatch_take {H : List Byte} {off q n : Nat} (hoff : off ≠ 0) (hq : off ≤ q) (hn : q + n ≤ H.length)
    (heq : ∀ j, j < n → H.getD (q + j - off) 0 = H.getD (q + j) 0) : growMatch off n (H.take q) = H.take (q + n) := by
  induction n generalizing q with
  | zero => rfl
  | succ n ih =>
    have hlen : (H.take q).length = q := by rw [List.length_take]; omega
    have hget : (H.take q).getD (q - off) 0 = H.getD q 0 := by
      have := heq 0 (by omega)
      simp only [List.getD_eq_getElem?_getD, Nat.add_zero] at this ⊢
      rw [List.getElem?_take_of_lt (by omega), this]
    have hnext : H.take q ++ [H.getD q 0] = H.take (q + 1) := by
      rw [List.take_add_one, List.getD_eq_getElem?_getD, List.getElem?_eq_getElem (by omega)]
      rfl
    rw [growMatch, hlen, hget, hnext, ih (by omega) (by omega), Nat.add_right_comm, Nat.add_assoc]
    intro j hj
    rw [Nat.add_right_comm, Nat.add_assoc]
    exact heq (j + 1) (by omega)

/-- A sequence token grows a history exactly where its offset is legal (R79, R224). -/
theorem growToken_seq_eq_some {lits h g : List Byte} {off : BitVec 16} {mlf : Nat} :
    growToken (.seq lits off mlf) h = some g ↔
      off ≠ 0#16 ∧ off.toNat ≤ (h ++ lits).length ∧ g = growMatch off.toNat (mlf + 4) (h ++ lits) := by
  simp only [growToken]
  split
  · grind
  · simp only [Option.some.injEq]
    grind

theorem growToken_append (k : List Byte) {t : Token} {h g : List Byte} (hg : growToken t h = some g) :
    growToken t (k ++ h) = some (k ++ g) := by
  cases t with
  | last mln lits => cases hg; simp [growToken]
  | seq lits off mlf =>
    obtain ⟨hoff, hle, rfl⟩ := growToken_seq_eq_some.1 hg
    refine growToken_seq_eq_some.2 ⟨hoff, by simp only [List.length_append] at hle ⊢; omega, ?_⟩
    rw [List.append_assoc, growMatch_append k hle]

theorem growTokens_cons_eq_some {t : Token} {ts : List Token} {h g : List Byte} :
    growTokens (t :: ts) h = some g ↔ ∃ m, growToken t h = some m ∧ growTokens ts m = some g := by
  rw [growTokens]
  cases growToken t h <;> simp

theorem growTokens_append_eq_some {ts us : List Token} {h g : List Byte} :
    growTokens (ts ++ us) h = some g ↔ ∃ m, growTokens ts h = some m ∧ growTokens us m = some g := by
  induction ts generalizing h with
  | nil => simp [growTokens]
  | cons t ts ih =>
    simp only [List.cons_append, growTokens_cons_eq_some, ih]
    grind

/-- Tokens read only their own history, whatever stands before it. -/
theorem growTokens_prepend (k : List Byte) {ts : List Token} {h g : List Byte} (hg : growTokens ts h = some g) :
    growTokens ts (k ++ h) = some (k ++ g) := by
  induction ts generalizing h with
  | nil => cases hg; rfl
  | cons t ts ih =>
    obtain ⟨m, hm, hts⟩ := growTokens_cons_eq_some.1 hg
    exact growTokens_cons_eq_some.2 ⟨k ++ m, growToken_append k hm, ih hts⟩

theorem growToken_length_le {t : Token} {h g : List Byte} (hg : growToken t h = some g) : h.length ≤ g.length := by
  cases t with
  | last mln lits => cases hg; simp
  | seq lits off mlf =>
    obtain ⟨-, -, rfl⟩ := growToken_seq_eq_some.1 hg
    simp only [growMatch_length, List.length_append]; omega

theorem growTokens_length_le {ts : List Token} {h g : List Byte} (hg : growTokens ts h = some g) :
    h.length ≤ g.length := by
  induction ts generalizing h with
  | nil => cases hg; exact Nat.le_refl _
  | cons t ts ih =>
    obtain ⟨m, hm, hts⟩ := growTokens_cons_eq_some.1 hg
    exact Nat.le_trans (growToken_length_le hm) (ih hts)

/-- `ext(x)` in one formula (R161). -/
theorem lenExtSize_eq (x : Nat) : lenExtSize x = (x + 240) / 255 := by
  unfold lenExtSize Config.runMask
  split <;> omega

/-- Sequence tokens take at most 256 bytes for every 255 they stand for (R168). -/
theorem flatMap_encodeToken_length_le {ts : List Token} {h g : List Byte} (hs : ∀ t ∈ ts, isSeqToken t = true)
    (hg : growTokens ts h = some g) : 255 * (ts.flatMap encodeToken).length + 256 * h.length ≤ 256 * g.length := by
  induction ts generalizing h with
  | nil => cases hg; simp
  | cons t ts ih =>
    obtain ⟨m, hm, hts⟩ := growTokens_cons_eq_some.1 hg
    have hrest := ih (fun u hu => hs u (List.mem_cons_of_mem t hu)) hts
    cases t with
    | last mln lits => exact absurd (hs _ List.mem_cons_self) (by simp [isSeqToken])
    | seq lits off mlf =>
      obtain ⟨-, -, rfl⟩ := growToken_seq_eq_some.1 hm
      simp only [growMatch_length, List.length_append] at hrest
      simp only [List.flatMap_cons, List.length_append, encodeToken_length, tokenSize, lenExtSize_eq]
      omega

end Sys2Proof.Machine
end

section
/-! The decoder as a function of its inputs (R114): of the stream's bytes, the history the dictionary begins, and how long
the history may get. -/

namespace Sys2Proof.Machine

/-- What one token at the head of a stream makes of a history: the end of the command, with success or with CorruptStream,
or the rest of the stream and the grown history. -/
inductive DecodeStep where
  | ended (ok : Bool) (h : List Byte)
  | goesOn (rest h : List Byte)
deriving DecidableEq, Repr

/-- The literals that are whole where the stream ends inside a token (R223, R225). -/
def cutLiterals : DecodeError → List Byte
  | .offsetCut _ lits => lits
  | .matchExtCut _ lits _ => lits
  | _ => []

/-- One token of the stream `T` on the history `h`, which may grow to `limit` bytes (R217 to R229). -/
def decodeStep (limit : Nat) (T h : List Byte) : DecodeStep :=
  match decodeToken T with
  | .ok (.seq lits off mlf, rest) =>
    if limit < (h ++ lits).length then .ended false h
    else match growToken (.seq lits off mlf) h with
      | none => .ended false (h ++ lits)
      | some g => if limit < g.length then .ended false (h ++ lits) else .goesOn rest g
  | .ok (.last _ lits, _) => if limit < (h ++ lits).length then .ended false h else .ended true (h ++ lits)
  | .error err =>
    if limit < (h ++ cutLiterals err).length then .ended false h else .ended false (h ++ cutLiterals err)

/-- The tokens of the stream `T` in order on the history `h`, at most `fuel` of them: whether they succeed, and the history
they leave (R215, R216). -/
def decodeRun (limit : Nat) : Nat → List Byte → List Byte → Bool × List Byte
  | 0, _, h => (false, h)
  | fuel + 1, T, h =>
    match decodeStep limit T h with
    | .ended ok g => (ok, g)
    | .goesOn rest g => decodeRun limit fuel rest g

theorem decodeRun_ended {limit fuel : Nat} {T h g : List Byte} {ok : Bool} (hs : decodeStep limit T h = .ended ok g) :
    decodeRun limit (fuel + 1) T h = (ok, g) := by
  rw [decodeRun, hs]

theorem decodeRun_goesOn {limit fuel : Nat} {T h rest g : List Byte} (hs : decodeStep limit T h = .goesOn rest g) :
    decodeRun limit (fuel + 1) T h = decodeRun limit fuel rest g := by
  rw [decodeRun, hs]

/-- A sequence token that grows the history within the limit goes on. -/
theorem decodeStep_encodeToken_seq {limit : Nat} {lits h g rest : List Byte} {off : BitVec 16} {mlf : Nat}
    (hg : growToken (.seq lits off mlf) h = some g) (hle : g.length ≤ limit) :
    decodeStep limit (encodeToken (.seq lits off mlf) ++ rest) h = .goesOn rest g := by
  have hlits : (h ++ lits).length ≤ limit := by
    obtain ⟨-, -, rfl⟩ := growToken_seq_eq_some.1 hg
    rw [growMatch_length] at hle; omega
  simp only [decodeStep, decodeToken_encodeToken_seq, hg, if_neg (Nat.not_lt.2 hle), if_neg (Nat.not_lt.2 hlits)]

/-- A stream that grows a history within the limit is decoded to what it grows (R232). -/
theorem decodeRun_of_growTokens {limit : Nat} {mln : BitVec 4} {lits : List Byte} {seqs : List Token}
    (hs : ∀ t ∈ seqs, isSeqToken t = true) {h g : List Byte} (hg : growTokens (seqs ++ [.last mln lits]) h = some g)
    (hle : g.length ≤ limit) {fuel : Nat} (hf : (seqs.flatMap encodeToken).length < fuel) :
    decodeRun limit fuel (seqs.flatMap encodeToken ++ encodeToken (.last mln lits)) h = (true, g) := by
  induction seqs generalizing h fuel with
  | nil =>
    obtain ⟨fuel, rfl⟩ := Nat.exists_eq_add_of_lt hf
    cases hg
    apply decodeRun_ended
    rw [List.flatMap_nil, List.nil_append]
    simp only [decodeStep, decodeToken_encodeToken_last, if_neg (Nat.not_lt.2 hle)]
  | cons t seqs ih =>
    obtain ⟨fuel, rfl⟩ := Nat.exists_eq_add_of_lt (Nat.zero_lt_of_lt hf)
    obtain ⟨m, hm, hts⟩ := growTokens_cons_eq_some.1 hg
    have hml : m.length ≤ limit := Nat.le_trans (growTokens_length_le hts) hle
    cases t with
    | last mln lits => exact absurd (hs _ List.mem_cons_self) (by simp [isSeqToken])
    | seq ls off mlf =>
      simp only [List.flatMap_cons, List.length_append, encodeToken_length, tokenSize] at hf
      rw [List.flatMap_cons, List.append_assoc, Nat.zero_add,
        decodeRun_goesOn (decodeStep_encodeToken_seq hm hml)]
      exact ih (fun u hu => hs u (List.mem_cons_of_mem _ hu)) hts (by omega)

/-- A stream that expands within the limit is decoded to what it expands to (R215, R232). -/
theorem decodeRun_of_expands {D T out : List Byte} (hx : Expands D T out) {limit : Nat}
    (hle : (D ++ out).length ≤ limit) : decodeRun limit (T.length + 1) T D = (true, D ++ out) := by
  obtain ⟨seqs, mln, lits, hs, rfl, hg⟩ := hx
  exact decodeRun_of_growTokens hs hg hle (by rw [List.length_append]; omega)

end Sys2Proof.Machine
end

section
/-! The machine's decoder runs `decodeRun`: a running DECOMPRESS keeps its stream and dictionary in memory and its output at
DST_ADDR (R60, R215), and each round does what `decodeStep` says. -/

namespace Sys2Proof.Machine

/-! ### The decoder's reads and writes -/

/-- The tail of a byte string in memory. -/
theorem readBytes_drop (m : Memory) (a n i : Nat) : readBytes m (a + i) (n - i) = (readBytes m a n).drop i := by
  induction i generalizing a n with
  | zero => rfl
  | succ i ih =>
    cases n with
    | zero => simp [readBytes]
    | succ n =>
      rw [readBytes, List.drop_succ_cons, ← ih, show a + 1 + i = a + (i + 1) by omega, Nat.add_sub_add_right]

theorem readBytes_add_one (m : Memory) (a n : Nat) : readBytes m a (n + 1) = readBytes m a n ++ [readByte m (a + n)] := by
  induction n generalizing a with
  | zero => rfl
  | succ n ih => rw [readBytes, ih, readBytes, List.cons_append, Nat.add_right_comm, Nat.add_assoc]

theorem readBytes_getD (m : Memory) {a n j : Nat} (h : j < n) : (readBytes m a n).getD j 0 = readByte m (a + j) := by
  rw [List.getD_eq_getElem?_getD, readBytes_getElem? m h, Option.getD_some]

/-- A write in one range leaves a range apart from it alone (R60). -/
theorem readBytes_writeByte_of_apart {r q : Region} (h : r.overlaps q = false) {a : Nat} (ha : r.base ≤ a)
    (ha' : a < r.base + r.len) (m : Memory) (b : Byte) :
    readBytes (writeByte m a b) q.base q.len = readBytes m q.base q.len := by
  refine readBytes_congr fun x hx hx' => readByte_writeByte_ne m b ?_
  rintro rfl
  simp only [Region.overlaps, Bool.and_eq_false_iff, decide_eq_false_iff_not] at h
  omega

/-- The dictionary lies right below its end (R57, R58). -/
theorem dictRegion_base_add_len {d : DictMode} {l : Latch} (hs : rangesInSpace .decompress d l = true)
    (hd : 0 < (dictRegion .decompress d l).len) :
    (dictRegion .decompress d l).base + (dictRegion .decompress d l).len = dictEnd .decompress d l := by
  cases d with
  | noDict => exact absurd hd (Nat.lt_irrefl 0)
  | withPrefix64k =>
    have hle : dictLenUsed l ≤ prefixEnd .decompress l := by
      simp only [rangesInSpace, Bool.and_eq_true, decide_eq_true_eq] at hs
      exact hs.2
    exact Nat.sub_add_cancel hle
  | usingExtDict =>
    have hle : dictLenUsed l ≤ l.dictAddr.toNat + l.dictLen.toNat :=
      Nat.le_trans (Nat.min_le_left _ _) (Nat.le_add_left _ _)
    exact Nat.sub_add_cancel hle

/-! ### A running decoder -/

/-- A DECOMPRESS runs on the stream `T` with the dictionary `D`, and has written `out`. -/
structure Decoding (s : State) (T D out : List Byte) : Prop where
  busy    : s.busy = true
  inSpace : rangesInSpace .decompress s.dm s.latch = true
  apart   : rangesApart .decompress s.dm s.latch = true
  wf      : memoryWf s.mem = true
  src     : srcBytes s.latch s.mem = T
  dict    : dictBytes .decompress s.dm s.latch s.mem = D
  op      : s.dec.op = out.length
  room    : out.length ≤ capacity .decompress s.latch
  written : readBytes s.mem s.latch.dstAddr.toNat out.length = out

/-- A DECOMPRESS has ended, with success or with CorruptStream, and its output is `out` (R94, R233). -/
structure DecodeEnded (t : State) (ok : Bool) (out : List Byte) : Prop where
  status    : t.status = if ok then doneWord else errorWord .corruptStream
  resultLen : t.resultLen = BitVec.ofNat 64 out.length
  room      : out.length ≤ capacity .decompress t.latch
  written   : readBytes t.mem t.latch.dstAddr.toNat out.length = out

section
variable {s t : State} {T D out lits : List Byte} {off : BitVec 16} {mlf n : Nat}

/-- Where the running command begins (R97, R215). -/
theorem decoding_beginDecode {d : DictMode} (hr : Running .decompress d s) (hwf : memoryWf s.mem = true) :
    Decoding (beginDecode d s) (srcBytes s.latch s.mem) (dictBytes .decompress d s.latch s.mem) [] := by
  obtain ⟨hs, ha, -⟩ := checkCommand_none hr.2
  exact ⟨hr.1, hs, ha, hwf, rfl, rfl, rfl, Nat.zero_le _, rfl⟩

/-- The decoder's registers but op do not count. -/
theorem Decoding.setDec (h : Decoding s T D out) {dec : Decoder} (hop : dec.op = s.dec.op) :
    Decoding { s with dec := dec } T D out :=
  ⟨h.busy, h.inSpace, h.apart, h.wf, h.src, h.dict, hop.trans h.op, h.room, h.written⟩

theorem Decoding.streamAt (h : Decoding s T D out) : streamAt s = T.drop s.dec.i := by
  rw [← h.src]
  exact readBytes_drop ..

theorem Decoding.decoderDictLen (h : Decoding s T D out) : decoderDictLen s = D.length := by
  rw [← h.dict]
  exact (readBytes_length ..).symm

theorem Decoding.capacityLeft (h : Decoding s T D out) :
    capacityLeft s = capacity .decompress s.latch - out.length := by
  rw [Machine.capacityLeft, h.op]

theorem Decoding.raiseCorrupt (h : Decoding s T D out) : DecodeEnded (raiseCorrupt s) false out :=
  ⟨rfl, congrArg (BitVec.ofNat 64) h.op, h.room, h.written⟩

theorem Decoding.endOk (h : Decoding s T D out) : DecodeEnded (endOk s.dec.op s) true out :=
  ⟨rfl, congrArg (BitVec.ofNat 64) h.op, h.room, h.written⟩

/-! ### Writing output -/

theorem Decoding.writeOut (h : Decoding s T D out) (b : Byte) (hlt : out.length < capacity .decompress s.latch) :
    Decoding (writeOut b s) T D (out ++ [b]) := by
  have hin := h.inSpace
  have hap := h.apart
  simp only [rangesInSpace, Bool.and_eq_true, decide_eq_true_eq] at hin
  simp only [rangesApart, Bool.and_eq_true, Bool.not_eq_true'] at hap
  obtain ⟨⟨⟨-, hdst⟩, -⟩, -⟩ := hin
  obtain ⟨hsrc, hdict⟩ := hap
  have hspace : s.latch.dstAddr.toNat + out.length < Config.addrSpace := by
    simp only [dstRegion] at hdst; omega
  have hlo : (dstRegion .decompress s.latch).base ≤ s.latch.dstAddr.toNat + out.length := Nat.le_add_right _ _
  have hhi : s.latch.dstAddr.toNat + out.length <
      (dstRegion .decompress s.latch).base + (dstRegion .decompress s.latch).len := Nat.add_lt_add_left hlt _
  refine ⟨h.busy, h.inSpace, h.apart, ?_, ?_, ?_, ?_, ?_, ?_⟩
  · rw [writeOut_mem, h.op]
    exact writeByte_wf h.wf hspace b
  · rw [writeOut_mem, writeOut_latch, h.op, ← h.src]
    exact readBytes_writeByte_of_apart hsrc hlo hhi s.mem b
  · rw [writeOut_mem, writeOut_latch, writeOut_dm, h.op, ← h.dict]
    exact readBytes_writeByte_of_apart hdict hlo hhi s.mem b
  · rw [writeOut_dec, List.length_append]
    exact congrArg (· + 1) h.op
  · rw [List.length_append]
    exact hlt
  · have hbefore : readBytes (writeByte s.mem (s.latch.dstAddr.toNat + out.length) b) s.latch.dstAddr.toNat out.length =
        out := by
      rw [readBytes_congr fun x _ hx => readByte_writeByte_ne s.mem b (Nat.ne_of_lt hx)]
      exact h.written
    rw [writeOut_mem, writeOut_latch, h.op, List.length_append, List.length_singleton, readBytes_add_one, hbefore,
      readByte_writeByte_same h.wf]

theorem Decoding.copyLiterals (h : Decoding s T D out) (lits : List Byte)
    (hle : (out ++ lits).length ≤ capacity .decompress s.latch) : Decoding (copyLiterals lits s) T D (out ++ lits) := by
  induction lits generalizing s out with
  | nil => rwa [List.append_nil]
  | cons b lits ih =>
    rw [List.append_cons] at hle ⊢
    refine ih (h.writeOut b ?_) hle
    simp only [List.length_append, List.length_singleton] at hle; omega

/-- The history is the dictionary and then the output (R229). -/
theorem Decoding.historyByte (h : Decoding s T D out) (hoff : off ≠ 0#16) (hle : off.toNat ≤ (D ++ out).length) :
    historyByte s off.toNat = (D ++ out).getD ((D ++ out).length - off.toNat) 0 := by
  have hpos : off.toNat ≠ 0 := fun h0 => hoff (BitVec.eq_of_toNat_eq h0)
  rw [List.length_append] at hle ⊢
  rw [Machine.historyByte, h.op]
  by_cases hc : off.toNat ≤ out.length
  · rw [if_pos hc, List.getD_append_right _ _ _ _ (by omega), ← readBytes_getD (n := out.length) _ (by omega), h.written,
      show D.length + out.length - off.toNat - D.length = out.length - off.toNat by omega]
  · have hlen : D.length = (dictRegion .decompress s.dm s.latch).len := h.decoderDictLen.symm
    have hend := dictRegion_base_add_len h.inSpace (by omega)
    have hget := readBytes_getD s.mem (a := (dictRegion .decompress s.dm s.latch).base)
      (n := (dictRegion .decompress s.dm s.latch).len) (j := D.length + out.length - off.toNat) (by omega)
    rw [← dictBytes, h.dict] at hget
    rw [if_neg hc, List.getD_append _ _ _ _ (by omega), hget]
    congr 1
    omega

/-- The match copy grows the history as a match does (R229). -/
theorem Decoding.copyMatch (h : Decoding s T D out) (hoff : off ≠ 0#16) (hle : off.toNat ≤ (D ++ out).length)
    (hroom : out.length + n ≤ capacity .decompress s.latch) :
    ∃ out', growMatch off.toNat n (D ++ out) = D ++ out' ∧ Decoding (copyMatch off.toNat n s) T D out' := by
  induction n generalizing s out with
  | zero => exact ⟨out, rfl, h⟩
  | succ n ih =>
    rw [growMatch, Machine.copyMatch, h.historyByte hoff hle, List.append_assoc]
    refine ih (h.writeOut _ (by omega)) ?_ ?_
    · simp only [List.length_append] at hle ⊢; omega
    · rw [List.length_append, List.length_singleton, Nat.add_assoc, Nat.add_comm 1 n]; exact hroom

/-! ### A round -/

/-- The literal part fails where the literals do not fit, with nothing written, or writes them (R221). -/
theorem Decoding.literalPart (h : Decoding s T D out) (tok : Byte) (lits : List Byte) :
    (D.length + capacity .decompress s.latch < (D ++ out ++ lits).length ∧
      ∃ t, literalPart tok lits s = .error t ∧ DecodeEnded t false out) ∨
    ((D ++ out ++ lits).length ≤ D.length + capacity .decompress s.latch ∧
      ∃ t, literalPart tok lits s = .ok t ∧ Decoding t T D (out ++ lits) ∧ t.latch = s.latch ∧
        t.dec.i = s.dec.i + (1 + lenExtSize lits.length) + lits.length) := by
  have h1 : Decoding (takeToken tok lits.length (1 + lenExtSize lits.length) s) T D out := h.setDec rfl
  have hleft := h1.capacityLeft
  simp only [takeToken_latch] at hleft
  simp only [Machine.literalPart, List.length_append, hleft]
  by_cases hc : capacity .decompress s.latch - out.length < lits.length
  · rw [if_pos hc]
    exact .inl ⟨by omega, _, rfl, h1.raiseCorrupt⟩
  · rw [if_neg hc]
    have hroom := h.room
    refine .inr ⟨by omega, _, rfl, (h1.copyLiterals lits ?_).setDec rfl, ?_, ?_⟩
    · rw [List.length_append, takeToken_latch]; omega
    · exact (copyLiterals_wrote lits _).latch
    · simp [copyLiterals_dec]

/-- The match part goes on where the offset is legal and the match fits, and is corrupt otherwise (R224, R227). -/
theorem Decoding.matchPart (h : Decoding s T D out) (off : BitVec 16) (mlf : Nat) :
    (off ≠ 0#16 ∧ off.toNat ≤ (D ++ out).length ∧
        (D ++ out).length + (mlf + 4) ≤ D.length + capacity .decompress s.latch →
      ∃ out', growMatch off.toNat (mlf + 4) (D ++ out) = D ++ out' ∧ Decoding (matchPart off mlf s) T D out' ∧
        (matchPart off mlf s).dec.i = s.dec.i + 2 + lenExtSize mlf) ∧
    (¬ (off ≠ 0#16 ∧ off.toNat ≤ (D ++ out).length ∧
        (D ++ out).length + (mlf + 4) ≤ D.length + capacity .decompress s.latch) →
      DecodeEnded (matchPart off mlf s) false out) := by
  have h1 : Decoding { s with dec := { s.dec with i := s.dec.i + 2, off := off } } T D out := h.setDec rfl
  have h2 : Decoding { s with
      dec := { s.dec with i := s.dec.i + 2 + lenExtSize mlf, ml := mlf + 4, off := off } } T D out := h.setDec rfl
  have hdl := h1.decoderDictLen
  have hleft := h2.capacityLeft
  have hop := h.op
  have hroom := h.room
  simp only [Machine.matchPart, hdl, hleft, Config.minMatch, List.length_append]
  by_cases hoff : off = 0#16
  · rw [if_pos hoff]
    exact ⟨fun hc => absurd hoff hc.1, fun _ => h1.raiseCorrupt⟩
  rw [if_neg hoff]
  by_cases hfar : s.dec.op + D.length < off.toNat
  · rw [if_pos hfar]
    exact ⟨fun hc => absurd hc.2.1 (by omega), fun _ => h1.raiseCorrupt⟩
  rw [if_neg hfar]
  by_cases hfit : capacity .decompress s.latch - out.length < mlf + 4
  · rw [if_pos hfit]
    exact ⟨fun hc => absurd hc.2.2 (by omega), fun _ => h2.raiseCorrupt⟩
  rw [if_neg hfit]
  refine ⟨fun hc => ?_, fun hc => absurd ⟨hoff, by omega, by omega⟩ hc⟩
  have hn : out.length + (mlf + 4) ≤ capacity .decompress s.latch := by omega
  obtain ⟨out', hg, hd⟩ := h2.copyMatch hoff (by rw [List.length_append]; omega) hn
  exact ⟨out', hg, hd, by rw [copyMatch_dec]⟩

/-- The state `t` a round leaves is what `decodeStep` answers. -/
def RoundLeaves (T D : List Byte) (t : State) : DecodeStep → Prop
  | .ended ok g => ∃ out, g = D ++ out ∧ DecodeEnded t ok out
  | .goesOn rest g => ∃ out, g = D ++ out ∧ Decoding t T D out ∧ Machine.streamAt t = rest

theorem Decoding.tokenSeqState (h : Decoding s T D out) {rest : List Byte}
    (ht : decodeToken (Machine.streamAt s) = .ok (.seq lits off mlf, rest)) :
    RoundLeaves T D (tokenSeqState lits off mlf s)
      (decodeStep (D.length + capacity .decompress s.latch) (Machine.streamAt s) (D ++ out)) := by
  simp only [decodeStep, ht, Machine.tokenSeqState]
  rcases h.literalPart (tokenByte (lenNibble lits.length) (lenNibble mlf)) lits with
    ⟨hlt, t, hp, he⟩ | ⟨hle, t, hp, hd, hl, hi⟩
  · rw [hp, if_pos hlt]
    exact ⟨out, rfl, he⟩
  rw [hp, if_neg (Nat.not_lt.2 hle)]
  obtain ⟨hgo, hbad⟩ := hd.matchPart off mlf
  rw [hl, ← List.append_assoc] at hgo hbad
  have hrest : rest = T.drop (t.dec.i + 2 + lenExtSize mlf) := by
    have henc := eq_encodeToken_of_decodeToken ht
    rw [h.streamAt] at henc
    have hlen : t.dec.i + 2 + lenExtSize mlf = s.dec.i + (encodeToken (.seq lits off mlf)).length := by
      rw [encodeToken_length, tokenSize, hi]; omega
    rw [hlen, ← List.drop_drop, henc, List.drop_left]
  cases hg : growToken (.seq lits off mlf) (D ++ out) with
  | none =>
    refine ⟨out ++ lits, List.append_assoc .., hbad fun hc => ?_⟩
    have := (growToken_seq_eq_some (mlf := mlf)).2 ⟨hc.1, hc.2.1, rfl⟩
    rw [hg] at this
    cases this
  | some g =>
    obtain ⟨hoff, hfar, rfl⟩ := growToken_seq_eq_some.1 hg
    simp only [growMatch_length]
    by_cases hfit : D.length + capacity .decompress s.latch < (D ++ out ++ lits).length + (mlf + 4)
    · rw [if_pos hfit]
      exact ⟨out ++ lits, List.append_assoc .., hbad fun hc => absurd hc.2.2 (Nat.not_le.2 hfit)⟩
    · rw [if_neg hfit]
      obtain ⟨out', hg', hd', hi'⟩ := hgo ⟨hoff, hfar, Nat.le_of_not_lt hfit⟩
      exact ⟨out', hg', hd', by rw [hd'.streamAt, hi', hrest]⟩

theorem Decoding.tokenLastState (h : Decoding s T D out) {mln : BitVec 4} {rest : List Byte}
    (ht : decodeToken (Machine.streamAt s) = .ok (.last mln lits, rest)) :
    RoundLeaves T D (tokenLastState mln lits s)
      (decodeStep (D.length + capacity .decompress s.latch) (Machine.streamAt s) (D ++ out)) := by
  simp only [decodeStep, ht, Machine.tokenLastState]
  rcases h.literalPart (tokenByte (lenNibble lits.length) mln.toNat) lits with
    ⟨hlt, t, hp, he⟩ | ⟨hle, t, hp, hd, -, -⟩
  · rw [hp, if_pos hlt]
    exact ⟨out, rfl, he⟩
  · rw [hp, if_neg (Nat.not_lt.2 hle)]
    exact ⟨out ++ lits, List.append_assoc .., hd.endOk⟩

/-- A cut token is corrupt, its literals written where they are whole and fit (R217 to R225). -/
theorem Decoding.tokenErrorState (h : Decoding s T D out) (err : DecodeError) :
    (D.length + capacity .decompress s.latch < (D ++ out ++ cutLiterals err).length ∧
      DecodeEnded (tokenErrorState err s) false out) ∨
    ((D ++ out ++ cutLiterals err).length ≤ D.length + capacity .decompress s.latch ∧
      DecodeEnded (tokenErrorState err s) false (out ++ cutLiterals err)) := by
  have hroom : (D ++ out ++ []).length ≤ D.length + capacity .decompress s.latch := by
    have := h.room
    rw [List.append_nil, List.length_append]; omega
  have hnone : ∀ dec : Decoder, dec.op = s.dec.op →
      DecodeEnded (Machine.raiseCorrupt { s with dec := dec }) false (out ++ []) := fun dec hop => by
    rw [List.append_nil]
    exact (h.setDec hop).raiseCorrupt
  cases err with
  | reservedBits => exact .inr ⟨hroom, hnone s.dec rfl⟩
  | reservedOp => exact .inr ⟨hroom, hnone s.dec rfl⟩
  | reservedDict => exact .inr ⟨hroom, hnone s.dec rfl⟩
  | notOneWord => exact .inr ⟨hroom, hnone s.dec rfl⟩
  | noToken => exact .inr ⟨hroom, hnone s.dec rfl⟩
  | literalExtCut tok => exact .inr ⟨hroom, hnone _ rfl⟩
  | literalsCut tok ll => exact .inr ⟨hroom, hnone _ rfl⟩
  | offsetCut tok lits =>
    simp only [Machine.tokenErrorState, cutLiterals]
    rcases h.literalPart tok lits with ⟨hlt, t, hp, he⟩ | ⟨hle, t, hp, hd, -, -⟩ <;> rw [hp]
    · exact .inl ⟨hlt, he⟩
    · exact .inr ⟨hle, hd.raiseCorrupt⟩
  | matchExtCut tok lits off =>
    simp only [Machine.tokenErrorState, cutLiterals]
    rcases h.literalPart tok lits with ⟨hlt, t, hp, he⟩ | ⟨hle, t, hp, hd, -, -⟩ <;> rw [hp]
    · exact .inl ⟨hlt, he⟩
    · exact .inr ⟨hle, (hd.setDec (dec := { t.dec with i := t.latch.srcLen.toNat, off := off }) rfl).raiseCorrupt⟩

/-- A round does what `decodeStep` says (R215). -/
theorem Decoding.tokenRound (h : Decoding s T D out) :
    ∃ t, tokenRound s = .next t ∧ RoundLeaves T D t
      (decodeStep (D.length + capacity .decompress s.latch) (Machine.streamAt s) (D ++ out)) := by
  cases ht : decodeToken (Machine.streamAt s) with
  | error err =>
    refine ⟨Machine.tokenErrorState err s, by simp only [Machine.tokenRound, ht], ?_⟩
    simp only [decodeStep, ht]
    rcases h.tokenErrorState err with ⟨hlt, he⟩ | ⟨hle, he⟩
    · rw [if_pos hlt]
      exact ⟨out, rfl, he⟩
    · rw [if_neg (Nat.not_lt.2 hle)]
      exact ⟨out ++ cutLiterals err, List.append_assoc .., he⟩
  | ok p =>
    obtain ⟨token, rest⟩ := p
    cases token with
    | seq lits off mlf =>
      exact ⟨_, by simp only [Machine.tokenRound, ht, execTokenSeq, h.inSpace, if_true], h.tokenSeqState ht⟩
    | last mln lits =>
      exact ⟨_, by simp only [Machine.tokenRound, ht, execTokenLast, h.inSpace, if_true], h.tokenLastState ht⟩

theorem DecodeEnded.not_busy {ok : Bool} (h : DecodeEnded t ok out) : t.busy = false := by
  cases ok <;> simp [State.busy, h.status]

end

/-! ### A whole DECOMPRESS -/

/-- A sequence token leaves less of the stream than there was. -/
theorem decodeStep_goesOn_length {limit : Nat} {T h rest g : List Byte} (hs : decodeStep limit T h = .goesOn rest g) :
    rest.length < T.length := by
  unfold decodeStep at hs
  split at hs
  · rename_i lits off mlf rest' ht
    have henc := congrArg List.length (eq_encodeToken_of_decodeToken ht)
    rw [List.length_append, encodeToken_length, tokenSize] at henc
    split at hs
    · cases hs
    · split at hs
      · cases hs
      · split at hs
        · cases hs
        · cases hs; omega
  · split at hs <;> cases hs
  · split at hs <;> cases hs

/-- The rounds do what `decodeRun` says (R215, R216). -/
theorem Decoding.decodeLoop {s : State} {T D out : List Byte} (h : Decoding s T D out) {fuel : Nat}
    (hf : (Machine.streamAt s).length < fuel) :
    ∃ t ok out', decodeLoop fuel s = .next t ∧ DecodeEnded t ok out' ∧
      decodeRun (D.length + capacity .decompress s.latch) fuel (Machine.streamAt s) (D ++ out) = (ok, D ++ out') := by
  induction fuel generalizing s out with
  | zero => omega
  | succ fuel ih =>
    obtain ⟨t, ht, hl⟩ := h.tokenRound
    obtain ⟨u, hu, ⟨n, -, hw⟩, -⟩ := tokenRound_step h.inSpace
    have htu : t = u := by rw [ht] at hu; cases hu; rfl
    rw [Machine.decodeLoop, ht]
    cases hs : decodeStep (D.length + capacity .decompress s.latch) (Machine.streamAt s) (D ++ out) with
    | ended ok g =>
      rw [hs] at hl
      obtain ⟨out', rfl, he⟩ := hl
      exact ⟨t, ok, out', by simp only [he.not_busy]; rfl, he, decodeRun_ended hs⟩
    | goesOn rest g =>
      have hlt := decodeStep_goesOn_length hs
      rw [hs] at hl
      obtain ⟨out', rfl, hd, rfl⟩ := hl
      obtain ⟨v, ok, out'', hv, he, hrun⟩ := ih hd (by omega)
      refine ⟨v, ok, out'', by simp only [hd.busy, if_true]; exact hv, he, ?_⟩
      rw [decodeRun_goesOn hs, ← hrun, htu, hw.latch]

/-- A running DECOMPRESS ends as `decodeRun` says of its stream, its dictionary and its capacity, and leaves the engine with
the hash table as it was (R114, R215, R232, R233). -/
theorem exec_decompress_eq_decodeRun {s : State} {i : Instr} {d : DictMode} {w : Word} (hi : DecompressForm i d w)
    (hr : Running .decompress d s) (hwf : memoryWf s.mem = true) :
    ∃ t ok out, exec i s = .next t ∧
      decodeRun ((dictBytes .decompress d s.latch s.mem).length + s.latch.dstCap.toNat)
        ((srcBytes s.latch s.mem).length + 1) (srcBytes s.latch s.mem) (dictBytes .decompress d s.latch s.mem) =
          (ok, dictBytes .decompress d s.latch s.mem ++ out) ∧
      t.status = (if ok then doneWord else errorWord .corruptStream) ∧ t.resultLen.toNat = out.length ∧
      readBytes t.mem s.latch.dstAddr.toNat out.length = out ∧ t.engine = s.engine := by
  obtain ⟨rfl, -⟩ := decompressForm_iff.1 hi
  have hsp := (checkCommand_none hr.2).1
  have h := decoding_beginDecode hr hwf
  have hlen : (srcBytes s.latch s.mem).length = s.latch.srcLen.toNat := readBytes_length ..
  have hstream : streamAt (beginDecode d s) = srcBytes s.latch s.mem := h.streamAt
  obtain ⟨t, ok, out, ht, he, hrun⟩ := h.decodeLoop (fuel := s.latch.srcLen.toNat + 1) (by rw [hstream, hlen]; omega)
  obtain ⟨u, hu, -, hw, -, -⟩ := completeDecompress_ends hsp hr.1
  have hcomp : completeDecompress d s = .next t := by rw [completeDecompress, if_pos hsp, ht]
  have htu : t = u := by rw [hcomp] at hu; cases hu; rfl
  rw [hstream, List.append_nil, ← hlen] at hrun
  refine ⟨t, ok, out, ?_, hrun, he.status, ?_, ?_, ?_⟩
  · rw [exec_commandOf, if_pos hr.1]
    exact hcomp
  · have hlt : out.length < 2 ^ 64 := Nat.lt_of_le_of_lt he.room t.latch.dstCap.isLt
    rw [he.resultLen, BitVec.toNat_ofNat, Nat.mod_eq_of_lt hlt]
  · have := he.written
    rwa [htu, hw.latch, ← htu] at this
  · rw [htu, hw.rest]; rfl

end Sys2Proof.Machine
end

section
/-! The statement about DECOMPRESS as a function of its inputs (R114). -/

namespace Sys2Proof.Machine

/-- Settles O46: both runs end as `decodeRun` says of the same stream, dictionary and capacity. -/
theorem decompressIsAFunctionOfItsInputs : Obligations.DecompressIsAFunctionOfItsInputs := by
  unfold Obligations.DecompressIsAFunctionOfItsInputs
  intro s s' i d w hi hr hr' hwf hwf' hsrc hdict hcap
  obtain ⟨t, ok, out, ht, hrun, hst, hlen, hout, heng⟩ := exec_decompress_eq_decodeRun hi hr hwf
  obtain ⟨t', ok', out', ht', hrun', hst', hlen', hout', heng'⟩ := exec_decompress_eq_decodeRun hi hr' hwf'
  rw [← hsrc, ← hdict, ← hcap, hrun] at hrun'
  obtain ⟨rfl, hD⟩ := Prod.mk.inj hrun'
  obtain rfl := List.append_cancel_left hD
  exact ⟨t, t', ht, ht', hst.trans hst'.symm, BitVec.eq_of_toNat_eq (hlen.trans hlen'.symm),
    by rw [hlen, hlen', hout, hout'], heng, heng'⟩

end Sys2Proof.Machine
end

section
/-! A chunk and the dictionary in front of it as one byte string (R38), the matches in it, and the hash table's positions
(R276): a valid candidate is a match behind its position, catch-up keeps it one that ends where it ended, and its token grows
the history over it. -/

namespace Sys2Proof.Machine

/-! ### The index space -/

/-- What the virtual indices of a mode lie above the places in the dictionary and chunk (R38). -/
def indexBias (dm : DictMode) : Nat := if dm = .noDict then 0 else Config.dictBias

/-- The chunk `ch` compresses `C` behind the dictionary `D` (R38, R200, R201). -/
structure ChunkOver (ch : Chunk) (D C : List Byte) : Prop where
  n      : ch.n = C.length
  noDict : ch.dm = .noDict → D = []
  sb     : ch.sb = indexBias ch.dm + D.length
  bytes  : ∀ q, ch.bytes (indexBias ch.dm + q) = (D ++ C).getD q 0
  dl     : ch.dm ≠ .noDict → ch.dl = D.length
  accel  : 1 ≤ ch.accel

theorem virtualByte_eq {dm : DictMode} {D : List Byte} (hD : dm = .noDict → D = []) (C : List Byte) (q : Nat) :
    virtualByte dm D C (indexBias dm + q) = (D ++ C).getD q 0 := by
  have hdict : (if Config.dictBias + q < Config.dictBias + D.length then D.getD (Config.dictBias + q - Config.dictBias) 0
      else C.getD (Config.dictBias + q - (Config.dictBias + D.length)) 0) = (D ++ C).getD q 0 := by
    split
    · rw [List.getD_append _ _ _ _ (by omega), Nat.add_sub_cancel_left]
    · rw [List.getD_append_right _ _ _ _ (by omega), Nat.add_sub_add_left]
  cases dm with
  | noDict => simp [virtualByte, indexBias, hD rfl]
  | withPrefix64k => exact hdict
  | usingExtDict => exact hdict

theorem chunkOver_chunkOf (P : Config.Params) (C : List Byte) {D : List Byte} {dm : DictMode}
    (hD : dm = .noDict → D = []) {accel : Nat} (ha : 1 ≤ accel) (final : Bool) (cap : Nat) :
    ChunkOver (chunkOf P C D dm accel final cap) D C where
  n := rfl
  noDict := hD
  sb := by
    cases dm with
    | noDict => simp [chunkOf, sourceBase, indexBias, hD rfl]
    | withPrefix64k => rfl
    | usingExtDict => rfl
  bytes := virtualByte_eq hD C
  dl := fun h => by
    cases dm with
    | noDict => exact absurd rfl h
    | withPrefix64k => rfl
    | usingExtDict => rfl
  accel := ha

section
variable {ch : Chunk} {D C : List Byte} {p c : Nat}

theorem ChunkOver.bytes_eq (h : ChunkOver ch D C) {v : Nat} (hv : indexBias ch.dm ≤ v) :
    ch.bytes v = (D ++ C).getD (v - indexBias ch.dm) 0 := by
  rw [← h.bytes, Nat.add_sub_cancel' hv]

/-- The source bytes between two positions (R165). -/
theorem ChunkOver.sourceSlice (h : ChunkOver ch D C) {a b : Nat} (hb : b ≤ ch.n) :
    sourceSlice ch a b = (C.take b).drop a := by
  rw [h.n] at hb
  have hlen : ((C.take b).drop a).length = b - a := by
    rw [List.length_drop, List.length_take, Nat.min_eq_left hb]
  rw [sourceSlice_eq]
  refine List.ext_getElem (by rw [hlen]; simp) fun j hj hj' => ?_
  rw [hlen] at hj'
  simp only [List.getElem_map, List.getElem_range, List.getElem_drop, List.getElem_take]
  rw [h.sb, Nat.add_assoc, h.bytes, List.getD_append_right _ _ _ _ (Nat.le_add_right _ _), Nat.add_sub_cancel_left,
    List.getD_eq_getElem _ _ (by omega)]

/-! ### Matches -/

/-- The four bytes at position `p` are those at the candidate `c`, which lies behind it within an offset's reach and not
below the dictionary (R144 to R147). -/
structure MatchAt (ch : Chunk) (p c : Nat) : Prop where
  low   : indexBias ch.dm ≤ c
  below : c < ch.sb + p
  near  : ch.sb + p ≤ c + Config.maxDistance
  four  : ∀ j, j < 4 → ch.bytes (c + j) = ch.bytes (ch.sb + p + j)

theorem fourEqual_iff {X : Nat → Byte} {a b : Nat} : fourEqual X a b = true ↔ ∀ j, j < 4 → X (a + j) = X (b + j) := by
  simp only [fourEqual, Bool.and_eq_true, beq_iff_eq]
  constructor
  · rintro ⟨⟨⟨h0, h1⟩, h2⟩, h3⟩ j hj
    obtain rfl | rfl | rfl | rfl : j = 0 ∨ j = 1 ∨ j = 2 ∨ j = 3 := by omega
    exacts [h0, h1, h2, h3]
  · exact fun h => ⟨⟨⟨h 0 (by omega), h 1 (by omega)⟩, h 2 (by omega)⟩, h 3 (by omega)⟩

/-- A candidate that passes the clauses of validity is not below the dictionary (R145, R146). -/
theorem ChunkOver.matchAt (h : ChunkOver ch D C) (hdict : belowDict ch c = false) (hbelow : c < ch.sb + p)
    (hnear : ch.sb + p ≤ c + Config.maxDistance) (hfour : fourEqual ch.bytes c (ch.sb + p) = true) : MatchAt ch p c := by
  refine ⟨?_, hbelow, hnear, fourEqual_iff.1 hfour⟩
  have hsb := h.sb
  simp only [Config.maxDistance] at hnear
  simp only [indexBias, Config.dictBias] at hsb ⊢
  split
  · exact Nat.zero_le _
  · rename_i hdm
    have hdl := h.dl hdm
    rw [if_neg hdm] at hsb
    rcases Nat.lt_or_ge ch.dl Config.dictWindow with hsmall | hlarge
    · have : Config.dictBias ≤ c := by simpa [belowDict, hdm, hsmall] using hdict
      exact this
    · simp only [Config.dictWindow] at hlarge; omega

/-- In U16 mode a chunk is so short that every offset in it is in reach (R126). -/
theorem selectMode_u16 {P : Config.Params} {n : Nat} {dm : DictMode} (h : selectMode P n dm = .u16) :
    dm = .noDict ∧ n < Config.u16Limit := by
  unfold selectMode at h
  split at h
  · cases h
  · rename_i hdm
    split at h
    · exact ⟨not_not.1 hdm, ‹_›⟩
    · split at h <;> cases h

/-- A valid candidate of an earlier position is a match (R144). -/
theorem ChunkOver.matchAt_of_validCandidate (h : ChunkOver ch D C) {tm : TableMode}
    (htm : tm = selectMode ch.params ch.n ch.dm) {slot : Option Nat} (hp : p + 11 ≤ ch.n)
    (hbelow : candidate slot < ch.sb + p) (hv : validCandidate ch tm slot (ch.sb + p) = true) :
    MatchAt ch p (candidate slot) := by
  simp only [validCandidate, Bool.and_eq_true, Bool.not_eq_true', Bool.and_eq_false_iff, decide_eq_false_iff_not] at hv
  obtain ⟨⟨⟨-, hdict⟩, hfar⟩, hfour⟩ := hv
  refine h.matchAt hdict hbelow ?_ hfour
  rcases hfar with hu16 | hfar
  · obtain ⟨hdm, hn⟩ := selectMode_u16 (htm.symm.trans (not_not.1 hu16))
    have hsb := h.sb
    simp only [h.noDict hdm, indexBias, hdm, if_true, List.length_nil, Config.u16Limit, Config.maxDistance] at hsb hn ⊢
    omega
  · exact Nat.le_of_not_lt (of_decide_eq_false hfar)

/-- After a match too (R188). -/
theorem ChunkOver.matchAt_of_validNext (h : ChunkOver ch D C) {tm : TableMode} {slot : Option Nat}
    (hbelow : candidate slot < ch.sb + p) (hv : validNext ch tm slot (ch.sb + p) = true) :
    MatchAt ch p (candidate slot) := by
  simp only [validNext, Bool.and_eq_true, Bool.not_eq_true'] at hv
  obtain ⟨⟨⟨-, hdict⟩, hfar⟩, hfour⟩ := hv
  exact h.matchAt hdict hbelow (Nat.le_of_not_lt (of_decide_eq_false hfar)) hfour

theorem countEqual_spec {X : Nat → Byte} {limit a b j : Nat} (hj : j < countEqual X limit a b) :
    X (a + j) = X (b + j) := by
  induction limit generalizing a b j with
  | zero => cases hj
  | succ limit ih =>
    rw [countEqual] at hj
    split at hj
    · cases j with
      | zero => assumption
      | succ j =>
        have := ih (a := a + 1) (b := b + 1) (Nat.lt_of_succ_lt_succ hj)
        rwa [Nat.add_right_comm, Nat.add_assoc, Nat.add_right_comm b, Nat.add_assoc b] at this
    · cases hj

/-- A match and its count agree over ML bytes (R151, R152). -/
theorem MatchAt.bytes_eq (h : MatchAt ch p c) {j : Nat} (hj : j < 4 + countMatch ch p c) :
    ch.bytes (c + j) = ch.bytes (ch.sb + p + j) := by
  by_cases hlt : j < 4
  · exact h.four j hlt
  · have := countEqual_spec (X := ch.bytes) (limit := ch.n - (p + Config.minMatch + Config.lastLiterals))
      (a := c + Config.minMatch) (b := ch.sb + p + Config.minMatch) (j := j - 4)
      (by simp only [countMatch] at hj; omega)
    simp only [Config.minMatch] at this
    rwa [Nat.add_assoc, Nat.add_assoc (ch.sb + p), Nat.add_sub_cancel' (Nat.le_of_not_lt hlt)] at this

/-- One step of catch-up makes the match longer by the byte in front (R150). -/
theorem MatchAt.pred (h : MatchAt ch (p + 1) c) (hlow : indexBias ch.dm < c) (hp : p + 10 ≤ ch.n)
    (heq : ch.bytes (ch.sb + p) = ch.bytes (c - 1)) :
    MatchAt ch p (c - 1) ∧ countMatch ch p (c - 1) = countMatch ch (p + 1) c + 1 := by
  obtain ⟨c, rfl⟩ : ∃ k, c = k + 1 := ⟨c - 1, by omega⟩
  have hbelow := h.below
  have hnear := h.near
  refine ⟨⟨by omega, by omega, by simp only [Config.maxDistance] at *; omega, fun j hj => ?_⟩, ?_⟩
  · cases j with
    | zero => exact heq.symm
    | succ j =>
      have := h.four j (by omega)
      rwa [← Nat.add_assoc, Nat.add_right_comm, Nat.add_right_comm (ch.sb + p), Nat.add_assoc] at this
  · have hlimit : ch.n - (p + Config.minMatch + Config.lastLiterals) =
        ch.n - (p + 1 + Config.minMatch + Config.lastLiterals) + 1 := by
      simp only [Config.minMatch, Config.lastLiterals]; omega
    rw [countMatch, hlimit, countEqual, if_pos]
    · rfl
    · exact h.four 3 (by omega)

theorem catchUpLow_ge (h : ChunkOver ch D C) (c : Nat) : indexBias ch.dm ≤ catchUpLow ch c := by
  have hsb := h.sb
  unfold indexBias at *
  split
  · exact Nat.zero_le _
  · rename_i hdm
    rw [if_neg hdm] at hsb
    unfold catchUpLow
    split
    · exact absurd ‹_› hdm
    · exact Nat.le_refl _
    · split <;> omega

/-- Catch-up keeps a match, and where it ends (R150). -/
theorem MatchAt.catchUpLoop {anchor lo : Nat} (h : MatchAt ch p c) (hlo : indexBias ch.dm ≤ lo) (hp : p + 9 ≤ ch.n) :
    MatchAt ch (catchUpLoop ch anchor lo p c).1 (catchUpLoop ch anchor lo p c).2 ∧
      (catchUpLoop ch anchor lo p c).1 + countMatch ch (catchUpLoop ch anchor lo p c).1 (catchUpLoop ch anchor lo p c).2 =
        p + countMatch ch p c := by
  induction p generalizing c with
  | zero => exact ⟨h, rfl⟩
  | succ p ih =>
    rw [Machine.catchUpLoop]
    split
    · rename_i hc
      obtain ⟨h', hcount⟩ := h.pred (by omega) (by omega) hc.2.2
      obtain ⟨hm, hend⟩ := ih h' (by omega)
      exact ⟨hm, by omega⟩
    · exact ⟨h, rfl⟩

/-- The token of a match grows the history from the anchor to the match's end (R165, R229). -/
theorem MatchAt.growToken (h : MatchAt ch p c) (hv : ChunkOver ch D C) {anchor : Nat} (ha : anchor ≤ p)
    (hn : p + (4 + countMatch ch p c) ≤ ch.n) :
    growToken (.seq (sourceSlice ch anchor p) (BitVec.ofNat 16 (ch.sb + p - c)) (countMatch ch p c)) (D ++ C.take anchor) =
      some (D ++ C.take (p + (4 + countMatch ch p c))) := by
  have hlow := h.low
  have hbelow := h.below
  have hnear := h.near
  have hsb := hv.sb
  have hlen := hv.n
  simp only [Config.maxDistance] at hnear
  have hoff : (BitVec.ofNat 16 (ch.sb + p - c)).toNat = ch.sb + p - c := by
    rw [BitVec.toNat_ofNat, Nat.mod_eq_of_lt (by omega)]
  have htake : ∀ q, D ++ C.take q = (D ++ C).take (D.length + q) := fun q => by
    rw [List.take_append, List.take_of_length_le (l := D) (by omega), Nat.add_sub_cancel_left]
  have hlits : D ++ C.take anchor ++ sourceSlice ch anchor p = (D ++ C).take (D.length + p) := by
    rw [hv.sourceSlice (by omega), List.append_assoc, ← htake]
    congr 1
    conv_rhs => rw [← List.take_append_drop anchor (C.take p), List.take_take, Nat.min_eq_left ha]
  refine growToken_seq_eq_some.2 ⟨fun h0 => ?_, ?_, ?_⟩
  · rw [h0] at hoff
    have : ch.sb + p - c = 0 := hoff.symm
    omega
  · rw [hlits, hoff, List.length_take, List.length_append]; omega
  · rw [hlits, hoff, htake, growMatch_take (by omega) (by omega) (by rw [List.length_append]; omega)]
    · congr 1; omega
    · intro j hj
      have hbytes := h.bytes_eq (j := j) (by omega)
      rw [hv.bytes_eq (by omega), hv.bytes_eq (by omega)] at hbytes
      rwa [show D.length + p + j - (ch.sb + p - c) = c + j - indexBias ch.dm by omega,
        show D.length + p + j = ch.sb + p + j - indexBias ch.dm by omega]

end

/-! ### The hash table -/

/-- Every position in the table lies below `limit` (R276). -/
def SlotsBelow (ht : List (Nat × Nat)) (limit : Nat) : Prop := ∀ h v, slotGet ht h = some v → v < limit

theorem SlotsBelow.mono {ht : List (Nat × Nat)} {limit limit' : Nat} (h : SlotsBelow ht limit) (hle : limit ≤ limit') :
    SlotsBelow ht limit' := fun k v hv => Nat.lt_of_lt_of_le (h k v hv) hle

theorem SlotsBelow.slotPut {ht : List (Nat × Nat)} {limit v : Nat} (h : SlotsBelow ht limit) (k : Nat) (hv : v < limit) :
    SlotsBelow (slotPut ht k v) limit := by
  intro x u hu
  by_cases hx : x = k
  · subst hx
    rw [slotGet_slotPut_same] at hu
    cases hu
    exact hv
  · rw [slotGet_slotPut_ne ht v hx] at hu
    exact h x u hu

/-- A candidate from the table lies below a limit that is not 0; an empty slot's is 0 (R32). -/
theorem SlotsBelow.candidate_lt {ht : List (Nat × Nat)} {limit : Nat} (h : SlotsBelow ht limit) (hpos : 0 < limit)
    (k : Nat) : candidate (slotGet ht k) < limit := by
  cases hs : slotGet ht k with
  | none => exact hpos
  | some v => exact h k v hs

theorem indexDict_slotsBelow {ch : Chunk} {fuel p : Nat} {e : Engine}
    (h : SlotsBelow e.ht (Config.dictBias + ch.dl)) : SlotsBelow (indexDict ch fuel p e).ht (Config.dictBias + ch.dl) := by
  induction fuel generalizing p e with
  | zero => exact h
  | succ fuel ih =>
    rw [indexDict]
    split
    · rename_i hle
      have hunit : 0 < Config.hashUnit ch.params := by unfold Config.hashUnit; split <;> decide
      exact ih (h.slotPut _ (by omega))
    · exact h

theorem indexDict_tm (ch : Chunk) (fuel p : Nat) (e : Engine) : (indexDict ch fuel p e).tm = e.tm := by
  induction fuel generalizing p e with
  | zero => rfl
  | succ fuel ih =>
    rw [indexDict]
    split
    · rw [ih]; rfl
    · rfl

theorem setupTable_tm (ch : Chunk) (e : Engine) : (setupTable ch e).tm = selectMode ch.params ch.n ch.dm := by
  unfold setupTable
  simp only
  split
  · rfl
  · rw [indexDict_tm]

/-- A table made ready holds dictionary positions alone (R132, R201). -/
theorem setupTable_slotsBelow {ch : Chunk} {D C : List Byte} (hv : ChunkOver ch D C) (e : Engine) :
    SlotsBelow (setupTable ch e).ht ch.sb := by
  unfold setupTable
  simp only
  have hempty : ∀ limit, SlotsBelow [] limit := fun limit k v hk => by cases hk
  split
  · exact hempty _
  · rename_i hdm
    rw [hv.sb, indexBias, if_neg hdm, ← hv.dl hdm]
    exact indexDict_slotsBelow (hempty _)

end Sys2Proof.Machine
end

section
/-! What the engine emits (R165, R182 to R190): each step that emits, written out, and the invariant of a chunk's run: the
output is sequence tokens that grow the dictionary to the chunk's bytes before the anchor, with a token begun between
EncodeLiterals or NextMatch and EncodeMatch. -/

namespace Sys2Proof.Machine

/-! ### The steps, written out -/

/-- A token begun: its byte with MLN 0, the LL ext and the literals (R182, R188, R190). -/
def openToken (lits : List Byte) : List Byte :=
  tokenByte (lenNibble lits.length) 0 :: (lenExt lits.length ++ lits)

@[simp] theorem openToken_length (lits : List Byte) :
    (openToken lits).length = 1 + lenExtSize lits.length + lits.length := by
  simp [openToken]; omega

theorem encodeToken_last_zero (lits : List Byte) : encodeToken (.last 0#4 lits) = openToken lits := rfl

/-- Filling in the low nibble and adding the offset and the MLF ext completes a token begun (R184). -/
theorem modify_openToken (pre lits : List Byte) (off : BitVec 16) (mlf : Nat) :
    (pre ++ openToken lits ++ leBytes 2 off.toNat).modify pre.length (fun b => b ||| BitVec.ofNat 8 (lenNibble mlf)) ++
      lenExt mlf = pre ++ encodeToken (.seq lits off mlf) := by
  rw [openToken, List.append_assoc, List.cons_append, modify_append_cons,
    tokenByte_or _ _ (Nat.le_of_lt_succ (lenNibble_lt _)) (Nat.le_of_lt_succ (lenNibble_lt _))]
  simp [encodeToken]

@[simp] theorem sourceSlice_length (ch : Chunk) (a b : Nat) : (sourceSlice ch a b).length = b - a := by
  simp [sourceSlice]

section
variable {ch : Chunk} {e e' : Engine}

theorem emit_of_le {bs : List Byte} (h : e.out.length + bs.length ≤ ch.cap) :
    emit ch bs e = some { e with out := e.out ++ bs } := emit_eq_some.2 ⟨h, rfl⟩

/-- A probe in full (R141). -/
theorem probe_eq (ch : Chunk) (e : Engine) : probe ch e =
    if pastProbeLimit ch (e.fwd + e.step) then { advance e with phase := .lastLiterals }
    else { advance e with
      c := candidate (getSlot ch (ch.sb + e.fwd) e), ht := (put ch (ch.sb + e.fwd) e).ht,
      phase := if validCandidate ch e.tm (getSlot ch (ch.sb + e.fwd) e) (ch.sb + e.fwd) then .catchUp else .seekMatch } := by
  change (if pastProbeLimit ch (e.fwd + e.step) = true then _ else
    if validCandidate ch e.tm (getSlot ch (ch.sb + e.fwd) e) (ch.sb + e.fwd) = true then _ else _) = _
  by_cases hpast : pastProbeLimit ch (e.fwd + e.step) = true
  · rw [if_pos hpast, if_pos hpast]
  · rw [if_neg hpast, if_neg hpast]
    by_cases hv : validCandidate ch e.tm (getSlot ch (ch.sb + e.fwd) e) (ch.sb + e.fwd) = true <;>
      simp only [hv, if_true, Bool.false_eq_true, if_false] <;> rfl

/-- EncodeLiterals begins a token (R182). -/
theorem stepEncodeLiterals_running (h : stepEncodeLiterals ch e = .running e') :
    e' = { e with phase := .encodeMatch, tokpos := e.out.length,
                  out := e.out ++ openToken (sourceSlice ch e.anchor e.p) } := by
  unfold stepEncodeLiterals at h
  simp only at h
  split at h
  · cases h
  · split at h
    · cases h
    · rename_i e1 he
      obtain ⟨-, rfl⟩ := emit_eq_some.1 he
      cases h
      simp [openToken, outputCount]

theorem stepEncodeLiterals_not_overflow (hm : marginChecked ch = false)
    (hcap : e.out.length + (openToken (sourceSlice ch e.anchor e.p)).length ≤ ch.cap) :
    stepEncodeLiterals ch e ≠ .overflow e' := by
  simp only [openToken, sourceSlice_length] at hcap
  simp only [stepEncodeLiterals, literalMarginFails, hm, Bool.false_and, Bool.false_eq_true, if_false]
  rw [emit_of_le (e := { e with tokpos := outputCount e }) hcap]
  simp

/-- EncodeMatch completes the token begun (R184). -/
theorem stepEncodeMatch_running {pre lits : List Byte} (hout : e.out = pre ++ openToken lits)
    (htok : e.tokpos = pre.length) (hoff : ch.sb + e.p - e.c < 2 ^ 16) (h : stepEncodeMatch ch e = .running e') :
    e' = { e with
      out := pre ++ encodeToken (.seq lits (BitVec.ofNat 16 (ch.sb + e.p - e.c)) (countMatch ch e.p e.c)),
      k := countMatch ch e.p e.c, ip := e.p + (4 + countMatch ch e.p e.c), anchor := e.p + (4 + countMatch ch e.p e.c),
      phase := if pastMatchEnd ch (e.p + (4 + countMatch ch e.p e.c)) then .lastLiterals else .nextMatch } := by
  unfold stepEncodeMatch at h
  split at h
  · cases h
  · rename_i e1 he1
    obtain ⟨-, rfl⟩ := emit_eq_some.1 he1
    simp only at h
    split at h
    · cases h
    · split at h
      · cases h
      · rename_i e4 he4
        obtain ⟨-, rfl⟩ := emit_eq_some.1 he4
        cases h
        have hval : (BitVec.ofNat 16 (ch.sb + e.p - e.c)).toNat = ch.sb + e.p - e.c := by
          rw [BitVec.toNat_ofNat, Nat.mod_eq_of_lt hoff]
        rw [← modify_openToken, hval, ← hout, ← htok]
        rfl

theorem stepEncodeMatch_not_overflow (hm : marginChecked ch = false)
    (hcap : e.out.length + (2 + lenExtSize (countMatch ch e.p e.c)) ≤ ch.cap) : stepEncodeMatch ch e ≠ .overflow e' := by
  have h2 : e.out.length + (leBytes 2 (ch.sb + e.p - e.c)).length ≤ ch.cap := by rw [leBytes_length]; omega
  unfold stepEncodeMatch
  rw [emit_of_le h2]
  simp only [matchMarginFails, hm, Bool.false_and, Bool.false_eq_true, if_false]
  rw [emit_of_le (by simp only [List.length_modify, List.length_append, leBytes_length, lenExt_length]; omega)]
  simp

/-- NextMatch begins a token without literals at the cursor, or seeks on (R188). -/
theorem stepNextMatch_running (h : stepNextMatch ch e = .running e') :
    ∃ ht slot, ht = (put ch (ch.sb + e.ip) (put ch (ch.sb + e.ip - 2) e)).ht ∧
      slot = getSlot ch (ch.sb + e.ip) (put ch (ch.sb + e.ip - 2) e) ∧
      ((validNext ch e.tm slot (ch.sb + e.ip) = true ∧
        e' = { e with c := candidate slot, ht := ht, tokpos := e.out.length, out := e.out ++ openToken [], p := e.ip,
                      phase := .encodeMatch }) ∨
      e' = beginSeek ch (e.ip + 1) { e with c := candidate slot, ht := ht }) := by
  refine ⟨_, _, rfl, rfl, ?_⟩
  unfold stepNextMatch at h
  simp only at h
  split at h
  · rename_i hv
    split at h
    · cases h
    · rename_i e2 he2
      obtain ⟨-, rfl⟩ := emit_eq_some.1 he2
      cases h
      exact .inl ⟨hv, rfl⟩
  · cases h
    exact .inr rfl

theorem stepNextMatch_not_overflow (hcap : e.out.length + 1 ≤ ch.cap) : stepNextMatch ch e ≠ .overflow e' := by
  unfold stepNextMatch
  simp only
  split
  · rw [emit_of_le (by exact hcap)]; simp
  · simp

/-- LastLiterals ends the chunk at the anchor, or at its end with the last token (R190). -/
theorem stepLastLiterals_finished {k : Nat} (h : stepLastLiterals ch e = .finished e' k) :
    (ch.final = false ∧ k = e.anchor ∧ e'.out = e.out) ∨
    (ch.final = true ∧ k = ch.n ∧ e'.out = e.out ++ encodeToken (.last 0#4 (sourceSlice ch e.anchor ch.n))) := by
  unfold stepLastLiterals at h
  split at h
  · rename_i hf
    cases h
    exact .inl ⟨by simpa using hf, rfl, rfl⟩
  · rename_i hf
    simp only at h
    split at h
    · cases h
    · split at h
      · cases h
      · rename_i e1 he
        obtain ⟨-, rfl⟩ := emit_eq_some.1 he
        cases h
        exact .inr ⟨by simpa using hf, rfl, by simp [encodeToken_last_zero, openToken]⟩

theorem stepLastLiterals_not_overflow (hm : marginChecked ch = false)
    (hcap : e.out.length + (openToken (sourceSlice ch e.anchor ch.n)).length ≤ ch.cap) :
    stepLastLiterals ch e ≠ .overflow e' := by
  simp only [openToken, sourceSlice_length] at hcap
  unfold stepLastLiterals
  split
  · simp
  · simp only [lastMarginFails, hm, Bool.false_and, Bool.false_eq_true, if_false]
    rw [emit_of_le hcap]
    simp

/-! ### The search -/

/-- Between steps, the table's positions lie below the one looked at next, and from CatchUp to EncodeMatch there is a match
at p, whose end they lie below (R276). -/
def SearchInv (ch : Chunk) (e : Engine) : Prop :=
  match e.phase with
  | .seekMatch => 1 ≤ e.fwd ∧ SlotsBelow e.ht (ch.sb + e.fwd)
  | .catchUp => MatchAt ch e.p e.c ∧ SlotsBelow e.ht (ch.sb + (e.p + (4 + countMatch ch e.p e.c)))
  | .encodeLiterals => MatchAt ch e.p e.c ∧ SlotsBelow e.ht (ch.sb + (e.p + (4 + countMatch ch e.p e.c)))
  | .encodeMatch => MatchAt ch e.p e.c ∧ SlotsBelow e.ht (ch.sb + (e.p + (4 + countMatch ch e.p e.c)))
  | .nextMatch => 1 ≤ e.ip ∧ SlotsBelow e.ht (ch.sb + e.ip)
  | .lastLiterals => True
  | .done => False

/-- The token the engine has begun (R182, R188). -/
def pendingToken (ch : Chunk) (e : Engine) : List Byte :=
  if e.phase = .encodeMatch then openToken (sourceSlice ch e.anchor e.p) else []

/-- The output is the sequence tokens `seqs`, which grow the dictionary to the bytes before the anchor, and the token
begun. -/
structure Emitted (ch : Chunk) (D C : List Byte) (seqs : List Token) (e : Engine) : Prop where
  isSeq  : ∀ t ∈ seqs, isSeqToken t = true
  grow   : growTokens seqs D = some (D ++ C.take e.anchor)
  ends   : seqs = [] ∨ e.anchor + 5 ≤ ch.n
  out    : e.out = seqs.flatMap encodeToken ++ pendingToken ch e
  tokpos : e.phase = .encodeMatch → e.tokpos = (seqs.flatMap encodeToken).length

/-- The invariant of a chunk's run (R276). -/
structure EngineInv (ch : Chunk) (D C : List Byte) (e : Engine) : Prop where
  moves  : EngineMoves ch e
  tm     : e.tm = selectMode ch.params ch.n ch.dm
  search : SearchInv ch e
  tokens : ∃ seqs, Emitted ch D C seqs e

/-! ### Every step keeps the invariant -/

variable {D C : List Byte} {seqs : List Token}

/-- The steps that go on, one for each state that has one (R177). -/
theorem engineStep_running_cases (h : engineStep ch e = .running e') :
    (e.phase = .seekMatch ∧ e' = probe ch e) ∨
    (e.phase = .catchUp ∧ e' = { e with
      phase := .encodeLiterals, p := (catchUpLoop ch e.anchor (catchUpLow ch e.c) e.p e.c).1,
      c := (catchUpLoop ch e.anchor (catchUpLow ch e.c) e.p e.c).2 }) ∨
    (e.phase = .encodeLiterals ∧ e' = { e with
      phase := .encodeMatch, tokpos := e.out.length, out := e.out ++ openToken (sourceSlice ch e.anchor e.p) }) ∨
    (e.phase = .encodeMatch ∧ stepEncodeMatch ch e = .running e') ∨
    (e.phase = .nextMatch ∧ stepNextMatch ch e = .running e') := by
  cases hp : e.phase <;> simp only [engineStep, hp] at h
  case seekMatch => exact .inl ⟨rfl, (EngineStep.running.inj h).symm⟩
  case catchUp => exact .inr (.inl ⟨rfl, (EngineStep.running.inj h).symm⟩)
  case encodeLiterals => exact .inr (.inr (.inl ⟨rfl, stepEncodeLiterals_running h⟩))
  case encodeMatch => exact .inr (.inr (.inr (.inl ⟨rfl, h⟩)))
  case nextMatch => exact .inr (.inr (.inr (.inr ⟨rfl, h⟩)))
  case lastLiterals => exact absurd h stepLastLiterals_not_running
  case done => cases h

theorem engineStep_tm (h : engineStep ch e = .running e') : e'.tm = e.tm := by
  rcases engineStep_running_cases h with ⟨-, rfl⟩ | ⟨-, rfl⟩ | ⟨-, rfl⟩ | ⟨-, h⟩ | ⟨-, h⟩
  · rw [probe_eq]
    split <;> rfl
  · rfl
  · rfl
  · obtain ⟨out, ip, -, -, rfl⟩ := stepEncodeMatch_cases h
    rfl
  · obtain ⟨c, ht, ⟨-, rfl⟩ | rfl⟩ := stepNextMatch_cases h <;> rfl

/-- A probe looks at a position above all in the table, and leaves the table below its end (R141). -/
theorem probe_searchInv (hv : ChunkOver ch D C) (hm : EngineMoves ch e) (htm : e.tm = selectMode ch.params ch.n ch.dm)
    (hs : SearchInv ch e) (hp : e.phase = .seekMatch) : SearchInv ch (probe ch e) := by
  simp only [EngineMoves, hp] at hm
  simp only [SearchInv, hp] at hs
  obtain ⟨-, -, hstep, -⟩ := hm
  obtain ⟨hfwd, hslots⟩ := hs
  have hput : SlotsBelow (put ch (ch.sb + e.fwd) e).ht (ch.sb + (e.fwd + 1)) :=
    (hslots.mono (by omega)).slotPut _ (by omega)
  have hcand := hslots.candidate_lt (by omega) (hashAt ch e.tm (ch.sb + e.fwd))
  rw [probe_eq]
  by_cases hpast : pastProbeLimit ch (e.fwd + e.step) = true
  · rw [if_pos hpast]; trivial
  rw [if_neg hpast]
  have hmargin := probeMargin_ge ch.params.variant
  simp only [pastProbeLimit, decide_eq_true_eq, Nat.not_lt] at hpast
  have hinside : e.fwd + 11 ≤ ch.n := by omega
  by_cases hvalid : validCandidate ch e.tm (getSlot ch (ch.sb + e.fwd) e) (ch.sb + e.fwd) = true
  · simp only [SearchInv, hvalid, if_true]
    exact ⟨hv.matchAt_of_validCandidate htm hinside hcand hvalid, hput.mono (by simp only [advance]; omega)⟩
  · simp only [SearchInv, hvalid, Bool.false_eq_true, if_false]
    exact ⟨by simp only [advance]; omega, hput.mono (by simp only [advance]; omega)⟩

theorem engineStep_searchInv (hv : ChunkOver ch D C) (hi : EngineInv ch D C e) (h : engineStep ch e = .running e') :
    SearchInv ch e' := by
  obtain ⟨hm, htm, hs, -⟩ := hi
  rcases engineStep_running_cases h with ⟨hp, rfl⟩ | ⟨hp, rfl⟩ | ⟨hp, rfl⟩ | ⟨hp, h⟩ | ⟨hp, h⟩
  · exact probe_searchInv hv hm htm hs hp
  · simp only [EngineMoves, hp] at hm
    simp only [SearchInv, hp] at hs
    obtain ⟨hmatch, hend⟩ := hs.1.catchUpLoop (anchor := e.anchor) (catchUpLow_ge hv e.c) (by omega)
    exact ⟨hmatch, hs.2.mono (by simp only; omega)⟩
  · simp only [SearchInv, hp] at hs
    exact hs
  · simp only [SearchInv, hp] at hs
    obtain ⟨out, ip, rfl, -, rfl⟩ := stepEncodeMatch_cases h
    by_cases hpast : pastMatchEnd ch (e.p + (4 + countMatch ch e.p e.c)) = true
    · simp only [SearchInv, hpast, if_true]
    · simp only [SearchInv, hpast, Bool.false_eq_true, if_false]
      exact ⟨by omega, hs.2⟩
  · simp only [SearchInv, hp] at hs
    obtain ⟨hip, hslots⟩ := hs
    have hrefill : SlotsBelow (put ch (ch.sb + e.ip - 2) e).ht (ch.sb + e.ip) := hslots.slotPut _ (by omega)
    have hput : SlotsBelow (put ch (ch.sb + e.ip) (put ch (ch.sb + e.ip - 2) e)).ht (ch.sb + (e.ip + 1)) :=
      (hrefill.mono (by omega)).slotPut _ (by omega)
    obtain ⟨ht, slot, rfl, rfl, ⟨hvalid, rfl⟩ | rfl⟩ := stepNextMatch_running h
    · exact ⟨hv.matchAt_of_validNext (hrefill.candidate_lt (by omega) _) hvalid, hput.mono (by simp only; omega)⟩
    · exact ⟨by simp only [beginSeek]; omega, hput⟩

/-- A step that emits nothing and leaves the anchor, to a phase with no token begun, keeps what was emitted. -/
theorem Emitted.of_same (h : Emitted ch D C seqs e) (hp : e.phase ≠ .encodeMatch) (hp' : e'.phase ≠ .encodeMatch)
    (ha : e'.anchor = e.anchor) (ho : e'.out = e.out) : Emitted ch D C seqs e' where
  isSeq := h.isSeq
  grow := by rw [ha]; exact h.grow
  ends := by rw [ha]; exact h.ends
  out := by rw [ho, h.out, pendingToken, if_neg hp, pendingToken, if_neg hp']
  tokpos := fun h0 => absurd h0 hp'

/-- Beginning a token. -/
theorem Emitted.beginToken (h : Emitted ch D C seqs e) (hp : e.phase ≠ .encodeMatch) (hp' : e'.phase = .encodeMatch)
    (ha : e'.anchor = e.anchor) (ht : e'.tokpos = e.out.length)
    (ho : e'.out = e.out ++ openToken (sourceSlice ch e'.anchor e'.p)) : Emitted ch D C seqs e' := by
  have hout : e.out = seqs.flatMap encodeToken := by rw [h.out, pendingToken, if_neg hp, List.append_nil]
  exact ⟨h.isSeq, by rw [ha]; exact h.grow, by rw [ha]; exact h.ends,
    by rw [ho, hout, pendingToken, if_pos hp'], fun _ => by rw [ht, hout]⟩

/-- Completing a token. -/
theorem Emitted.endToken (h : Emitted ch D C seqs e) (hv : ChunkOver ch D C) (hp : e.phase = .encodeMatch)
    (hm : EngineMoves ch e) (hs : SearchInv ch e) (hstep : stepEncodeMatch ch e = .running e') :
    ∃ seqs', Emitted ch D C seqs' e' := by
  simp only [EngineMoves, hp] at hm
  simp only [SearchInv, hp] at hs
  obtain ⟨-, hanchor, hp11⟩ := hm
  have hcount := countMatch_le ch e.p e.c
  have hout := h.out
  rw [pendingToken, if_pos hp] at hout
  have hoff : ch.sb + e.p - e.c < 2 ^ 16 := by
    have := hs.1.near
    simp only [Config.maxDistance] at this; omega
  have hphase : ∀ past : Bool, (if past then EngineState.lastLiterals else .nextMatch) ≠ .encodeMatch := by decide
  rw [stepEncodeMatch_running hout (h.tokpos hp) hoff hstep]
  refine ⟨seqs ++ [.seq (sourceSlice ch e.anchor e.p) (BitVec.ofNat 16 (ch.sb + e.p - e.c)) (countMatch ch e.p e.c)],
    fun t ht => ?_, growTokens_append_eq_some.2 ⟨_, h.grow, ?_⟩, .inr (by simp only; omega), ?_, ?_⟩
  · rcases List.mem_append.1 ht with ht | ht
    · exact h.isSeq t ht
    · cases List.mem_singleton.1 ht; rfl
  · exact growTokens_cons_eq_some.2 ⟨_, hs.1.growToken hv hanchor (by omega), rfl⟩
  · rw [pendingToken, if_neg (hphase _)]
    simp
  · exact fun h0 => absurd h0 (hphase _)

theorem engineStep_emitted (hv : ChunkOver ch D C) (hi : EngineInv ch D C e) (h : engineStep ch e = .running e') :
    ∃ seqs, Emitted ch D C seqs e' := by
  obtain ⟨hm, -, hs, seqs, ht⟩ := hi
  rcases engineStep_running_cases h with ⟨hp, rfl⟩ | ⟨hp, rfl⟩ | ⟨hp, rfl⟩ | ⟨hp, h⟩ | ⟨hp, h⟩
  · rw [probe_eq]
    split
    · exact ⟨seqs, ht.of_same (by simp [hp]) (by simp) rfl rfl⟩
    · exact ⟨seqs, ht.of_same (by simp [hp]) (by simp only; split <;> simp) rfl rfl⟩
  · exact ⟨seqs, ht.of_same (by simp [hp]) (by simp) rfl rfl⟩
  · exact ⟨seqs, ht.beginToken (by simp [hp]) rfl rfl rfl rfl⟩
  · exact ht.endToken hv hp hm hs h
  · simp only [EngineMoves, hp] at hm
    obtain ⟨-, hanchor, -⟩ := hm
    obtain ⟨tbl, slot, -, -, ⟨-, rfl⟩ | rfl⟩ := stepNextMatch_running h
    · exact ⟨seqs, ht.beginToken (by simp [hp]) rfl rfl rfl (by simp [sourceSlice, hanchor])⟩
    · exact ⟨seqs, ht.of_same (by simp [hp]) (by simp [beginSeek]) rfl rfl⟩

/-- Every step keeps the engine's invariant (R276). -/
theorem engineStep_inv (hv : ChunkOver ch D C) (hi : EngineInv ch D C e) (h : engineStep ch e = .running e') :
    EngineInv ch D C e' :=
  ⟨(engineStep_moves hv.accel hi.moves h).1, (engineStep_tm h).trans hi.tm, engineStep_searchInv hv hi h,
    engineStep_emitted hv hi h⟩

/-- It holds at the entry (R177, R178, R180). -/
theorem engineEntry_inv (hv : ChunkOver ch D C) (e : Engine) : EngineInv ch D C (engineEntry ch (setupTable ch e)) := by
  have hslots := setupTable_slotsBelow hv e
  have htm := setupTable_tm ch e
  unfold engineEntry
  simp only
  split
  · exact ⟨⟨Nat.zero_le _, trivial⟩, htm, trivial, [], by simp, by simp [growTokens], .inl rfl, rfl, by simp⟩
  · refine ⟨⟨Nat.zero_le _, Nat.zero_le _, Nat.le_refl _, accel_shift hv.accel⟩, htm, ⟨Nat.le_refl _, ?_⟩, [], by simp,
      by simp [growTokens, beginSeek], .inl rfl, rfl, by simp [beginSeek]⟩
    exact (hslots.mono (Nat.le_succ _)).slotPut _ (Nat.lt_succ_self _)

end
end Sys2Proof.Machine
end

section
/-! A whole chunk and a whole COMPRESS: what the output stands for, and that a capacity of COMPRESS_BOUND is never too small
(R107, R168, R186, R205). -/

namespace Sys2Proof.Machine

/-! ### A chunk -/

/-- The output `out` of a chunk that consumed `k` of its bytes: sequence tokens that grow the dictionary to the bytes before
an anchor, with five bytes left behind a match (R84), and in the last chunk the last token of what is left (R190, R191). -/
structure ChunkOutput (ch : Chunk) (D C out : List Byte) (k : Nat) (seqs : List Token) (anchor : Nat) : Prop where
  isSeq  : ∀ t ∈ seqs, isSeqToken t = true
  le     : anchor ≤ ch.n
  grow   : growTokens seqs D = some (D ++ C.take anchor)
  ends   : seqs = [] ∨ anchor + 5 ≤ ch.n
  out    : (ch.final = false ∧ k = anchor ∧ out = seqs.flatMap encodeToken) ∨
    (ch.final = true ∧ k = ch.n ∧ out = seqs.flatMap encodeToken ++ encodeToken (.last 0#4 (C.drop anchor)))

section
variable {ch : Chunk} {D C : List Byte} {e e' : Engine} {k : Nat}

/-- Only LastLiterals ends a chunk. -/
theorem engineStep_finished (h : engineStep ch e = .finished e' k) :
    e.phase = .done ∨ e.phase = .lastLiterals ∧ stepLastLiterals ch e = .finished e' k := by
  cases hp : e.phase with
  | seekMatch => simp only [engineStep, hp] at h; cases h
  | catchUp => simp only [engineStep, hp] at h; cases h
  | encodeLiterals =>
    simp only [engineStep, hp, stepEncodeLiterals] at h
    split at h
    · cases h
    · split at h <;> cases h
  | encodeMatch =>
    simp only [engineStep, hp, stepEncodeMatch] at h
    split at h
    · cases h
    · split at h
      · cases h
      · split at h <;> cases h
  | nextMatch =>
    simp only [engineStep, hp, stepNextMatch] at h
    split at h
    · split at h <;> cases h
    · cases h
  | lastLiterals => simp only [engineStep, hp] at h; exact .inr ⟨rfl, h⟩
  | done => exact .inl rfl

theorem engineRun_output (hv : ChunkOver ch D C) {fuel : Nat} (hi : EngineInv ch D C e)
    (h : engineRun ch fuel e = .finished e' k) : ∃ seqs anchor, ChunkOutput ch D C e'.out k seqs anchor := by
  induction fuel generalizing e with
  | zero => cases h
  | succ fuel ih =>
    simp only [engineRun] at h
    split at h
    · rename_i e1 hs
      exact ih (engineStep_inv hv hi hs) h
    · rename_i e1 k1 hs
      cases h
      obtain ⟨hm, -, hsearch, seqs, ht⟩ := hi
      rcases engineStep_finished hs with hp | ⟨hp, hs⟩
      · simp only [SearchInv, hp] at hsearch
      · have hout := ht.out
        rw [pendingToken, if_neg (by simp [hp]), List.append_nil] at hout
        refine ⟨seqs, e.anchor, ht.isSeq, hm.1, ht.grow, ht.ends, ?_⟩
        rcases stepLastLiterals_finished hs with ⟨hf, hk, ho⟩ | ⟨hf, hk, ho⟩
        · exact .inl ⟨hf, hk, ho.trans hout⟩
        · refine .inr ⟨hf, hk, ?_⟩
          rw [ho, hout, hv.sourceSlice (Nat.le_refl _), hv.n, List.take_length]
    · cases h

/-- What a chunk's run emits (R177, R191). -/
theorem runEngine_output (hv : ChunkOver ch D C) (h : runEngine ch (setupTable ch e) = .finished e' k) :
    ∃ seqs anchor, ChunkOutput ch D C e'.out k seqs anchor :=
  engineRun_output hv (engineEntry_inv hv e) h

/-- With a capacity of COMPRESS_BOUND no step overflows (R168, R186). -/
theorem engineStep_not_overflow (hv : ChunkOver ch D C) (hcap : compressBound ch.n ≤ ch.cap) (hi : EngineInv ch D C e) :
    engineStep ch e ≠ .overflow e' := by
  obtain ⟨hm, -, hsearch, seqs, ht⟩ := hi
  have hmargin : marginChecked ch = false := by simp [marginChecked, hcap]
  have hsize := flatMap_encodeToken_length_le ht.isSeq ht.grow
  have hanchor := hm.1
  have hlen := hv.n
  have hout := congrArg List.length ht.out
  simp only [List.length_append, List.length_take] at hsize hout
  simp only [compressBound] at hcap
  cases hp : e.phase with
  | seekMatch => simp [engineStep, hp]
  | catchUp => simp [engineStep, hp, stepCatchUp]
  | encodeLiterals =>
    simp only [EngineMoves, hp] at hm
    rw [pendingToken, if_neg (by simp [hp]), List.length_nil] at hout
    simp only [engineStep, hp]
    refine stepEncodeLiterals_not_overflow hmargin ?_
    rw [openToken_length, sourceSlice_length, lenExtSize_eq]
    omega
  | encodeMatch =>
    simp only [EngineMoves, hp] at hm
    rw [pendingToken, if_pos hp, openToken_length, sourceSlice_length, lenExtSize_eq] at hout
    have hcount := countMatch_le ch e.p e.c
    simp only [engineStep, hp]
    refine stepEncodeMatch_not_overflow hmargin ?_
    rw [lenExtSize_eq]
    omega
  | nextMatch =>
    rw [pendingToken, if_neg (by simp [hp]), List.length_nil] at hout
    simp only [engineStep, hp]
    exact stepNextMatch_not_overflow (by omega)
  | lastLiterals =>
    rw [pendingToken, if_neg (by simp [hp]), List.length_nil] at hout
    simp only [engineStep, hp]
    refine stepLastLiterals_not_overflow hmargin ?_
    rw [openToken_length, sourceSlice_length, lenExtSize_eq]
    omega
  | done => simp [engineStep, hp]

theorem engineRun_not_overflow (hv : ChunkOver ch D C) (hcap : compressBound ch.n ≤ ch.cap) {fuel : Nat}
    (hi : EngineInv ch D C e) : engineRun ch fuel e ≠ .overflow e' := by
  induction fuel generalizing e with
  | zero => simp [engineRun]
  | succ fuel ih =>
    simp only [engineRun]
    split
    · rename_i e1 hs
      exact ih (engineStep_inv hv hi hs)
    · simp
    · rename_i e1 hs
      exact absurd hs (engineStep_not_overflow hv hcap hi)

/-- With a capacity of COMPRESS_BOUND a chunk's run does not overflow (R168, R189). -/
theorem runEngine_not_overflow (hv : ChunkOver ch D C) (hcap : compressBound ch.n ≤ ch.cap) :
    runEngine ch (setupTable ch e) ≠ .overflow e' :=
  engineRun_not_overflow hv hcap (engineEntry_inv hv e)

end

/-! ### The wrapper -/

section
variable {P : Config.Params} {S D out : List Byte} {dm : DictMode} {accel cape : Nat} {e e' : Engine} {w : Wrapper}

/-- The chunk of the round at source position `pos`, with the output so far `acc` (R200). -/
def roundChunk (P : Config.Params) (S D : List Byte) (dm : DictMode) (accel cape pos : Nat) (acc : List Byte) : Chunk :=
  chunkOf P ((S.drop pos).take (min (S.length - pos) P.chunkMax)) D dm accel (decide (S.length - pos ≤ P.chunkMax))
    (cape - acc.length)

theorem roundChunk_n (pos : Nat) (acc : List Byte) :
    (roundChunk P S D dm accel cape pos acc).n = min (S.length - pos) P.chunkMax := by
  simp only [roundChunk, chunkOf, List.length_take, List.length_drop]
  omega

theorem chunkOver_roundChunk (ha : 1 ≤ accel) (hD : dm = .noDict → D = []) (pos : Nat) (acc : List Byte) :
    ChunkOver (roundChunk P S D dm accel cape pos acc) D ((S.drop pos).take (min (S.length - pos) P.chunkMax)) :=
  chunkOver_chunkOf P _ hD ha _ _

/-- What a round can answer: OutputBoundExceeded; the stream, in the last chunk; in another one ChunkProgressFailure, no
progress, or what the next round answers (R200 to R206). -/
theorem chunkLoop_round (ha : 1 ≤ accel) (hD : dm = .noDict → D = []) (fuel pos : Nat) (acc : List Byte) (e : Engine) :
    (∃ e1 w, runEngine (roundChunk P S D dm accel cape pos acc)
        (setupTable (roundChunk P S D dm accel cape pos acc) e) = .overflow e1 ∧
      chunkLoop P S D dm accel cape (fuel + 1) pos acc e = .raised .outputBoundExceeded e1 w) ∨
    ∃ e1 k seqs anchor, ChunkOutput (roundChunk P S D dm accel cape pos acc) D
        ((S.drop pos).take (min (S.length - pos) P.chunkMax)) e1.out k seqs anchor ∧
      ((S.length - pos ≤ P.chunkMax ∧ ∃ w,
          chunkLoop P S D dm accel cape (fuel + 1) pos acc e = .stream (acc ++ e1.out) e1 w) ∨
       (P.chunkMax < S.length - pos ∧
          ((∃ w, chunkLoop P S D dm accel cape (fuel + 1) pos acc e = .raised .chunkProgressFailure e1 w) ∨
           (∃ w, chunkLoop P S D dm accel cape (fuel + 1) pos acc e = .noProgress e1 w) ∨
           chunkLoop P S D dm accel cape (fuel + 1) pos acc e =
             chunkLoop P S D dm accel cape fuel (pos + k) (acc ++ e1.out) e1))) := by
  have hv := chunkOver_roundChunk (P := P) (S := S) (cape := cape) ha hD pos acc
  cases hrun : runEngine (roundChunk P S D dm accel cape pos acc)
      (setupTable (roundChunk P S D dm accel cape pos acc) e) with
  | unfinished e1 => exact absurd hrun (runEngine_ends hv.accel _ _)
  | overflow e1 =>
    refine .inl ⟨e1, ⟨pos, acc.length⟩, rfl, ?_⟩
    rw [roundChunk] at hrun
    simp only [chunkLoop, hrun]
  | finished e1 k =>
    obtain ⟨seqs, anchor, ho⟩ := runEngine_output hv hrun
    refine .inr ⟨e1, k, seqs, anchor, ho, ?_⟩
    rw [roundChunk] at hrun
    by_cases hfinal : S.length - pos ≤ P.chunkMax
    · obtain ⟨hf, -, -⟩ | ⟨-, hk, -⟩ := ho.out
      · exact absurd hfinal (of_decide_eq_false hf)
      · refine .inl ⟨hfinal, ⟨pos, acc.length⟩, ?_⟩
        simp only [chunkLoop, hrun]
        rw [if_pos (decide_eq_true hfinal), if_neg (not_not.2 (hk.trans (roundChunk_n pos acc)))]
    · refine .inr ⟨Nat.lt_of_not_le hfinal, ?_⟩
      simp only [chunkLoop, hrun]
      rw [if_neg fun hf => hfinal (of_decide_eq_true hf)]
      split
      · exact .inl ⟨_, rfl⟩
      · split
        · exact .inr (.inl ⟨_, rfl⟩)
        · exact .inr (.inr rfl)

/-- The output so far is the sequence tokens `seqs`, which grow the dictionary to the source's bytes before `pos`. -/
structure Packed (S D acc : List Byte) (pos : Nat) (seqs : List Token) : Prop where
  isSeq : ∀ t ∈ seqs, isSeqToken t = true
  le    : pos ≤ S.length
  grow  : growTokens seqs D = some (D ++ S.take pos)
  ends  : seqs = [] ∨ pos + 5 ≤ S.length
  out   : acc = seqs.flatMap encodeToken

/-- A chunk's tokens behind those of the chunks before it, which there are only without a dictionary (R205, R209). -/
theorem Packed.append {acc : List Byte} {pos k anchor : Nat} {seqs seqs' : List Token}
    (h : Packed S D acc pos seqs) (hone : D = [] ∨ pos = 0)
    (ho : ChunkOutput (roundChunk P S D dm accel cape pos acc) D
      ((S.drop pos).take (min (S.length - pos) P.chunkMax)) out k seqs' anchor) :
    Packed S D (acc ++ seqs'.flatMap encodeToken) (pos + anchor) (seqs ++ seqs') := by
  have hle := h.le
  have hanchor := ho.le
  have hfive := ho.ends
  have hgrow := ho.grow
  rw [roundChunk_n] at hanchor hfive
  rw [List.take_take, Nat.min_eq_left hanchor] at hgrow
  refine ⟨fun t ht => (List.mem_append.1 ht).elim (h.isSeq t) (ho.isSeq t), by omega,
    growTokens_append_eq_some.2 ⟨_, h.grow, ?_⟩, ?_, by rw [h.out, List.flatMap_append]⟩
  · rw [List.take_add]
    rcases hone with rfl | rfl
    · simpa using growTokens_prepend (S.take pos) hgrow
    · simpa using hgrow
  · rcases hfive with rfl | hfive
    · have hzero : anchor = 0 := by
        have := congrArg List.length (Option.some.inj hgrow)
        rw [List.length_append, List.length_take, List.length_drop] at this
        omega
      rw [hzero, List.append_nil]
      exact h.ends
    · exact .inr (by omega)

/-- A stream the wrapper's rounds end in stands for the source (R200, R205). -/
theorem chunkLoop_expands {fuel pos : Nat} {acc : List Byte} {seqs : List Token} (ha : 1 ≤ accel)
    (hD : dm = .noDict → D = []) (hdm : dm = .noDict ∨ S.length ≤ P.chunkMax) (hone : D = [] ∨ pos = 0)
    (hacc : Packed S D acc pos seqs) (h : chunkLoop P S D dm accel cape fuel pos acc e = .stream out e' w) :
    ∃ seqs lits, (∀ t ∈ seqs, isSeqToken t = true) ∧ (seqs ≠ [] → 5 ≤ lits.length) ∧
      out = seqs.flatMap encodeToken ++ encodeToken (.last 0#4 lits) ∧
      growTokens (seqs ++ [.last 0#4 lits]) D = some (D ++ S) := by
  induction fuel generalizing pos acc seqs e with
  | zero => cases h
  | succ fuel ih =>
    rcases chunkLoop_round (P := P) (S := S) (cape := cape) ha hD fuel pos acc e with
      ⟨e1, w, -, hr⟩ | ⟨e1, k, seqs', anchor, ho, ⟨hrem, w, hr⟩ | ⟨hrem, ⟨w, hr⟩ | ⟨w, hr⟩ | hr⟩⟩ <;>
      rw [hr] at h
    · cases h
    · cases h
      have hp := hacc.append hone ho
      obtain ⟨hf, -, -⟩ | ⟨-, -, hout⟩ := ho.out
      · exact absurd hrem (of_decide_eq_false hf)
      · rw [Nat.min_eq_left hrem, List.take_of_length_le (by rw [List.length_drop]), List.drop_drop] at hout
        refine ⟨seqs ++ seqs', S.drop (pos + anchor), hp.isSeq, fun hne => ?_, ?_,
          growTokens_append_eq_some.2 ⟨_, hp.grow, ?_⟩⟩
        · have := hp.ends.resolve_left hne
          rw [List.length_drop]; omega
        · rw [hout, ← hp.out, List.append_assoc]
        · simp [growTokens, growToken]
    · cases h
    · cases h
    · obtain ⟨-, rfl, hout⟩ | ⟨hf, -, -⟩ := ho.out
      · rw [hout] at h
        exact ih (.inl (hD (hdm.resolve_right (by omega)))) (hacc.append hone ho) h
      · exact absurd (of_decide_eq_true hf) (Nat.not_le.2 hrem)

/-- The wrapper raises OutputBoundExceeded, or ChunkProgressFailure on a source of more than one chunk (R203, R204). -/
theorem chunkLoop_raised {fuel pos : Nat} {acc : List Byte} {err : Err} (ha : 1 ≤ accel) (hD : dm = .noDict → D = [])
    (h : chunkLoop P S D dm accel cape fuel pos acc e = .raised err e' w) :
    err = .outputBoundExceeded ∨ err = .chunkProgressFailure ∧ P.chunkMax < S.length := by
  induction fuel generalizing pos acc e with
  | zero => cases h
  | succ fuel ih =>
    rcases chunkLoop_round (P := P) (S := S) (cape := cape) ha hD fuel pos acc e with
      ⟨e1, w, -, hr⟩ | ⟨e1, k, seqs', anchor, -, ⟨-, w, hr⟩ | ⟨hrem, ⟨w, hr⟩ | ⟨w, hr⟩ | hr⟩⟩ <;>
      rw [hr] at h
    · cases h; exact .inl rfl
    · cases h
    · cases h; exact .inr ⟨rfl, by omega⟩
    · cases h
    · exact ih h

/-- What a successful COMPRESS wrote stands for its source (R75, R83, R84, R205). -/
theorem chunkCompress_expands (ha : 1 ≤ accel) (hD : dm = .noDict → D = [])
    (hdm : dm = .noDict ∨ S.length ≤ P.chunkMax) (h : chunkCompress P S D dm accel cape e = .stream out e' w) :
    ∃ seqs lits, (∀ t ∈ seqs, isSeqToken t = true) ∧ (seqs ≠ [] → 5 ≤ lits.length) ∧
      out = seqs.flatMap encodeToken ++ encodeToken (.last 0#4 lits) ∧
      growTokens (seqs ++ [.last 0#4 lits]) D = some (D ++ S) :=
  chunkLoop_expands ha hD hdm (.inr rfl) ⟨by simp, Nat.zero_le _, by simp [growTokens], .inl rfl, rfl⟩ h

/-- A source of one chunk succeeds with a capacity of COMPRESS_BOUND (R107, R207). -/
theorem chunkCompress_succeeds (ha : 1 ≤ accel) (hD : dm = .noDict → D = []) (hS : S.length ≤ P.chunkMax)
    (hcap : compressBound S.length ≤ cape) : ∃ out e' w, chunkCompress P S D dm accel cape e = .stream out e' w := by
  have hone : compressBound (roundChunk P S D dm accel cape 0 []).n ≤ (roundChunk P S D dm accel cape 0 []).cap := by
    rwa [roundChunk_n, Nat.sub_zero, Nat.min_eq_left hS]
  rcases chunkLoop_round (P := P) (S := S) (cape := cape) ha hD S.length 0 [] e with
    ⟨e1, w, hover, -⟩ | ⟨e1, k, seqs, anchor, -, ⟨-, w, hr⟩ | ⟨hrem, -⟩⟩
  · exact absurd hover (runEngine_not_overflow (chunkOver_roundChunk ha hD 0 []) hone)
  · exact ⟨_, e1, w, hr⟩
  · omega

end

end Sys2Proof.Machine
end

section
/-! COMPRESS as a command (R97, R98, R107): what its stream stands for with the command's dictionary, when it raises, and
the statements of the family about it. -/

namespace Sys2Proof.Machine

/-! ### The dictionary and the capacity -/

/-- The effective dictionary is none, or the command's, which a check has kept to one chunk (R95, R97). -/
theorem compressDict_cases (P : Config.Params) (d : DictMode) (l : Latch) (m : Memory) :
    compressDict P d l m = (.noDict, []) ∨ d ≠ .noDict ∧ compressDict P d l m = (d, dictBytes .compress d l m) := by
  unfold compressDict
  split
  · exact .inl rfl
  · rename_i h
    exact .inr ⟨fun hd => h (.inl hd), rfl⟩

theorem compressDict_noDict {P : Config.Params} {d : DictMode} {l : Latch} {m : Memory}
    (h : (compressDict P d l m).1 = .noDict) : (compressDict P d l m).2 = [] := by
  rcases compressDict_cases P d l m with hc | ⟨hd, hc⟩ <;> rw [hc] at h ⊢
  exact absurd h hd

theorem srcBytes_length (l : Latch) (m : Memory) : (srcBytes l m).length = l.srcLen.toNat := readBytes_length ..

/-- A running COMPRESS with a dictionary has a source of one chunk (R95, R209). -/
theorem compressDict_oneChunk {d : DictMode} {s : State} (hr : Running .compress d s) :
    (compressDict Config.hw d s.latch s.mem).1 = .noDict ∨ (srcBytes s.latch s.mem).length ≤ Config.hw.chunkMax := by
  rcases compressDict_cases Config.hw d s.latch s.mem with hc | ⟨hd, -⟩
  · exact .inl (by rw [hc])
  · rw [srcBytes_length]
    exact .inr ((checkCommand_none hr.2).2.2 rfl hd)

/-- The write range lies in host memory (R59). -/
theorem rangesInSpace_dst {op : Op} {d : DictMode} {l : Latch} (h : rangesInSpace op d l = true) :
    l.dstAddr.toNat + capacity op l ≤ 2 ^ 64 := by
  simp only [rangesInSpace, Bool.and_eq_true, decide_eq_true_eq] at h
  exact h.1.1.2

/-! ### The stream -/

/-- A stream takes at most 256 bytes for every 255 it stands for, and two more (R168). -/
theorem Expands.length_le {D T out : List Byte} (h : Expands D T out) : 255 * T.length ≤ 256 * out.length + 495 := by
  obtain ⟨seqs, mln, lits, hseq, rfl, hg⟩ := h
  obtain ⟨m, hm, hlast⟩ := growTokens_append_eq_some.1 hg
  have hsize := flatMap_encodeToken_length_le hseq hm
  have hlen : m.length + lits.length = D.length + out.length := by
    have := congrArg List.length (Option.some.inj hlast)
    rwa [List.length_append, List.length_append] at this
  rw [List.length_append, encodeToken_length, tokenSize, lenExtSize_eq]
  omega

/-- The stream of a COMPRESS stands for its source with its dictionary (R75, R97, R107). -/
theorem compressRun_expands {d : DictMode} {s : State} (hr : Running .compress d s) {out : List Byte} {e : Engine}
    {w : Wrapper} (h : compressRun d s = .stream out e w) :
    Expands (dictBytes .compress d s.latch s.mem) out (srcBytes s.latch s.mem) := by
  obtain ⟨seqs, lits, hseq, -, hout, hg⟩ :=
    chunkCompress_expands (Nat.le_max_right _ _) compressDict_noDict (compressDict_oneChunk hr) h
  refine ⟨seqs, 0#4, lits, hseq, hout, ?_⟩
  rcases compressDict_cases Config.hw d s.latch s.mem with hc | ⟨-, hc⟩ <;> rw [hc] at hg
  · simpa using growTokens_prepend (dictBytes .compress d s.latch s.mem) hg
  · exact hg

/-- RESULT_LEN can count the stream of a running COMPRESS (R28, R168). -/
theorem compressRun_length_lt {d : DictMode} {s : State} (hr : Running .compress d s) {out : List Byte} {e : Engine}
    {w : Wrapper} (h : compressRun d s = .stream out e w) : out.length < 2 ^ 64 := by
  have hbound := (compressRun_expands hr h).length_le
  have hcap : out.length ≤ capacity .compress s.latch := chunkCompress_cap h
  have hspace := rangesInSpace_dst (checkCommand_none hr.2).1
  rw [srcBytes_length] at hbound
  simp only [capacity, compressBound] at hcap hspace
  split at hcap
  · rename_i h0
    rw [if_pos h0] at hspace
    omega
  · omega

/-- A COMPRESS that succeeds leaves its stream at DST_ADDR and the stream's length in RESULT_LEN (R98). -/
theorem exec_compress_done {s t : State} {i : Instr} {d : DictMode} {w : Word} (hi : CompressForm i d w)
    (hr : Running .compress d s) (hwf : memoryWf s.mem = true) (ht : exec i s = .next t) (hst : t.status = doneWord) :
    Expands (dictBytes .compress d s.latch s.mem) (readBytes t.mem s.latch.dstAddr.toNat t.resultLen.toNat)
      (srcBytes s.latch s.mem) := by
  obtain ⟨rfl, -⟩ := compressForm_iff.1 hi
  have hsp := (checkCommand_none hr.2).1
  rw [exec_commandOf, if_pos hr.1] at ht
  rcases completeCompress_cases hsp with ⟨out, e, wr, hrun, hcap, hnext⟩ | ⟨err, e, wr, -, hnext⟩ <;>
    obtain rfl := Host.Outcome.next.inj (hnext.symm.trans ht)
  · have hfit : s.latch.dstAddr.toNat + out.length ≤ Config.addrSpace :=
      Nat.le_trans (Nat.add_le_add_left hcap _) (rangesInSpace_dst hsp)
    rw [endOk_mem, endOk_resultLen, BitVec.toNat_ofNat, Nat.mod_eq_of_lt (compressRun_length_lt hr hrun),
      readBytes_writeBytes hwf hfit]
    exact compressRun_expands hr hrun
  · cases err <;> cases hst

/-- With DST_CAP = 0 a COMPRESS of at most CHUNK_MAX bytes succeeds (R107, R207). -/
theorem exec_compress_unbounded {s : State} {i : Instr} {d : DictMode} {w : Word} (hi : CompressForm i d w)
    (hr : Running .compress d s) (hcap : s.latch.dstCap = 0#64) (hlen : s.latch.srcLen.toNat ≤ Config.hw.chunkMax) :
    ∃ t, exec i s = .next t ∧ t.status = doneWord := by
  obtain ⟨rfl, -⟩ := compressForm_iff.1 hi
  rw [exec_commandOf, if_pos hr.1]
  have hbound : compressBound (srcBytes s.latch s.mem).length ≤ capacity .compress s.latch := by
    simp [srcBytes_length, capacity, hcap]
  obtain ⟨out, e, wr, hrun⟩ := chunkCompress_succeeds (e := s.engine)
    (accel := effectiveAccel s.latch.accel.toNat) (Nat.le_max_right _ _)
    (compressDict_noDict (P := Config.hw) (d := d) (l := s.latch) (m := s.mem)) (by rwa [srcBytes_length]) hbound
  rcases completeCompress_cases (checkCommand_none hr.2).1 with ⟨_, _, _, -, -, hnext⟩ | ⟨err, _, _, hraised, -⟩
  · exact ⟨_, hnext, rfl⟩
  · rw [compressRun, hrun] at hraised
    cases hraised

/-- Settles O47: what COMPRESS wrote expands to its source with its dictionary, and the decoder decodes what expands. -/
theorem roundTrip : Obligations.RoundTrip := by
  unfold Obligations.RoundTrip
  refine ⟨fun s t u i j d w w' hi hj hr hwf ht hst hru hwfu hsrc hdict hcap => ?_,
    fun s i d w hi hr hcap hlen => exec_compress_unbounded hi hr hcap hlen⟩
  have hx := exec_compress_done hi hr hwf ht hst
  obtain ⟨v, ok, out, hv, hrun, hok, hres, hout, -⟩ := exec_decompress_eq_decodeRun hj hru hwfu
  rw [hsrc, hdict, hcap, ← srcBytes_length s.latch s.mem, ← List.length_append,
    decodeRun_of_expands hx (Nat.le_refl _)] at hrun
  obtain ⟨rfl, hD⟩ := Prod.mk.inj hrun
  obtain rfl := List.append_cancel_left hD
  rw [srcBytes_length] at hres hout
  exact ⟨v, hv, hok, BitVec.eq_of_toNat_eq hres, hout⟩

/-! ### Raised errors -/

theorem not_inRange_iff {a b l : Nat} : ¬ InRange a b l ↔ a < b ∨ b + l ≤ a := by
  simp only [InRange]; omega

/-- Settles O35: `Complete` of a COMPRESS answers what the wrapper does, which raises two errors only. -/
theorem compressCompletesAsTheWrapperAnswers : Obligations.CompressCompletesAsTheWrapperAnswers := by
  unfold Obligations.CompressCompletesAsTheWrapperAnswers
  intro s i d w hi hr dm D hdm
  obtain ⟨rfl, -⟩ := compressForm_iff.1 hi
  have hdict : compressDict Config.hw d s.latch s.mem = (dm, D) := hdm.symm
  have hnone : dm = .noDict → D = [] := by
    have := compressDict_noDict (P := Config.hw) (d := d) (l := s.latch) (m := s.mem)
    rwa [hdict] at this
  rw [exec_commandOf, if_pos hr.1]
  rcases completeCompress_cases (checkCommand_none hr.2).1 with
    ⟨out, e, wr, hrun, hcap, hnext⟩ | ⟨err, e, wr, hrun, hnext⟩ <;>
    rw [hdict] at hnext <;> rw [compressRun, hdict] at hrun
  · exact .inl ⟨out, e, wr, hrun, hnext, hcap, fun a ha => readByte_writeBytes_outside (not_inRange_iff.1 ha)⟩
  · have herr := chunkLoop_raised (Nat.le_max_right _ _) hnone hrun
    rw [srcBytes_length] at herr
    have hstatus : errorWord err = if err = .outputBoundExceeded then 0x206#64 else 0x306#64 := by
      rcases herr with rfl | ⟨rfl, -⟩ <;> rfl
    refine .inr ⟨err, e, wr, fillFree s.mem s.latch.dstAddr.toNat (capacity .compress s.latch) s.draws, hrun, herr, ?_,
      fun a ha => readByte_fillFree_outside (not_inRange_iff.1 ha)⟩
    rw [← hstatus]
    exact hnext

end Sys2Proof.Machine
end

section
/-! `Start` and the register window: the ranges that are bad in the numbers of the registers (R57 to R60, R95), the checks in
their order, and what a register access at an offset of the window does (R91 to R93). -/

namespace Sys2Proof.Machine

/-! ### The checks of Start -/

/-- Two ranges overlap where an address lies in both (R60). -/
theorem overlaps_iff {r q : Region} :
    r.overlaps q = true ↔ ∃ a, InRange a r.base r.len ∧ InRange a q.base q.len := by
  simp only [Region.overlaps, Bool.and_eq_true, decide_eq_true_eq]
  constructor
  · rintro ⟨⟨⟨hr, hq⟩, hrq⟩, hqr⟩
    exact ⟨max r.base q.base, ⟨by omega, by omega⟩, by omega, by omega⟩
  · rintro ⟨a, ⟨h1, h2⟩, h3, h4⟩
    omega

/-- The capacity in the numbers of the registers (R96). -/
theorem capacity_eq (op : Op) (l : Latch) : capacity op l =
    if op = .compress ∧ l.dstCap.toNat = 0 then l.srcLen.toNat + l.srcLen.toNat / 255 + 16 else l.dstCap.toNat := by
  have hzero : l.dstCap = 0 ↔ l.dstCap.toNat = 0 := BitVec.toNat_inj.symm
  cases op with
  | compress => exact if_congr (hzero.trans (and_iff_right rfl).symm) rfl rfl
  | decompress => exact (if_neg fun h => nomatch h.1).symm

theorem prefixEnd_eq (op : Op) (l : Latch) :
    prefixEnd op l = if op = .compress then l.srcAddr.toNat else l.dstAddr.toNat := by
  cases op <;> rfl

theorem prefixEnd_lt (op : Op) (l : Latch) : prefixEnd op l < 2 ^ 64 := by
  cases op
  · exact l.srcAddr.isLt
  · exact l.dstAddr.isLt

/-- A range leaves host memory, or a PREFIX dictionary would start below 0 (R59). -/
theorem rangesInSpace_eq_false_iff {op : Op} {d : DictMode} {l : Latch} :
    rangesInSpace op d l = false ↔
      2 ^ 64 < l.srcAddr.toNat + l.srcLen.toNat ∨ 2 ^ 64 < l.dstAddr.toNat + capacity op l ∨
      (d = .usingExtDict ∧ 2 ^ 64 < l.dictAddr.toNat + l.dictLen.toNat) ∨
      (d = .withPrefix64k ∧ prefixEnd op l < min l.dictLen.toNat 65536) := by
  have hprefix := prefixEnd_lt op l
  cases d <;>
    simp only [rangesInSpace, Bool.and_eq_false_iff, decide_eq_false_iff_not, Bool.true_eq_false, reduceCtorEq, true_and,
      false_and, or_false, false_or] <;>
    simp only [srcRegion, dstRegion, dictEnd, dictLenUsed, Config.addrSpace, Config.dictWindow] <;> omega

/-- An address is both written and read (R60). -/
theorem rangesApart_eq_false_iff {op : Op} {d : DictMode} {l : Latch} :
    rangesApart op d l = false ↔ ∃ a, InRange a l.dstAddr.toNat (capacity op l) ∧
      (InRange a l.srcAddr.toNat l.srcLen.toNat ∨
       (d = .withPrefix64k ∧
          InRange a (prefixEnd op l - min l.dictLen.toNat 65536) (min l.dictLen.toNat 65536)) ∨
       (d = .usingExtDict ∧
          InRange a (l.dictAddr.toNat + l.dictLen.toNat - min l.dictLen.toNat 65536) (min l.dictLen.toNat 65536))) := by
  have hdict : (∃ a, InRange a (dstRegion op l).base (dstRegion op l).len ∧
        InRange a (dictRegion op d l).base (dictRegion op d l).len) ↔
      ∃ a, InRange a l.dstAddr.toNat (capacity op l) ∧
        ((d = .withPrefix64k ∧
          InRange a (prefixEnd op l - min l.dictLen.toNat 65536) (min l.dictLen.toNat 65536)) ∨
         (d = .usingExtDict ∧
          InRange a (l.dictAddr.toNat + l.dictLen.toNat - min l.dictLen.toNat 65536) (min l.dictLen.toNat 65536))) := by
    cases d <;>
      simp [dstRegion, dictRegion, dictEnd, dictLenUsed, Config.dictWindow]
  rw [rangesApart, Bool.and_eq_false_iff, Bool.not_eq_false', Bool.not_eq_false', overlaps_iff, overlaps_iff, hdict,
    ← exists_or]
  exact exists_congr fun a => and_or_left.symm

/-- The checks of the ranges in the numbers of the registers (R57 to R60, R95). -/
theorem badRanges_iff {op : Op} {d : DictMode} {l : Latch} :
    BadRanges op d l.srcAddr.toNat l.srcLen.toNat l.dstAddr.toNat
        (if op = .compress ∧ l.dstCap.toNat = 0 then l.srcLen.toNat + l.srcLen.toNat / 255 + 16 else l.dstCap.toNat)
        l.dictAddr.toNat l.dictLen.toNat ↔
      (rangesInSpace op d l && rangesApart op d l) = false := by
  rw [Bool.and_eq_false_iff, rangesInSpace_eq_false_iff, rangesApart_eq_false_iff, ← capacity_eq, prefixEnd_eq, BadRanges]
  simp only [or_assoc]

theorem startCheck_wordOf (op : Op) (d : DictMode) (s : State) :
    startCheck (wordOf op d) s = checkCommand op d (latchOf (wordOf op d) s) := by
  rw [startCheck, decodeFields_wordOf]

/-- Settles O11: a word is a command's, or none's; `checkCommand` makes the other checks in order. -/
theorem startCheckFindsTheFirstFailure : Obligations.StartCheckFindsTheFirstFailure := by
  unfold Obligations.StartCheckFindsTheFirstFailure
  refine fun s w => ⟨fun hno => ?_, fun i op d hform => ?_⟩
  · refine startCheck_eq_illegalCommand_iff.2 fun i hdec => ?_
    obtain ⟨op, d, hw, hi⟩ := decodeCommand_eq_ok_iff.1 hdec
    exact hno i op d (commandForm_iff.2 ⟨hi, hw⟩)
  · obtain ⟨-, rfl⟩ := commandForm_iff.1 hform
    have hbad := badRanges_iff (op := op) (d := d) (l := latchOf (wordOf op d) s)
    rw [startCheck_wordOf, checkCommand]
    refine ⟨fun h => ?_, fun h => ?_⟩
    · rw [hbad.1 h]; rfl
    · have hok := Bool.eq_true_of_not_eq_false fun h0 => h (hbad.2 h0)
      rw [hok]
      simp only [Bool.not_true, Bool.false_eq_true, if_false, Bool.and_eq_true, decide_eq_true_eq, and_assoc]
      rfl

/-! ### Start -/

/-- STATUS of an error in numbers (R23, R93). -/
theorem errorWord_eq (e : Err) : errorWord e = BitVec.ofNat 64 ((errCode e).toNat * 256 + 0b110) := by
  cases e <;> rfl

/-- A CMD write at idle is `Start`: the error of `StartCheck` at once, or the latch and BUSY (R93). -/
theorem writeCommand_eq {w : Word} {s : State} (hb : s.busy = false) :
    (∀ e, startCheck w s = some e → writeCommand w s = .next (endWithError e 0 s)) ∧
    (startCheck w s = none → writeCommand w s = .next (beginCommand (latchOf w s) s)) := by
  cases hf : decodeFields w with
  | error err => simp [startCheck, writeCommand, decodeCommand, hf, startIllegal]
  | ok p =>
    obtain ⟨op, d⟩ := p
    obtain rfl := decodeFields_eq_ok_iff.1 hf
    rw [startCheck_wordOf, writeCommand, decodeCommand_wordOf]
    simp only [exec_commandOf, hb, Bool.false_eq_true, if_false, startCommand]
    exact ⟨fun e he => by rw [he], fun hn => by rw [hn]⟩

/-! ### Register accesses -/

theorem windowCheck_aligned {off : Nat} (hlt : off < 0x100) (hal : off % 8 = 0) : windowCheck off 64 = none := by
  rw [windowCheck, if_neg (Nat.not_le.2 hlt), if_pos ⟨rfl, hal⟩]

/-- ACCEL reads its 32 bits, zero-extended (R91). -/
theorem regRead_accel (s : State) : regRead s 0x40 = BitVec.ofNat 64 s.accel.toNat :=
  BitVec.eq_of_toNat_eq (by simp [regRead])

/-- A reserved offset reads 0 (R91). -/
theorem regRead_reserved {s : State} {off : Nat} (h : 0x50 ≤ off) : regRead s off = 0#64 := by
  rw [regRead]
  iterate 9 rw [if_neg (by omega)]
  rfl

/-- STATUS, RESULT_LEN and the reserved offsets ignore a write (R92). -/
theorem regWrite_ignored {s : State} {off : Nat} (h : off = 0x08 ∨ off = 0x48 ∨ 0x50 ≤ off) (v : Word) :
    regWrite s off v = s := by
  rw [regWrite]
  iterate 7 rw [if_neg (by omega)]

section
variable {s : State} {off : Nat} {rest : List HostMove}

theorem step_regRead (hlt : off < 0x100) (hal : off % 8 = 0) (hh : s.host = .regRead off 64 :: rest) :
    step s = .next { s with host := rest, readData := regRead s off } := by
  simp only [step, machineStep, hh, hostMove, windowCheck_aligned hlt hal]
  rfl

theorem step_regWrite {v : Word} (hlt : off < 0x100) (hal : off % 8 = 0) (hh : s.host = .regWrite off 64 v :: rest) :
    step s = busRegWrite off v { s with host := rest } := by
  simp only [step, machineStep, hh, hostMove, windowCheck_aligned hlt hal]

theorem step_regWrite_busy {v : Word} (hlt : off < 0x100) (hal : off % 8 = 0) (hh : s.host = .regWrite off 64 v :: rest)
    (hb : s.busy = true) : step s = .next { s with host := rest } := by
  rw [step_regWrite hlt hal hh, busRegWrite]
  exact if_pos hb

theorem step_regWrite_idle {v : Word} (hlt : off < 0x100) (hal : off % 8 = 0) (hh : s.host = .regWrite off 64 v :: rest)
    (hb : s.busy = false) (h0 : off ≠ 0) : step s = .next (regWrite { s with host := rest } off v) := by
  rw [step_regWrite hlt hal hh, busRegWrite]
  exact (if_neg (Bool.eq_false_iff.1 hb)).trans (if_neg h0)

/-- A write of CMD at idle is `Start` (R92, R93). -/
theorem step_commandWritten {w : Word} (h : CommandWritten s w rest) :
    (∀ e, startCheck w s = some e → step s = .next (endWithError e 0 { s with host := rest })) ∧
    (startCheck w s = none → step s = .next (beginCommand (latchOf w s) { s with host := rest })) := by
  obtain ⟨hb, hh⟩ := h
  have hstep : step s = writeCommand w { s with host := rest } := by
    rw [step_regWrite (by decide) rfl hh, busRegWrite]
    exact (if_neg (Bool.eq_false_iff.1 hb)).trans (if_pos rfl)
  rw [hstep]
  exact writeCommand_eq (s := { s with host := rest }) hb

end

/-- Settles O10: a write of CMD at idle is `Start`, and `endWithError` and `beginCommand` say what each half changes. -/
theorem startChecksThenLatches : Obligations.StartChecksThenLatches := by
  unfold Obligations.StartChecksThenLatches
  intro s w rest hw
  obtain ⟨herr, hok⟩ := step_commandWritten hw
  refine ⟨fun e he => ?_, hok⟩
  rw [herr e he, endWithError, errorWord_eq]

/-- Settles O4: a read of the window returns `regRead`, taken offset by offset. -/
theorem registerReadsReturnTheRegister : Obligations.RegisterReadsReturnTheRegister := by
  unfold Obligations.RegisterReadsReturnTheRegister
  intro s off rest hlt hal hh
  refine ⟨regRead s off, step_regRead hlt hal hh, ?_, ?_, ?_, ?_, ?_, ?_, ?_, ?_, ?accel, ?_, regRead_reserved⟩
  case accel =>
    rintro rfl
    exact regRead_accel s
  all_goals rintro rfl; rfl

/-- Settles O5: a write while BUSY is ignored; at idle it is `Start` or `regWrite`, taken offset by offset. -/
theorem registerWritesTakeEffectOnlyAtIdle : Obligations.RegisterWritesTakeEffectOnlyAtIdle := by
  unfold Obligations.RegisterWritesTakeEffectOnlyAtIdle
  intro s off v rest hlt hal hh
  refine ⟨step_regWrite_busy hlt hal hh, fun hb => ⟨?start, ?_, ?_, ?_, ?_, ?_, ?_, ?_, fun hro => ?ignored⟩⟩
  case start =>
    rintro rfl
    obtain ⟨herr, hok⟩ := step_commandWritten ⟨hb, hh⟩
    cases hc : startCheck v s with
    | some e => exact herr e hc
    | none => exact hok hc
  case ignored => rw [step_regWrite_idle hlt hal hh hb (by omega), regWrite_ignored hro]
  all_goals
    rintro rfl
    exact step_regWrite_idle hlt hal hh hb (by decide)

end Sys2Proof.Machine
end

section
/-! The hash table in numbers: the two hashes and their range (R121 to R124), the choice of the table mode (R126), and what
the table holds after `IndexDict` (R132). -/

namespace Sys2Proof.Machine

/-! ### The hashes -/

theorem leNat_four (b0 b1 b2 b3 : Byte) :
    leNat [b0, b1, b2, b3] = b0.toNat + 2 ^ 8 * b1.toNat + 2 ^ 16 * b2.toNat + 2 ^ 24 * b3.toNat := by
  simp only [leNat]; omega

theorem leNat_five (b0 b1 b2 b3 b4 : Byte) :
    leNat [b0, b1, b2, b3, b4] =
      b0.toNat + 2 ^ 8 * b1.toNat + 2 ^ 16 * b2.toNat + 2 ^ 24 * b3.toNat + 2 ^ 32 * b4.toNat := by
  simp only [leNat]; omega

/-- The top `hl` bits of a number modulo 2^w are a number below 2^hl. -/
theorem mod_shiftRight_lt {w hl : Nat} (h : hl ≤ w) (x : Nat) : (x % 2 ^ w) >>> (w - hl) < 2 ^ hl := by
  rw [Nat.shiftRight_eq_div_pow]
  apply Nat.div_lt_of_lt_mul
  rw [← Nat.pow_add, Nat.sub_add_cancel h]
  exact Nat.mod_lt _ (Nat.two_pow_pos w)

theorem hash4_lt (X : Nat → Byte) {hl : Nat} (h : hl ≤ 32) (v : Nat) : hash4 X hl v < 2 ^ hl := mod_shiftRight_lt h _

theorem hash5_lt (X : Nat → Byte) {hl : Nat} (h : hl ≤ 64) (v : Nat) : hash5 X hl v < 2 ^ hl := mod_shiftRight_lt h _

theorem hashAt_wide {ch : Chunk} (h : ch.params.arch64 = true) (v : Nat) :
    hashAt ch .u32 v = hash5 ch.bytes (hashWidth .u32) v :=
  if_pos ⟨rfl, h⟩

theorem hashAt_of_not_wide {ch : Chunk} {tm : TableMode} (h : ¬ (tm = .u32 ∧ ch.params.arch64 = true)) (v : Nat) :
    hashAt ch tm v = hash4 ch.bytes (hashWidth tm) v :=
  if_neg h

/-- Settles O22: the formulas are the definitions with `leNat` and the shifts read as numbers. -/
theorem hashesAreTheMultiplicativeHashes : Obligations.HashesAreTheMultiplicativeHashes := by
  unfold Obligations.HashesAreTheMultiplicativeHashes
  refine ⟨fun X hl v h => ⟨?hash4, hash4_lt X h v⟩, fun X hl v h => ⟨?hash5, hash5_lt X h v⟩, by decide, by decide,
    by decide, ⟨rfl, rfl, rfl⟩, rfl, fun ch v => ⟨?u16, ?ptr, fun hwide => hashAt_wide hwide v, ?narrow⟩⟩
  case hash4 => rw [hash4, leNat_four, Nat.shiftRight_eq_div_pow, Config.prime4]
  case hash5 => rw [hash5, leNat_five, Nat.shiftLeft_eq, Nat.shiftRight_eq_div_pow, Config.prime5]
  case u16 => exact hashAt_of_not_wide (by simp) v
  case ptr => exact hashAt_of_not_wide (by simp) v
  case narrow => exact fun hnarrow => hashAt_of_not_wide (by simp [hnarrow]) v

/-! ### The table mode -/

theorem selectMode_dict {P : Config.Params} {n : Nat} {dm : DictMode} (h : dm ≠ .noDict) : selectMode P n dm = .u32 :=
  if_pos h

theorem selectMode_noDict (P : Config.Params) (n : Nat) :
    selectMode P n .noDict = if n < Config.u16Limit then .u16 else if P.arch64 then .u32 else .ptr :=
  if_neg (not_not.2 rfl)

/-- Settles O23: the four lines are the branches of `selectMode`. -/
theorem selectModeFollowsTheTable : Obligations.SelectModeFollowsTheTable := by
  unfold Obligations.SelectModeFollowsTheTable
  intro P n dm
  refine ⟨selectMode_dict, ?short, ?wide, ?narrow⟩ <;> rintro rfl <;> rw [selectMode_noDict]
  case short => exact fun hn => if_pos hn
  case wide => exact fun hn hwide => (if_neg (Nat.not_lt.2 hn)).trans (if_pos hwide)
  case narrow => exact fun hn hnarrow => (if_neg (Nat.not_lt.2 hn)).trans (if_neg (Bool.eq_false_iff.1 hnarrow))

/-! ### The dictionary's index -/

section

/-- The slot of an indexed position, in the table mode of the dictionary modes (R126, R132). -/
def dictSlot (ch : Chunk) (j : Nat) : Nat := hashAt ch .u32 (Config.dictBias + 3 * j)

/-- The table indexes the dictionary positions 0, 3, …, 3(m − 1) and no others: each one's slot holds it or a later one of
them, and every slot's content is one of them in its own slot (R132). -/
def IndexesFirst (ch : Chunk) (m : Nat) (ht : List (Nat × Nat)) : Prop :=
  (∀ j < m, ∃ k, j ≤ k ∧ k < m ∧ dictSlot ch k = dictSlot ch j ∧
    slotGet ht (dictSlot ch j) = some (Config.dictBias + 3 * k)) ∧
  ∀ h v, slotGet ht h = some v → ∃ k < m, v = Config.dictBias + 3 * k ∧ h = dictSlot ch k

variable {ch : Chunk} {m : Nat} {ht : List (Nat × Nat)}

theorem IndexesFirst.empty (ch : Chunk) : IndexesFirst ch 0 [] :=
  ⟨fun _ hj => absurd hj (Nat.not_lt_zero _), fun _ _ hv => nomatch hv⟩

/-- A put of the next position takes over one slot, which becomes its own (R128, R131). -/
theorem IndexesFirst.succ (h : IndexesFirst ch m ht) :
    IndexesFirst ch (m + 1) (slotPut ht (dictSlot ch m) (Config.dictBias + 3 * m)) := by
  obtain ⟨hheld, honly⟩ := h
  constructor
  · intro j hj
    by_cases hslot : dictSlot ch j = dictSlot ch m
    · exact ⟨m, Nat.le_of_lt_succ hj, m.lt_succ_self, hslot.symm, by rw [hslot, slotGet_slotPut_same]⟩
    · have hne : j ≠ m := fun hjm => hslot (congrArg _ hjm)
      obtain ⟨k, hjk, hkm, hhash, hget⟩ := hheld j (by omega)
      exact ⟨k, hjk, Nat.lt_succ_of_lt hkm, hhash, by rw [slotGet_slotPut_ne _ _ hslot, hget]⟩
  · intro x v hv
    by_cases hx : x = dictSlot ch m
    · rw [hx, slotGet_slotPut_same, Option.some.injEq] at hv
      exact ⟨m, m.lt_succ_self, hv.symm, hx⟩
    · rw [slotGet_slotPut_ne _ _ hx] at hv
      obtain ⟨k, hkm, hk⟩ := honly x v hv
      exact ⟨k, Nat.lt_succ_of_lt hkm, hk⟩

/-- `IndexDict`'s loop goes on from position 3m to the last p with p + HASH_UNIT ≤ DL (R132). -/
theorem indexDict_indexesFirst {fuel : Nat} {e : Engine} (htm : e.tm = .u32) (hfuel : ch.dl < 3 * m + fuel)
    (hm : ∀ k < m, 3 * k + Config.hashUnit ch.params ≤ ch.dl) (h : IndexesFirst ch m e.ht) :
    ∃ m', (∀ k, k < m' ↔ 3 * k + Config.hashUnit ch.params ≤ ch.dl) ∧
      IndexesFirst ch m' (indexDict ch fuel (3 * m) e).ht := by
  induction fuel generalizing m e with
  | zero => exact ⟨m, fun k => ⟨hm k, by omega⟩, h⟩
  | succ fuel ih =>
    rw [indexDict]
    split
    · rename_i hle
      refine ih (m := m + 1) htm (by omega) (fun k hk => by omega) ?_
      have hput : (put ch (Config.dictBias + 3 * m) e).ht = slotPut e.ht (dictSlot ch m) (Config.dictBias + 3 * m) := by
        rw [put, htm, dictSlot]
      rw [hput]
      exact h.succ
    · exact ⟨m, fun k => ⟨hm k, by omega⟩, h⟩

theorem setupTable_ht_noDict (hdm : ch.dm = .noDict) (e : Engine) : (setupTable ch e).ht = [] := by
  simp [setupTable, hdm, clearTable]

/-- The table made ready for a dictionary indexes all of R132's positions (R201). -/
theorem setupTable_indexesFirst (hdm : ch.dm ≠ .noDict) (e : Engine) :
    ∃ m, (∀ k, k < m ↔ 3 * k + Config.hashUnit ch.params ≤ ch.dl) ∧ IndexesFirst ch m (setupTable ch e).ht := by
  simp only [setupTable, if_neg hdm]
  exact indexDict_indexesFirst (m := 0) (selectMode_dict hdm) (by omega) (fun k hk => absurd hk k.not_lt_zero) (.empty ch)

end

/-- Settles O25: the loop's invariant `IndexesFirst` with all of R132's positions indexed. -/
theorem dictionaryIndexHoldsEveryThirdPosition : Obligations.DictionaryIndexHoldsEveryThirdPosition := by
  unfold Obligations.DictionaryIndexHoldsEveryThirdPosition
  intro ch e
  refine ⟨setupTable_tm ch e, fun hdm => setupTable_ht_noDict hdm e, fun hdm => ?_⟩
  obtain ⟨m, hm, hheld, honly⟩ := setupTable_indexesFirst hdm e
  constructor
  · intro j hj
    obtain ⟨k, hjk, hkm, hslot, hget⟩ := hheld j ((hm j).2 hj)
    exact ⟨k, hjk, (hm k).1 hkm, hslot, hget⟩
  · rintro x v hv
    obtain ⟨k, hkm, rfl, hx⟩ := honly x v hv
    exact ⟨k, rfl, (hm k).1 hkm, hx⟩

end Sys2Proof.Machine
end

section
/-! The match finder as far as it goes: the skip schedule in closed form (R141 to R143), catch-up (R150) and the forward
count (R151). -/

namespace Sys2Proof.Machine

/-! ### The skip schedule -/

section

/-- What the j-th probe of a search leaves of the schedule, with the probe positions `pos` (R143). -/
structure AfterProbe (accel : Nat) (pos : Nat → Nat) (j : Nat) (e : Engine) : Prop where
  p    : e.p = pos j
  fwd  : e.fwd = pos (j + 1)
  step : e.step = accel + j / 64
  nb   : e.nb = 64 * accel + j + 1

variable {ch : Chunk} {start : Nat} {e : Engine} {pos : Nat → Nat}

theorem AfterProbe.first (h0 : pos 0 = start) (h1 : pos 1 = start + 1) :
    AfterProbe ch.accel pos 0 (probe ch (beginSeek ch start e)) := by
  obtain ⟨hp, hfwd, hstep, hnb⟩ := probe_schedule ch (beginSeek ch start e)
  have hnb0 : (beginSeek ch start e).nb = 64 * ch.accel := skipShift_shiftLeft ch.accel
  exact ⟨hp.trans h0.symm, hfwd.trans h1.symm, by omega, by omega⟩

theorem AfterProbe.next {j : Nat} (h : AfterProbe ch.accel pos j e)
    (hpos : pos (j + 1 + 1) = pos (j + 1) + ch.accel + j / 64) : AfterProbe ch.accel pos (j + 1) (probe ch e) := by
  obtain ⟨-, hfwd, hstep, hnb⟩ := h
  obtain ⟨hp', hfwd', hstep', hnb'⟩ := probe_schedule ch e
  exact ⟨by omega, by omega, by omega, by omega⟩

theorem afterProbe_iterate (h0 : pos 0 = start) (h1 : pos 1 = start + 1)
    (hpos : ∀ j, 1 ≤ j → pos (j + 1) = pos j + ch.accel + (j - 1) / 64) (j : Nat) :
    AfterProbe ch.accel pos j ((probe ch)^[j + 1] (beginSeek ch start e)) := by
  induction j with
  | zero => exact .first h0 h1
  | succ j ih =>
    rw [Function.iterate_succ_apply']
    exact ih.next (hpos (j + 1) (Nat.succ_pos j))

/-- A probe ends the search exactly where the successor it leaves lies past PROBE_LIMIT (R142). -/
theorem probe_phase_lastLiterals (ch : Chunk) (e : Engine) :
    (probe ch e).phase = .lastLiterals ↔ probeLimit ch.params.variant ch.n < ((probe ch e).fwd : Int) := by
  rw [probeLimit_lt, (probe_schedule ch e).2.1]
  rcases probe_cases ch e with ⟨hpast, h⟩ | ⟨hle, ⟨ht, c, h⟩ | ⟨ht, c, h⟩⟩ <;> rw [h]
  · exact iff_of_true rfl hpast
  · exact iff_of_false nofun (Nat.not_lt.2 hle)
  · exact iff_of_false nofun (Nat.not_lt.2 hle)

end

/-- Settles O26, by induction on the number of probes: each probe takes the schedule one position on, whether it is rejected
or not. -/
theorem skipScheduleClosedForm : Obligations.SkipScheduleClosedForm := by
  unfold Obligations.SkipScheduleClosedForm
  intro ch start e pos h0 h1 hpos j _
  obtain ⟨hp, hfwd, hstep, hnb⟩ := afterProbe_iterate (e := e) h0 h1 hpos j
  refine ⟨hp, hfwd, hstep, hnb, ?_⟩
  rw [← hfwd, Function.iterate_succ_apply']
  exact probe_phase_lastLiterals ch _

/-! ### Catch-up -/

section
variable {ch : Chunk} {anchor lo p c : Nat}

theorem catchUpLow_eq (ch : Chunk) (c : Nat) : catchUpLow ch c =
    if ch.dm = .noDict then 0 else if ch.dm = .usingExtDict ∧ ch.sb ≤ c then ch.sb else 65536 := by
  cases hdm : ch.dm <;> simp [catchUpLow, hdm, Config.dictBias]

theorem catchUpLoop_low (hlo : lo ≤ c) : lo ≤ (catchUpLoop ch anchor lo p c).2 := by
  fun_induction catchUpLoop ch anchor lo p c with
  | case1 c => exact hlo
  | case2 p c hback ih =>
    obtain ⟨-, hlow, -⟩ := hback
    exact ih (Nat.le_sub_one_of_lt hlow)
  | case3 p c hstop => exact hlo

/-- Every byte catch-up steps over agrees with the candidate's. -/
theorem catchUpLoop_bytes_eq {j : Nat} (hj : j < p - (catchUpLoop ch anchor lo p c).1) :
    ch.bytes (ch.sb + (catchUpLoop ch anchor lo p c).1 + j) = ch.bytes ((catchUpLoop ch anchor lo p c).2 + j) := by
  fun_induction catchUpLoop ch anchor lo p c with
  | case1 c => exact absurd hj (Nat.not_lt_zero j)
  | case2 p c hback ih =>
    obtain ⟨-, -, heq⟩ := hback
    obtain ⟨d, hp, hc, -⟩ := catchUpLoop_spec ch anchor lo p (c - 1)
    by_cases hlast : j = d
    · rw [hlast, Nat.add_assoc, hp, hc]
      exact heq
    · exact ih (by omega)
  | case3 p c hstop => omega

theorem catchUpLoop_stops (ha : anchor ≤ p) (hlo : lo ≤ c) :
    (catchUpLoop ch anchor lo p c).1 = anchor ∨ (catchUpLoop ch anchor lo p c).2 = lo ∨
      ch.bytes (ch.sb + (catchUpLoop ch anchor lo p c).1 - 1) ≠ ch.bytes ((catchUpLoop ch anchor lo p c).2 - 1) := by
  fun_induction catchUpLoop ch anchor lo p c with
  | case1 c => exact .inl (Nat.le_zero.1 ha).symm
  | case2 p c hback ih =>
    obtain ⟨hanchor, hlow, -⟩ := hback
    exact ih (Nat.le_of_lt_succ hanchor) (Nat.le_sub_one_of_lt hlow)
  | case3 p c hstop =>
    by_cases hanchor : p + 1 = anchor
    · exact .inl hanchor
    by_cases hlow : c = lo
    · exact .inr (.inl hlow)
    · exact .inr (.inr fun heq => hstop ⟨by omega, by omega, heq⟩)

end

/-- Settles O28: the loop's bounds, the bytes it steps over and where it stops. -/
theorem catchUpGoesAsFarBackAsItCan : Obligations.CatchUpGoesAsFarBackAsItCan := by
  unfold Obligations.CatchUpGoesAsFarBackAsItCan
  intro ch e lo hlow ha hlo
  rw [← catchUpLow_eq ch e.c] at hlow
  subst hlow
  obtain ⟨d, hp, hc, hanchor⟩ := catchUpLoop_spec ch e.anchor (catchUpLow ch e.c) e.p e.c
  exact ⟨_, _, rfl, hanchor ha, by omega, catchUpLoop_low hlo, by omega, by omega,
    fun j hj => catchUpLoop_bytes_eq hj, catchUpLoop_stops ha hlo⟩

/-! ### The forward count -/

/-- Short of its limit the count stops at bytes that differ. -/
theorem countEqual_stops {X : Nat → Byte} {limit a b : Nat} (h : countEqual X limit a b < limit) :
    X (a + countEqual X limit a b) ≠ X (b + countEqual X limit a b) := by
  induction limit generalizing a b with
  | zero => exact absurd h (Nat.not_lt_zero _)
  | succ limit ih =>
    rw [countEqual] at h ⊢
    split
    · rename_i heq
      rw [if_pos heq] at h
      rw [Nat.add_comm _ 1, ← Nat.add_assoc, ← Nat.add_assoc]
      exact ih (Nat.lt_of_succ_lt_succ h)
    · assumption

/-- A count that ends before MATCH_LIMIT ends at bytes that differ (R151). -/
theorem countMatch_stops {ch : Chunk} {p c : Nat} (h : countMatch ch p c < ch.n - (p + 9)) :
    ch.bytes (c + 4 + countMatch ch p c) ≠ ch.bytes (ch.sb + p + 4 + countMatch ch p c) :=
  countEqual_stops h

/-- Settles O29: the count is at most its limit (`countMatch_le`), over bytes that agree, and stops before the limit only
where they differ. -/
theorem countGoesAsFarForwardAsItCan : Obligations.CountGoesAsFarForwardAsItCan := by
  unfold Obligations.CountGoesAsFarForwardAsItCan
  intro ch p c
  have hle := countMatch_le ch p c
  exact ⟨fun hp => by omega, fun j hj => ⟨by omega, countEqual_spec hj⟩, fun hlt => countMatch_stops (by omega)⟩

end Sys2Proof.Machine
end

section
/-! The sizes of lengths and streams: the number of continuation bytes of a length (R161), and COMPRESS_BOUND over every
chunk of a COMPRESS (R168). -/

namespace Sys2Proof.Machine

/-! ### Continuation bytes -/

/-- Settles O18: both forms are those of `lenExtSize`, which counts the bytes, and the rows are evaluated. -/
theorem continuationByteCount : Obligations.ContinuationByteCount := by
  unfold Obligations.ContinuationByteCount
  refine ⟨fun x => ?_, fun x => ?_, by decide⟩
  · rw [lenExt_length, lenExtSize_eq]
  · exact lenExt_length x

/-! ### The output size bound -/

section
variable {P : Config.Params} {S D out acc : List Byte} {dm : DictMode} {accel cape : Nat} {e e' : Engine} {w : Wrapper}

/-- In mode NODICT the dictionary's bytes play no part (R38). -/
theorem chunkLoop_noDict (fuel pos : Nat) :
    chunkLoop P S D .noDict accel cape fuel pos acc e = chunkLoop P S [] .noDict accel cape fuel pos acc e := by
  have hchunk : ∀ (C : List Byte) (final : Bool) (cap : Nat),
      chunkOf P C D .noDict accel final cap = chunkOf P C [] .noDict accel final cap := fun _ _ _ => rfl
  induction fuel generalizing pos acc e with
  | zero => rfl
  | succ fuel ih => simp only [chunkLoop, hchunk _ _ (cape - acc.length), ih]

/-- A chunk's sequence tokens take at most 256 bytes for every 255 of the bytes before its anchor (R168). -/
theorem ChunkOutput.seqs_length_le {ch : Chunk} {C : List Byte} {k anchor : Nat} {seqs : List Token}
    (ho : ChunkOutput ch D C out k seqs anchor) : 255 * (seqs.flatMap encodeToken).length ≤ 256 * anchor := by
  have hsize := flatMap_encodeToken_length_le ho.isSeq ho.grow
  have htake := List.length_take_le anchor C
  rw [List.length_append] at hsize
  omega

/-- The rounds keep 255 bytes of output to 256 of source: each chunk's tokens do, and the last token adds at most its own
byte and one for rounding its LL ext up (R168). -/
theorem chunkLoop_length_le {fuel pos : Nat} (ha : 1 ≤ accel) (hD : dm = .noDict → D = []) (hpos : pos ≤ S.length)
    (hacc : 255 * acc.length ≤ 256 * pos) (h : chunkLoop P S D dm accel cape fuel pos acc e = .stream out e' w) :
    255 * out.length ≤ 256 * S.length + 495 := by
  induction fuel generalizing pos acc e with
  | zero => cases h
  | succ fuel ih =>
    rcases chunkLoop_round (P := P) (S := S) (cape := cape) ha hD fuel pos acc e with
      ⟨e1, w, -, hr⟩ | ⟨e1, k, seqs, anchor, ho, ⟨hrem, w, hr⟩ | ⟨hrem, ⟨w, hr⟩ | ⟨w, hr⟩ | hr⟩⟩ <;>
      rw [hr] at h
    · cases h
    · cases h
      have hseqs := ho.seqs_length_le
      have hanchor := ho.le
      rw [roundChunk_n] at hanchor
      obtain ⟨hf, -, -⟩ | ⟨-, -, hout⟩ := ho.out
      · exact absurd hrem (of_decide_eq_false hf)
      · rw [hout]
        simp only [List.length_append, encodeToken_length, tokenSize, lenExtSize_eq, List.length_drop, List.length_take]
        omega
    · cases h
    · cases h
    · have hseqs := ho.seqs_length_le
      have hanchor := ho.le
      rw [roundChunk_n] at hanchor
      obtain ⟨-, rfl, hout⟩ | ⟨hf, -, -⟩ := ho.out
      · exact ih (by omega) (by rw [hout, List.length_append]; omega) h
      · exact absurd (of_decide_eq_true hf) (Nat.not_le.2 hrem)

/-- A stream takes at most 256 bytes for every 255 of its source, and two more (R168). -/
theorem chunkCompress_length_le (ha : 1 ≤ accel) (h : chunkCompress P S D dm accel cape e = .stream out e' w) :
    255 * out.length ≤ 256 * S.length + 495 := by
  unfold chunkCompress at h
  by_cases hdm : dm = .noDict
  · subst hdm
    rw [chunkLoop_noDict] at h
    exact chunkLoop_length_le ha (fun _ => rfl) (Nat.zero_le _) (Nat.le_refl _) h
  · exact chunkLoop_length_le ha (fun h0 => absurd h0 hdm) (Nat.zero_le _) (Nat.le_refl _) h

end

/-- Settles O32: the bound of `chunkCompress_length_le` lies within COMPRESS_BOUND. -/
theorem outputWithinCompressBound : Obligations.OutputWithinCompressBound := by
  unfold Obligations.OutputWithinCompressBound
  intro P S D out dm accel cape e e' w ha h
  have hsize := chunkCompress_length_le ha h
  omega

end Sys2Proof.Machine
end

section
/-! TOKEN.SEQ in full (46_decoder.md R218 to R229): the state its literals leave and its match starts from, the checks of
the match, and the bytes the match copy writes, from the output or from the dictionary. -/

namespace Sys2Proof.Machine

/-! ### The literals and the match of a sequence token -/

section
variable {s : State} {lits : List Byte} {off : BitVec 16} {mlf : Nat}

/-- The state after a token's literals: written at DST_ADDR + op, the cursor past them (R218 to R221). -/
def literalsTaken (tok : Byte) (lits : List Byte) (s : State) : State :=
  { s with
    mem := writeBytes s.mem (s.latch.dstAddr.toNat + s.dec.op) lits,
    dec := { s.dec with
      i := s.dec.i + (1 + lenExtSize lits.length) + lits.length, op := s.dec.op + lits.length,
      tok := tok, ll := lits.length } }

theorem literalPart_of_fit (tok : Byte) (h : lits.length ≤ capacityLeft s) :
    literalPart tok lits s = .ok (literalsTaken tok lits s) := by
  rw [literalPart_eq, if_neg (Nat.not_lt.2 h), literalsTaken]

theorem literalPart_of_no_room (tok : Byte) (h : capacityLeft s < lits.length) :
    literalPart tok lits s = .error (raiseCorrupt (takeToken tok lits.length (1 + lenExtSize lits.length) s)) := by
  rw [literalPart_eq, if_pos h]

theorem literalsTaken_wrote (tok : Byte) (lits : List Byte) (s : State) :
    Wrote s (literalsTaken tok lits s) lits.length where
  op := rfl
  outside := fun _ hx => readByte_writeBytes_outside hx
  wf := fun hm hb => writeBytes_wf hm hb
  rest := rfl

/-- The offset and the match length of a sequence token pass their checks (R224, R227). -/
def MatchLegal (off : BitVec 16) (mlf : Nat) (s : State) : Prop :=
  off ≠ 0#16 ∧ off.toNat ≤ s.dec.op + decoderDictLen s ∧ mlf + 4 ≤ capacityLeft s

/-- The state a match is copied in: the offset and the ML ext are read (R223 to R226). -/
def matchStart (off : BitVec 16) (mlf : Nat) (s : State) : State :=
  { s with dec := { s.dec with i := s.dec.i + 2 + lenExtSize mlf, ml := mlf + 4, off := off } }

theorem matchPart_of_legal (h : MatchLegal off mlf s) :
    matchPart off mlf s = copyMatch off.toNat (mlf + 4) (matchStart off mlf s) := by
  obtain ⟨hoff, hfar, hfit⟩ := h
  exact (if_neg hoff).trans ((if_neg (Nat.not_lt.2 hfar)).trans (if_neg (Nat.not_lt.2 hfit)))

/-- A check of the match fails before any of its bytes is written (R227). -/
theorem matchPart_of_not_legal (h : ¬ MatchLegal off mlf s) :
    ∃ dec, matchPart off mlf s = raiseCorrupt { s with dec := dec } ∧ dec.op = s.dec.op := by
  by_cases hoff : off = 0#16
  · exact ⟨_, if_pos hoff, rfl⟩
  by_cases hfar : s.dec.op + decoderDictLen s < off.toNat
  · exact ⟨_, (if_neg hoff).trans (if_pos hfar), rfl⟩
  have hfit : capacityLeft s < mlf + 4 :=
    Nat.lt_of_not_le fun hfit => h ⟨hoff, Nat.le_of_not_lt hfar, hfit⟩
  exact ⟨_, (if_neg hoff).trans ((if_neg hfar).trans (if_pos hfit)), rfl⟩

theorem exec_tokenSeq (hs : rangesInSpace .decompress s.dm s.latch = true) (lits : List Byte) (off : BitVec 16)
    (mlf : Nat) : exec (.tokenSeq lits off mlf) s = .next (tokenSeqState lits off mlf s) :=
  if_pos hs

/-- Where the literals fit, the match decides the rest. -/
theorem tokenSeqState_of_fit (h : lits.length ≤ capacityLeft s) :
    tokenSeqState lits off mlf s =
      matchPart off mlf (literalsTaken (tokenByte (lenNibble lits.length) (lenNibble mlf)) lits s) := by
  rw [tokenSeqState, literalPart_of_fit _ h]

theorem tokenSeqState_of_no_room (h : capacityLeft s < lits.length) :
    tokenSeqState lits off mlf s = raiseCorrupt (takeToken (tokenByte (lenNibble lits.length) (lenNibble mlf))
      lits.length (1 + lenExtSize lits.length) s) := by
  rw [tokenSeqState, literalPart_of_no_room _ h]

theorem decoderDictLen_eq (s : State) :
    decoderDictLen s = (dictBytes .decompress s.dm s.latch s.mem).length := (readBytes_length ..).symm

end

/-- Settles O41: literals that do not fit raise before they are written, and a match that is not legal after them. -/
theorem badSequenceTokensAreCorrupt : Obligations.BadSequenceTokensAreCorrupt := by
  unfold Obligations.BadSequenceTokensAreCorrupt
  intro s lits off mlf hs
  rw [exec_tokenSeq hs]
  refine ⟨fun hroom => ?_, fun hfit hbad => ?_⟩
  · rw [tokenSeqState_of_no_room hroom]
    exact ⟨_, rfl, rfl⟩
  · have hnot : ¬ MatchLegal off mlf
        (literalsTaken (tokenByte (lenNibble lits.length) (lenNibble mlf)) lits s) := by
      rintro ⟨hoff, hfar, hml⟩
      rw [← decoderDictLen_eq] at hbad
      rcases hbad with h0 | hlt | hlt
      · exact hoff h0
      · exact Nat.not_le.2 hlt hfar
      · exact Nat.not_le.2 hlt hml
    obtain ⟨dec, hdec, hop⟩ := matchPart_of_not_legal hnot
    refine ⟨dec, ?_, hop⟩
    rw [tokenSeqState_of_fit hfit, hdec, raiseCorrupt, hop]
    rfl

/-! ### Bytes written and bytes of the dictionary -/

section
variable {s : State} {d : DictMode} {l : Latch} {lits : List Byte} {off : BitVec 16} {mlf j : Nat}

/-- The bytes of a string written, one by one. -/
theorem readByte_writeBytes_inside {m : Memory} (hm : memoryWf m = true) {a : Nat} {bs : List Byte}
    (h : a + bs.length ≤ Config.addrSpace) (hj : j < bs.length) :
    readByte (writeBytes m a bs) (a + j) = bs.getD j 0 := by
  rw [← readBytes_getD _ hj, readBytes_writeBytes hm h]

/-- The dictionary's byte `j` before its end, as host memory holds it (R58). -/
theorem dictBytes_getD (hs : rangesInSpace .decompress d l = true) (hj : InRange j 1 (dictRegion .decompress d l).len)
    (m : Memory) :
    (dictBytes .decompress d l m).getD ((dictBytes .decompress d l m).length - j) 0 =
      readByte m (dictEnd .decompress d l - j) := by
  have hend := dictRegion_base_add_len hs (by omega)
  rw [dictBytes, readBytes_length, readBytes_getD m (by omega)]
  congr 1
  omega

/-- No byte of the dictionary lies in the write range (R60). -/
theorem dictByte_not_in_write_range (hs : rangesInSpace .decompress d l = true)
    (ha : rangesApart .decompress d l = true) (hj : InRange j 1 (dictRegion .decompress d l).len) :
    ¬ InRange (dictEnd .decompress d l - j) l.dstAddr.toNat l.dstCap.toNat := by
  intro hin
  have hend := dictRegion_base_add_len hs (by omega)
  have hover : (dstRegion .decompress l).overlaps (dictRegion .decompress d l) = true :=
    overlaps_iff.2 ⟨_, hin, by omega⟩
  simp [rangesApart, hover] at ha

/-! ### The match copy -/

/-- The first byte of a match copy is the one `off` back, and no later one overwrites it (R229). -/
theorem readByte_copyMatch_first (hm : memoryWf s.mem = true) (off n : Nat) :
    readByte (copyMatch off (n + 1) s).mem (s.latch.dstAddr.toNat + s.dec.op) = historyByte s off := by
  have hkept := (copyMatch_wrote off n (writeOut (historyByte s off) s)).outside
    (s.latch.dstAddr.toNat + s.dec.op) (.inl (Nat.lt_succ_self _))
  exact hkept.trans (readByte_writeByte_same hm _ _)

/-- Each byte of the match is the one `off` back in the output that stands when the copy is done, since the copy goes
upward, or the dictionary's, which it does not overwrite (R229). -/
theorem readByte_copyMatch {off n q : Nat} (hm : memoryWf s.mem = true)
    (hs : rangesInSpace .decompress s.dm s.latch = true) (ha : rangesApart .decompress s.dm s.latch = true)
    (hoff : 0 < off) (hfar : off ≤ s.dec.op + decoderDictLen s) (hroom : s.dec.op + n ≤ s.latch.dstCap.toNat)
    (hq : InRange q s.dec.op n) :
    readByte (copyMatch off n s).mem (s.latch.dstAddr.toNat + q) =
      if off ≤ q then readByte (copyMatch off n s).mem (s.latch.dstAddr.toNat + (q - off))
      else readByte s.mem (dictEnd .decompress s.dm s.latch - (off - q)) := by
  induction n generalizing s with
  | zero => omega
  | succ n ih =>
    rcases Nat.eq_or_lt_of_le hq.1 with rfl | hlt
    · rw [readByte_copyMatch_first hm, historyByte]
      split
      · exact ((copyMatch_wrote off (n + 1) s).outside _ (.inl (by omega))).symm
      · rfl
    · have hspace : s.latch.dstAddr.toNat + s.latch.dstCap.toNat ≤ Config.addrSpace := rangesInSpace_dst hs
      have hw := writeOut_wrote (historyByte s off) s
      have hrest := ih (s := writeOut (historyByte s off) s) (hw.wf hm (by omega)) hs ha
        (Nat.le_trans hfar (Nat.add_le_add_right (Nat.le_succ _) _)) (by rw [hw.op, hw.latch]; omega)
        (by rw [hw.op]; omega)
      refine hrest.trans ?_
      split
      · rfl
      · have hdl : decoderDictLen s = (dictRegion .decompress s.dm s.latch).len := rfl
        have hnot := dictByte_not_in_write_range hs ha (j := off - q) ⟨by omega, by omega⟩
        exact hw.outside (dictEnd .decompress s.dm s.latch - (off - q)) (by omega)

/-! ### A sequence token within its checks -/

/-- The state a sequence token within its checks leaves: its literals and then its match are written (R218 to R229). -/
def sequenceCopied (lits : List Byte) (off : BitVec 16) (mlf : Nat) (s : State) : State :=
  copyMatch off.toNat (mlf + 4)
    (matchStart off mlf (literalsTaken (tokenByte (lenNibble lits.length) (lenNibble mlf)) lits s))

theorem tokenSeqState_of_legal (hfit : lits.length + (mlf + 4) ≤ capacityLeft s) (hoff : off ≠ 0#16)
    (hfar : off.toNat ≤ s.dec.op + lits.length + decoderDictLen s) :
    tokenSeqState lits off mlf s = sequenceCopied lits off mlf s := by
  have hml : mlf + 4 ≤ capacityLeft (literalsTaken (tokenByte (lenNibble lits.length) (lenNibble mlf)) lits s) := by
    rw [capacityLeft_wrote (literalsTaken_wrote ..)]; omega
  rw [tokenSeqState_of_fit (Nat.le_trans (Nat.le_add_right _ _) hfit), matchPart_of_legal ⟨hoff, hfar, hml⟩,
    sequenceCopied]

/-- The copies change memory and the decoder's registers only. -/
theorem sequenceCopied_frame (lits : List Byte) (off : BitVec 16) (mlf : Nat) (s : State) :
    sequenceCopied lits off mlf s =
      { s with mem := (sequenceCopied lits off mlf s).mem, dec := (sequenceCopied lits off mlf s).dec } :=
  copyMatch_frame ..

theorem sequenceCopied_dec (lits : List Byte) (off : BitVec 16) (mlf : Nat) (s : State) :
    (sequenceCopied lits off mlf s).dec =
      { i := s.dec.i + (1 + lenExtSize lits.length + lits.length + 2 + lenExtSize mlf),
        op := s.dec.op + (lits.length + (mlf + 4)),
        tok := tokenByte (lenNibble lits.length) (lenNibble mlf), ll := lits.length, ml := mlf + 4, off := off } := by
  rw [sequenceCopied, copyMatch_dec]
  simp only [matchStart, literalsTaken, Nat.add_assoc]

theorem matchStart_wrote (off : BitVec 16) (mlf : Nat) (s : State) : Wrote s (matchStart off mlf s) 0 :=
  wrote_zero rfl rfl rfl

theorem sequenceCopied_wrote (lits : List Byte) (off : BitVec 16) (mlf : Nat) (s : State) :
    Wrote s (sequenceCopied lits off mlf s) (lits.length + (mlf + 4)) :=
  ((literalsTaken_wrote _ lits s).trans (matchStart_wrote off mlf _)).trans (copyMatch_wrote off.toNat (mlf + 4) _)

/-- The literals stand before the match in the output (R221). -/
theorem sequenceCopied_literal (hm : memoryWf s.mem = true)
    (hspace : s.latch.dstAddr.toNat + (s.dec.op + lits.length) ≤ Config.addrSpace) (hj : j < lits.length) :
    readByte (sequenceCopied lits off mlf s).mem (s.latch.dstAddr.toNat + (s.dec.op + j)) = lits.getD j 0 := by
  rw [← Nat.add_assoc] at hspace ⊢
  rw [← readByte_writeBytes_inside hm hspace hj]
  exact (copyMatch_wrote off.toNat (mlf + 4) (matchStart off mlf (literalsTaken _ lits s))).outside _
    (.inl (by show _ < s.latch.dstAddr.toNat + (s.dec.op + lits.length); omega))

/-- The match stands behind the literals, each byte the one `off` back in the output, or the dictionary's (R229). -/
theorem sequenceCopied_match {q : Nat} (hm : memoryWf s.mem = true)
    (hs : rangesInSpace .decompress s.dm s.latch = true) (ha : rangesApart .decompress s.dm s.latch = true)
    (hoff : off ≠ 0#16) (hfar : off.toNat ≤ s.dec.op + lits.length + decoderDictLen s)
    (hroom : s.dec.op + lits.length + (mlf + 4) ≤ s.latch.dstCap.toNat)
    (hq : InRange q (s.dec.op + lits.length) (mlf + 4)) :
    readByte (sequenceCopied lits off mlf s).mem (s.latch.dstAddr.toNat + q) =
      if off.toNat ≤ q then readByte (sequenceCopied lits off mlf s).mem (s.latch.dstAddr.toNat + (q - off.toNat))
      else (dictBytes .decompress s.dm s.latch s.mem).getD
        ((dictBytes .decompress s.dm s.latch s.mem).length - (off.toNat - q)) 0 := by
  have hspace : s.latch.dstAddr.toNat + s.latch.dstCap.toNat ≤ Config.addrSpace := rangesInSpace_dst hs
  have hpos : 0 < off.toNat := Nat.pos_of_ne_zero fun h0 => hoff (BitVec.eq_of_toNat_eq h0)
  have hlits := literalsTaken_wrote (tokenByte (lenNibble lits.length) (lenNibble mlf)) lits s
  refine (readByte_copyMatch (s := matchStart off mlf (literalsTaken _ lits s)) (hlits.wf hm (by omega)) hs ha hpos hfar
    hroom hq).trans ?_
  split
  · rfl
  · have hdl : decoderDictLen s = (dictRegion .decompress s.dm s.latch).len := rfl
    have hj : InRange (off.toNat - q) 1 (dictRegion .decompress s.dm s.latch).len := ⟨by omega, by omega⟩
    have hnot := dictByte_not_in_write_range hs ha hj
    rw [dictBytes_getD hs hj]
    exact hlits.outside (dictEnd .decompress s.dm s.latch - (off.toNat - q)) (by omega)

end

/-- Settles O40: the literals stand as `sequenceCopied_literal` says and the match as `sequenceCopied_match` says. -/
theorem sequenceTokenCopiesLiteralsThenMatch : Obligations.SequenceTokenCopiesLiteralsThenMatch := by
  unfold Obligations.SequenceTokenCopiesLiteralsThenMatch
  intro s lits off mlf hm hs ha hfit hoff hfar
  have hspace : s.latch.dstAddr.toNat + s.latch.dstCap.toNat ≤ Config.addrSpace := rangesInSpace_dst hs
  have hfar' : off.toNat ≤ s.dec.op + lits.length + decoderDictLen s := by rwa [decoderDictLen_eq]
  have hcopied := tokenSeqState_of_legal hfit hoff hfar'
  refine ⟨(sequenceCopied lits off mlf s).mem, ?_, fun j hj => sequenceCopied_literal hm (by omega) hj,
    fun q hq => ?_, fun a hout => (sequenceCopied_wrote lits off mlf s).outside a (not_inRange_iff.1 hout)⟩
  · rw [exec_tokenSeq hs, hcopied, sequenceCopied_frame, sequenceCopied_dec]
    simp only [lenExtSize_eq]
    rfl
  · rw [sequenceCopied_match hm hs ha hoff hfar' (by omega) hq]
    split
    · rfl
    · congr 1
      omega

end Sys2Proof.Machine
end

section
/-! IllegalCommand: a CMD write of a word other than the six (R247). -/

namespace Sys2Proof.Machine

/-- A word other than the six decodes to no command (R73). -/
theorem decodeCommand_ne_ok_of_not_six {w : Word}
    (h : w ≠ 0x01#64 ∧ w ≠ 0x11#64 ∧ w ≠ 0x21#64 ∧ w ≠ 0x02#64 ∧ w ≠ 0x12#64 ∧ w ≠ 0x22#64) (i : Instr) :
    decodeCommand w ≠ .ok i := by
  intro hdec
  obtain ⟨h01, h11, h21, h02, h12, h22⟩ := h
  rcases exists_wordOf_commandOf_iff.1 (decodeCommand_eq_ok_iff.1 hdec) with h | h | h | h | h | h
  · exact h01 h.1
  · exact h11 h.1
  · exact h21 h.1
  · exact h02 h.1
  · exact h12 h.1
  · exact h22 h.1

/-- Settles O8: `StartCheck` finds IllegalCommand, and `Start` ends at once with its code. -/
theorem otherWordsAreIllegalCommands : Obligations.OtherWordsAreIllegalCommands := by
  unfold Obligations.OtherWordsAreIllegalCommands
  intro s w rest hw hnot
  have hcheck : startCheck w s = some .illegalCommand :=
    startCheck_eq_illegalCommand_iff.2 (decodeCommand_ne_ok_of_not_six hnot)
  exact (startChecksThenLatches s w rest hw).1 .illegalCommand hcheck

end Sys2Proof.Machine
end

section
/-! The engine's invariants in every state a chunk's run passes through (R276, R33): the cursors, the output, the phases'
bounds and the table's slots, beside what `EngineInv` says of the match under way. -/

namespace Sys2Proof.Machine

/-! ### The table's slots -/

theorem hashAt_lt (ch : Chunk) (tm : TableMode) (v : Nat) : hashAt ch tm v < 2 ^ hashWidth tm := by
  have hwidth : hashWidth tm ≤ 32 := by cases tm <;> decide
  unfold hashAt
  split
  · exact hash5_lt _ (Nat.le_trans hwidth (by decide)) v
  · exact hash4_lt _ hwidth v

/-- A position the table may hold: the dictionary's, the chunk's first in a chunk of MIN_INPUT bytes, or one with MFLIMIT
bytes of the chunk from it on (R132, R141, R180, R188). -/
def Indexable (ch : Chunk) (v : Nat) : Prop :=
  v < ch.sb ∨ (v = ch.sb ∧ Config.minInput ≤ ch.n) ∨ v + Config.mfLimit ≤ ch.sb + ch.n

/-- Every slot has an index of the table's width and holds an indexable position (R33, R124, R276). -/
def SlotsFit (ch : Chunk) (tm : TableMode) (ht : List (Nat × Nat)) : Prop :=
  ∀ h v, slotGet ht h = some v → h < 2 ^ hashWidth tm ∧ Indexable ch v

section
variable {ch : Chunk} {D C : List Byte} {e e' : Engine}

theorem SlotsFit.put {v : Nat} (h : SlotsFit ch e.tm e.ht) (hv : Indexable ch v) :
    SlotsFit ch e.tm (put ch v e).ht := by
  intro x u hu
  by_cases hx : x = hashAt ch e.tm v
  · subst hx
    rw [put_ht_only, slotGet_slotPut_same] at hu
    cases hu
    exact ⟨hashAt_lt ch e.tm v, hv⟩
  · rw [put_ht_only, slotGet_slotPut_ne e.ht v hx] at hu
    exact h x u hu

theorem setupTable_slotsFit (hv : ChunkOver ch D C) (start : Engine) :
    SlotsFit ch (setupTable ch start).tm (setupTable ch start).ht := by
  intro h v hget
  obtain ⟨htm, hnone, hdict⟩ := dictionaryIndexHoldsEveryThirdPosition ch start
  by_cases hdm : ch.dm = .noDict
  · rw [hnone hdm] at hget
    cases hget
  · obtain ⟨k, -, -, rfl⟩ := (hdict hdm).2 h v hget
    rw [htm, selectMode_dict hdm]
    exact ⟨hashAt_lt ch .u32 v, .inl (setupTable_slotsBelow hv start _ v hget)⟩

/-- An indexable position is inside the chunk's index space, and below 2^16 in U16 mode (R31, R126, R276). -/
theorem Indexable.bounds {v : Nat} (h : Indexable ch v) (hv : ChunkOver ch D C)
    (htm : e.tm = selectMode ch.params ch.n ch.dm) :
    v < ch.sb + ch.n ∧ (e.tm = .u16 → v < 65536) := by
  simp only [Indexable, Config.minInput, Config.mfLimit] at h
  refine ⟨by omega, fun h16 => ?_⟩
  obtain ⟨hdm, hn⟩ := selectMode_u16 (htm.symm.trans h16)
  have hsb : ch.sb = 0 := by rw [hv.sb, indexBias, if_pos hdm, hv.noDict hdm, List.length_nil]
  simp only [Config.u16Limit] at hn
  omega

/-! ### The invariant -/

/-- The bounds between the steps of a chunk's run (R276). -/
structure EngineBounds (ch : Chunk) (e : Engine) : Prop where
  cursor : e.anchor = e.ip
  out    : e.out.length ≤ ch.cap
  seek   : e.phase = .seekMatch → Config.minInput ≤ ch.n
  next   : e.phase = .nextMatch → 2 ≤ e.ip
  slots  : SlotsFit ch e.tm e.ht

theorem engineEntry_bounds (hv : ChunkOver ch D C) (start : Engine) :
    EngineBounds ch (engineEntry ch (setupTable ch start)) := by
  have hslots := setupTable_slotsFit hv start
  unfold engineEntry
  simp only
  split
  · exact ⟨rfl, Nat.zero_le _, nofun, nofun, hslots⟩
  · rename_i hn
    have hn := Nat.le_of_not_lt hn
    exact ⟨rfl, Nat.zero_le _, fun _ => hn, nofun, hslots.put (.inr (.inl ⟨rfl, hn⟩))⟩

/-- A probe within PROBE_LIMIT has MFLIMIT bytes from its position on (R141, R142). -/
theorem probe_inside (hm : EngineMoves ch e) (hp : e.phase = .seekMatch)
    (hpast : pastProbeLimit ch (e.fwd + e.step) = false) : e.fwd + Config.mfLimit ≤ ch.n := by
  simp only [EngineMoves, hp] at hm
  obtain ⟨-, -, hstep, -⟩ := hm
  have hmargin := probeMargin_ge ch.params.variant
  have hle := of_decide_eq_false hpast
  simp only [Config.mfLimit]
  omega

theorem probe_bounds (hm : EngineMoves ch e) (hp : e.phase = .seekMatch) (hb : EngineBounds ch e) :
    EngineBounds ch (probe ch e) := by
  rw [probe_eq]
  split
  · exact ⟨hb.cursor, hb.out, nofun, nofun, hb.slots⟩
  · rename_i hpast
    have hinside := probe_inside hm hp (Bool.eq_false_iff.2 hpast)
    refine ⟨hb.cursor, hb.out, fun _ => hb.seek hp, ?_, hb.slots.put (.inr (.inr (by omega)))⟩
    simp only
    split <;> exact nofun

/-- Every step keeps the bounds. -/
theorem engineStep_bounds (hm : EngineMoves ch e) (hb : EngineBounds ch e) (h : engineStep ch e = .running e') :
    EngineBounds ch e' := by
  have hout := engineStep_running_cap h hb.out
  rcases engineStep_running_cases h with ⟨hp, rfl⟩ | ⟨hp, rfl⟩ | ⟨hp, rfl⟩ | ⟨hp, h⟩ | ⟨hp, h⟩
  · exact probe_bounds hm hp hb
  · exact ⟨hb.cursor, hout, nofun, nofun, hb.slots⟩
  · exact ⟨hb.cursor, hout, nofun, nofun, hb.slots⟩
  · obtain ⟨out, ip, hip, -, rfl⟩ := stepEncodeMatch_cases h
    refine ⟨rfl, hout, ?_, fun _ => by simp only; omega, hb.slots⟩
    simp only
    split <;> exact nofun
  · simp only [EngineMoves, hp] at hm
    obtain ⟨-, -, hip⟩ := hm
    have htwo := hb.next hp
    have hrefill : SlotsFit ch e.tm (put ch (ch.sb + e.ip - 2) e).ht :=
      hb.slots.put (.inr (.inr (by simp only [Config.mfLimit]; omega)))
    have hput : SlotsFit ch e.tm (put ch (ch.sb + e.ip) (put ch (ch.sb + e.ip - 2) e)).ht :=
      hrefill.put (e := put ch (ch.sb + e.ip - 2) e) (.inr (.inr (by simp only [Config.mfLimit]; omega)))
    obtain ⟨ht, slot, rfl, -, ⟨-, rfl⟩ | rfl⟩ := stepNextMatch_running h
    · exact ⟨hb.cursor, hout, nofun, nofun, hput⟩
    · exact ⟨hb.cursor, hout, fun _ => by simp only [Config.minInput]; omega, nofun, hput⟩

/-- Every state a chunk's run passes through meets the engine's invariant and its bounds (R276). -/
theorem engineReaches_inv {start : Engine} (hv : ChunkOver ch D C) (h : EngineReaches ch start e) :
    EngineInv ch D C e ∧ EngineBounds ch e := by
  induction h with
  | entry => exact ⟨engineEntry_inv hv start, engineEntry_bounds hv start⟩
  | next _ hstep ih => exact ⟨engineStep_inv hv ih.1 hstep, engineStep_bounds ih.1.moves ih.2 hstep⟩

/-! ### In the numbers of R276 -/

/-- A match lies below its position, at an offset of at most 65535, and not below the dictionary (R144 to R146). -/
theorem MatchAt.offset {p c : Nat} (h : MatchAt ch p c) :
    c < ch.sb + p ∧ ch.sb + p - c ≤ 65535 ∧ (ch.dm ≠ .noDict → 65536 ≤ c) := by
  have hnear := h.near
  have hlow := h.low
  simp only [Config.maxDistance] at hnear
  refine ⟨h.below, by omega, fun hdm => ?_⟩
  rwa [indexBias, if_neg hdm] at hlow

end

/-- A chunk of the wrapper's is over its source and dictionary, and position 0 lies at most 2^17 up (R38, R58, R201). -/
theorem WrapperChunk.chunkOver {ch : Chunk} (h : WrapperChunk ch) :
    ∃ D C, ChunkOver ch D C ∧ ch.sb ≤ 131072 := by
  obtain ⟨P, C, D, dm, accel, final, cap, rfl, ha, hD, hnone, -⟩ := h
  have hv := chunkOver_chunkOf P C hnone ha final cap
  refine ⟨D, C, hv, ?_⟩
  rw [hv.sb]
  simp only [Config.dictWindow] at hD
  unfold indexBias Config.dictBias
  split <;> omega

/-- Settles O30: `EngineInv` and `EngineBounds` hold of every reached state, and say what R276 says. -/
theorem engineInvariants : Obligations.EngineInvariants := by
  unfold Obligations.EngineInvariants
  intro ch start e hch hreach
  obtain ⟨D, C, hv, hsb⟩ := hch.chunkOver
  obtain ⟨⟨hm, htm, hsearch, -⟩, hb⟩ := engineReaches_inv hv hreach
  refine ⟨Nat.le_of_eq hb.cursor, hb.cursor ▸ hm.1, hb.out, fun hp => ?_, fun hp => ?_, fun hp => ⟨hb.seek hp, ?_⟩,
    fun hp => ⟨hb.next hp, ?_⟩, fun h v hget => ?_⟩
  · simp only [SearchInv, hp] at hsearch
    exact hsearch.1.offset
  · simp only [SearchInv, hp] at hsearch
    exact hsearch.1.offset
  · exact probe_inside hm hp
  · simp only [EngineMoves, hp] at hm
    exact hm.2.2
  · obtain ⟨hindex, hpos⟩ := hb.slots h v hget
    obtain ⟨hinside, h16⟩ := hpos.bounds hv htm
    exact ⟨hindex, hinside, h16, fun hn => by omega⟩

end Sys2Proof.Machine
end

section
/-! What a chunk's engine leaves behind does not matter to the next run (R35, R45): two runs of the wrapper that differ only
in the engine they start from answer alike. Between steps the two engines agree on all but the registers that no later step
reads before it is set. -/

namespace Sys2Proof.Machine

/-! ### Engines that differ in leftovers alone -/

/-- The engines differ only in registers that no step from their phase on reads before it is set (R36, R37). -/
def SameWork (e f : Engine) : Prop :=
  ∃ fwd step nb p c tokpos k,
    f = { e with fwd := fwd, step := step, nb := nb, p := p, c := c, tokpos := tokpos, k := k } ∧
    match e.phase with
    | .seekMatch => fwd = e.fwd ∧ step = e.step ∧ nb = e.nb
    | .catchUp => p = e.p ∧ c = e.c
    | .encodeLiterals => p = e.p ∧ c = e.c
    | .encodeMatch => p = e.p ∧ c = e.c ∧ tokpos = e.tokpos
    | .nextMatch => True
    | .lastLiterals => True
    | .done => True

/-- Two steps go on with the same work, end with the same output and count, or both overflow. -/
inductive SameStep : EngineStep → EngineStep → Prop
  | running {e f : Engine} : SameWork e f → SameStep (.running e) (.running f)
  | finished {e f : Engine} (k : Nat) : f.out = e.out → SameStep (.finished e k) (.finished f k)
  | overflow (e f : Engine) : SameStep (.overflow e) (.overflow f)

section
variable (ch : Chunk) {e f : Engine}

theorem probe_sameWork (h : SameWork e f) (hp : e.phase = .seekMatch) : SameWork (probe ch e) (probe ch f) := by
  obtain ⟨fwd, step, nb, p, c, tokpos, k, rfl, hwork⟩ := h
  simp only [hp] at hwork
  obtain ⟨rfl, rfl, rfl⟩ := hwork
  simp only [probe_eq]
  split
  · exact ⟨_, _, _, _, _, _, _, rfl, trivial⟩
  · refine ⟨_, _, _, _, _, _, _, rfl, ?_⟩
    cases hv : validCandidate ch e.tm (getSlot ch (ch.sb + e.fwd) e) (ch.sb + e.fwd)
    · exact ⟨rfl, rfl, rfl⟩
    · exact ⟨rfl, rfl⟩

/-- The same test decides both steps. -/
theorem SameStep.ite {c d : Bool} {x x' y y' : EngineStep} (hcd : d = c) (hx : SameStep x x') (hy : SameStep y y') :
    SameStep (if c then x else y) (if d then x' else y') := by
  subst hcd
  cases d
  · exact hy
  · exact hx

/-- `Out` of the same bytes overflows or appends in both steps (R183). -/
theorem SameStep.emit {bs : List Byte} {x y : EngineStep} {g k : Engine → EngineStep} (hout : f.out = e.out)
    (hnone : SameStep x y) (hsome : SameStep (g { e with out := e.out ++ bs }) (k { f with out := f.out ++ bs })) :
    SameStep (match emit ch bs e with | none => x | some e1 => g e1)
      (match emit ch bs f with | none => y | some f1 => k f1) := by
  unfold Machine.emit
  rw [hout]
  split_ifs
  · rw [hout] at hsome
    exact hsome
  · exact hnone

theorem stepEncodeLiterals_sameStep (h : SameWork e f) (hp : e.phase = .encodeLiterals) :
    SameStep (stepEncodeLiterals ch e) (stepEncodeLiterals ch f) := by
  obtain ⟨fwd, step, nb, p, c, tokpos, k, rfl, hwork⟩ := h
  simp only [hp] at hwork
  obtain ⟨rfl, rfl⟩ := hwork
  refine .ite rfl (.overflow _ _) (.emit ch rfl (.overflow _ _) (.running ?_))
  exact ⟨_, _, _, _, _, _, _, rfl, rfl, rfl, rfl⟩

theorem stepEncodeMatch_sameStep (h : SameWork e f) (hp : e.phase = .encodeMatch) :
    SameStep (stepEncodeMatch ch e) (stepEncodeMatch ch f) := by
  obtain ⟨fwd, step, nb, p, c, tokpos, k, rfl, hwork⟩ := h
  simp only [hp] at hwork
  obtain ⟨rfl, rfl, rfl⟩ := hwork
  simp only [stepEncodeMatch]
  generalize countMatch ch e.p e.c = mlf
  refine .emit ch rfl (.overflow _ _) (.ite rfl (.overflow _ _) (.emit ch rfl (.overflow _ _) (.running ?_)))
  refine ⟨_, _, _, _, _, _, _, rfl, ?_⟩
  cases pastMatchEnd ch (e.p + (Config.minMatch + mlf)) <;> exact trivial

theorem stepNextMatch_sameStep (h : SameWork e f) : SameStep (stepNextMatch ch e) (stepNextMatch ch f) := by
  obtain ⟨fwd, step, nb, p, c, tokpos, k, rfl, -⟩ := h
  refine .ite rfl (.emit ch rfl (.overflow _ _) (.running ?_)) (.running ?_)
  · exact ⟨_, _, _, _, _, _, _, rfl, rfl, rfl, rfl⟩
  · exact ⟨_, _, _, _, _, _, _, rfl, rfl, rfl, rfl⟩

theorem stepLastLiterals_sameStep (h : SameWork e f) :
    SameStep (stepLastLiterals ch e) (stepLastLiterals ch f) := by
  obtain ⟨fwd, step, nb, p, c, tokpos, k, rfl, -⟩ := h
  exact .ite rfl (.finished _ rfl) (.ite rfl (.overflow _ _) (.emit ch rfl (.overflow _ _) (.finished _ rfl)))

/-- Engines that differ in leftovers alone take steps that differ in leftovers alone (R177). -/
theorem engineStep_sameStep (h : SameWork e f) : SameStep (engineStep ch e) (engineStep ch f) := by
  have hphase : f.phase = e.phase := by obtain ⟨_, _, _, _, _, _, _, rfl, -⟩ := h; rfl
  cases hp : e.phase <;> simp only [engineStep, hphase, hp]
  case seekMatch => exact .running (probe_sameWork ch h hp)
  case catchUp =>
    obtain ⟨fwd, step, nb, p, c, tokpos, k, rfl, hwork⟩ := h
    simp only [hp] at hwork
    obtain ⟨rfl, rfl⟩ := hwork
    exact .running ⟨_, _, _, _, _, _, _, rfl, rfl, rfl⟩
  case encodeLiterals => exact stepEncodeLiterals_sameStep ch h hp
  case encodeMatch => exact stepEncodeMatch_sameStep ch h hp
  case nextMatch => exact stepNextMatch_sameStep ch h
  case lastLiterals => exact stepLastLiterals_sameStep ch h
  case done =>
    obtain ⟨_, _, _, _, _, _, _, rfl, -⟩ := h
    exact .finished _ rfl

end

/-! ### A chunk's run -/

/-- Two runs of a chunk end alike, with the same output and count where they finish. -/
inductive SameEnd : EngineEnd → EngineEnd → Prop
  | finished {e f : Engine} (k : Nat) : f.out = e.out → SameEnd (.finished e k) (.finished f k)
  | overflow (e f : Engine) : SameEnd (.overflow e) (.overflow f)
  | unfinished (e f : Engine) : SameEnd (.unfinished e) (.unfinished f)

theorem engineRun_sameEnd (ch : Chunk) (fuel : Nat) {e f : Engine} (h : SameWork e f) :
    SameEnd (engineRun ch fuel e) (engineRun ch fuel f) := by
  induction fuel generalizing e f with
  | zero => exact .unfinished e f
  | succ fuel ih =>
    have hstep := engineStep_sameStep ch h
    simp only [engineRun]
    generalize engineStep ch e = a at hstep
    generalize engineStep ch f = b at hstep
    cases hstep with
    | running hwork => exact ih hwork
    | finished k hout => exact .finished k hout
    | overflow e1 f1 => exact .overflow e1 f1

theorem indexDict_eq_of_same_table (ch : Chunk) (fuel p : Nat) {e f : Engine} (htm : f.tm = e.tm) (hht : f.ht = e.ht) :
    indexDict ch fuel p f = { f with ht := (indexDict ch fuel p e).ht } := by
  induction fuel generalizing p e f with
  | zero => rw [indexDict, indexDict, ← hht]
  | succ fuel ih =>
    rw [indexDict, indexDict]
    split
    · have hput : (put ch (Config.dictBias + p) f).ht = (put ch (Config.dictBias + p) e).ht := by
        simp only [put_ht_only, htm, hht]
      exact ih (p + 3) (f := put ch (Config.dictBias + p) f) htm hput
    · rw [← hht]

/-- `SetupChunk` leaves no trace of the table before it (R127, R201). -/
theorem setupTable_eq_of_other (ch : Chunk) (e f : Engine) :
    setupTable ch f = { f with tm := (setupTable ch e).tm, ht := (setupTable ch e).ht } := by
  rw [setupTable_tm]
  simp only [setupTable]
  split
  · rfl
  · exact indexDict_eq_of_same_table ch (ch.dl + 1) 0 rfl rfl

theorem engineEntry_sameWork (ch : Chunk) (e f : Engine) :
    SameWork (engineEntry ch (setupTable ch e)) (engineEntry ch (setupTable ch f)) := by
  rw [setupTable_eq_of_other ch e f]
  simp only [engineEntry]
  split
  · exact ⟨_, _, _, _, _, _, _, rfl, trivial⟩
  · exact ⟨_, _, _, _, _, _, _, rfl, rfl, rfl, rfl⟩

/-- A chunk's run ends alike whatever engine it starts from (R45, R177). -/
theorem runEngine_sameEnd (ch : Chunk) (e f : Engine) :
    SameEnd (runEngine ch (setupTable ch e)) (runEngine ch (setupTable ch f)) :=
  engineRun_sameEnd ch (engineFuel ch.n) (engineEntry_sameWork ch e f)

/-! ### The wrapper -/

/-- Two runs of the wrapper answer the same stream or error, or stop alike. -/
inductive SameAnswer : CompressEnd → CompressEnd → Prop
  | stream (out : List Byte) (e f : Engine) (w v : Wrapper) : SameAnswer (.stream out e w) (.stream out f v)
  | raised (err : Err) (e f : Engine) (w v : Wrapper) : SameAnswer (.raised err e w) (.raised err f v)
  | noProgress (e f : Engine) (w v : Wrapper) : SameAnswer (.noProgress e w) (.noProgress f v)
  | unfinished (e f : Engine) (w v : Wrapper) : SameAnswer (.unfinished e w) (.unfinished f v)

theorem chunkLoop_sameAnswer (P : Config.Params) (S D : List Byte) (dm : DictMode) (accel cape fuel pos : Nat)
    (out : List Byte) (e f : Engine) :
    SameAnswer (chunkLoop P S D dm accel cape fuel pos out e) (chunkLoop P S D dm accel cape fuel pos out f) := by
  induction fuel generalizing pos out e f with
  | zero => exact .unfinished _ _ _ _
  | succ fuel ih =>
    have hrun := runEngine_sameEnd (roundChunk P S D dm accel cape pos out) e f
    rw [roundChunk] at hrun
    simp only [chunkLoop]
    generalize runEngine _ _ = a at hrun
    generalize runEngine _ _ = b at hrun
    cases hrun with
    | finished k hout =>
      simp only [hout]
      split_ifs
      · exact .raised _ _ _ _ _
      · exact .stream _ _ _ _ _
      · exact .raised _ _ _ _ _
      · exact .noProgress _ _ _ _
      · exact ih _ _ _ _
    | overflow => exact .raised _ _ _ _ _
    | unfinished => exact .unfinished _ _ _ _

/-- The wrapper answers alike whatever engine it starts from (R106, R200). -/
theorem chunkCompress_sameAnswer (P : Config.Params) (S D : List Byte) (dm : DictMode) (accel cape : Nat) (e f : Engine) :
    SameAnswer (chunkCompress P S D dm accel cape e) (chunkCompress P S D dm accel cape f) :=
  chunkLoop_sameAnswer P S D dm accel cape (S.length + 1) 0 [] e f

end Sys2Proof.Machine
end

section
/-! No leftover of a command's body can be observed (R35, R45, R48, R264): the decoder runs alike beside any engine and
wrapper, so that `Complete` and every host move answer alike in states that differ in leftovers alone. -/

namespace Sys2Proof.Machine

/-! ### The decoder beside another engine -/

/-- The state with another engine and wrapper, which a DECOMPRESS does not look at. -/
def withEngine (g : Engine) (w : Wrapper) (s : State) : State := { s with engine := g, wrapper := w }

/-- The outcome with another engine and wrapper in its state. -/
def outcomeWithEngine (g : Engine) (w : Wrapper) :
    Host.Outcome State Fault Refusal → Host.Outcome State Fault Refusal
  | .next t => .next (withEngine g w t)
  | .fault r => .fault r
  | .refused r => .refused r

section
variable (g : Engine) (w : Wrapper)

theorem copyMatch_withEngine (off n : Nat) (s : State) :
    copyMatch off n (withEngine g w s) = withEngine g w (copyMatch off n s) := by
  induction n generalizing s with
  | zero => rfl
  | succ n ih => exact ih (writeOut (historyByte s off) s)

theorem matchPart_withEngine (off : BitVec 16) (mlf : Nat) (s : State) :
    matchPart off mlf (withEngine g w s) = withEngine g w (matchPart off mlf s) := by
  simp only [matchPart, apply_ite (withEngine g w), ← copyMatch_withEngine]
  rfl

theorem literalPart_withEngine (tok : Byte) (lits : List Byte) (s : State) :
    literalPart tok lits (withEngine g w s) =
      match literalPart tok lits s with
      | .error t => .error (withEngine g w t)
      | .ok t => .ok (withEngine g w t) := by
  by_cases h : capacityLeft s < lits.length
  · rw [literalPart_of_no_room tok h, literalPart_of_no_room tok (s := withEngine g w s) h]
    rfl
  · have h := Nat.le_of_not_lt h
    rw [literalPart_of_fit tok h, literalPart_of_fit tok (s := withEngine g w s) h]
    rfl

theorem tokenSeqState_withEngine (lits : List Byte) (off : BitVec 16) (mlf : Nat) (s : State) :
    tokenSeqState lits off mlf (withEngine g w s) = withEngine g w (tokenSeqState lits off mlf s) := by
  rw [tokenSeqState, tokenSeqState, literalPart_withEngine]
  cases literalPart (tokenByte (lenNibble lits.length) (lenNibble mlf)) lits s with
  | error t => rfl
  | ok t => exact matchPart_withEngine g w off mlf t

theorem tokenLastState_withEngine (mln : BitVec 4) (lits : List Byte) (s : State) :
    tokenLastState mln lits (withEngine g w s) = withEngine g w (tokenLastState mln lits s) := by
  rw [tokenLastState, tokenLastState, literalPart_withEngine]
  cases literalPart (tokenByte (lenNibble lits.length) mln.toNat) lits s <;> rfl

theorem tokenErrorState_withEngine (err : DecodeError) (s : State) :
    tokenErrorState err (withEngine g w s) = withEngine g w (tokenErrorState err s) := by
  cases err with
  | offsetCut tok lits =>
    simp only [tokenErrorState, literalPart_withEngine]
    cases literalPart tok lits s <;> rfl
  | matchExtCut tok lits off =>
    simp only [tokenErrorState, literalPart_withEngine]
    cases literalPart tok lits s <;> rfl
  | _ => rfl

/-- A round executes the same token with the same effect (R215). -/
theorem tokenRound_withEngine (s : State) :
    tokenRound (withEngine g w s) = outcomeWithEngine g w (tokenRound s) := by
  have hstream : streamAt (withEngine g w s) = streamAt s := rfl
  have hranges : rangesInSpace .decompress (withEngine g w s).dm (withEngine g w s).latch =
    rangesInSpace .decompress s.dm s.latch := rfl
  rw [tokenRound, tokenRound, hstream]
  rcases decodeToken (streamAt s) with err | ⟨⟨lits, off, mlf⟩ | ⟨mln, lits⟩, rest⟩
  · exact congrArg Host.Outcome.next (tokenErrorState_withEngine g w err s)
  · simp only [execTokenSeq, hranges, tokenSeqState_withEngine]
    split <;> rfl
  · simp only [execTokenLast, hranges, tokenLastState_withEngine]
    split <;> rfl

theorem decodeLoop_withEngine (fuel : Nat) (s : State) :
    decodeLoop fuel (withEngine g w s) = outcomeWithEngine g w (decodeLoop fuel s) := by
  induction fuel generalizing s with
  | zero => rfl
  | succ fuel ih =>
    rw [decodeLoop, decodeLoop, tokenRound_withEngine]
    cases tokenRound s with
    | next t =>
      have hbusy : (withEngine g w t).busy = t.busy := rfl
      simp only [outcomeWithEngine, hbusy, ih]
      split <;> rfl
    | fault r => rfl
    | refused r => rfl

end

/-! ### States that differ in leftovers alone -/

/-- The state with other leftovers: of the latch, dm, the engine, the wrapper and the decoder (R35, R45). -/
def withLeftovers (l : Latch) (d : DictMode) (g : Engine) (w : Wrapper) (c : Decoder) (s : State) : State :=
  { s with latch := l, dm := d, engine := g, wrapper := w, dec := c }

section
variable {l : Latch} {d : DictMode} {g : Engine} {w : Wrapper} {c : Decoder} {s : State}

/-- Two states look alike only where they differ in leftovers, and agree on the latch of a running command. -/
theorem eq_withLeftovers_of_visible {s' : State} (h : visible s = visible s') :
    s' = withLeftovers s'.latch s'.dm s'.engine s'.wrapper s'.dec s ∧ (s.busy = true → s'.latch = s.latch) := by
  obtain ⟨⟩ := s
  obtain ⟨⟩ := s'
  simp only [visible, State.mk.injEq] at h
  obtain ⟨rfl, rfl, rfl, rfl, rfl, rfl, rfl, rfl, rfl, hlatch, -, -, -, -, rfl, rfl, rfl, rfl⟩ := h
  exact ⟨rfl, fun hb => ((if_pos hb).symm.trans (hlatch.trans (if_pos hb))).symm⟩

theorem visible_withLeftovers (hl : s.busy = true → l = s.latch) :
    visible (withLeftovers l d g w c s) = visible s := by
  cases hb : s.busy
  · have hb' : (withLeftovers l d g w c s).busy = false := hb
    simp only [visible, hb, hb', Bool.false_eq_true, if_false]
    rfl
  · obtain rfl := hl hb
    rfl

/-- A next state with other leftovers looks the same, but for the latch of a running command. -/
theorem sameOutcome_next (hl : s.busy = true → l = s.latch) :
    SameOutcome (.next s) (.next (withLeftovers l d g w c s)) := (visible_withLeftovers hl).symm

/-! ### Complete -/

theorem finishCompress_sameOutcome {a b : CompressEnd} (h : SameAnswer a b) :
    SameOutcome (finishCompress s.latch s a) (finishCompress s.latch (withLeftovers s.latch d g w c s) b) := by
  cases h with
  | stream => exact sameOutcome_next fun _ => rfl
  | raised => exact sameOutcome_next fun _ => rfl
  | noProgress => rfl
  | unfinished => rfl

theorem completeCompress_sameOutcome (d' : DictMode) :
    SameOutcome (completeCompress d' s) (completeCompress d' (withLeftovers s.latch d g w c s)) := by
  have hrun : SameAnswer (compressRun d' s) (compressRun d' (withLeftovers s.latch d g w c s)) :=
    chunkCompress_sameAnswer ..
  change SameOutcome (if rangesInSpace .compress d' s.latch = true then _ else _)
    (if rangesInSpace .compress d' s.latch = true then _ else _)
  split
  · exact finishCompress_sameOutcome (s := { s with dm := (compressDict Config.hw d' s.latch s.mem).1 }) hrun
  · rfl

theorem sameOutcome_withEngine (o : Host.Outcome State Fault Refusal) : SameOutcome o (outcomeWithEngine g w o) := by
  cases o <;> rfl

theorem completeDecompress_sameOutcome (d' : DictMode) :
    SameOutcome (completeDecompress d' s) (completeDecompress d' (withLeftovers s.latch d g w c s)) := by
  have hbegin : beginDecode d' (withLeftovers s.latch d g w c s) = withEngine g w (beginDecode d' s) := rfl
  change SameOutcome (if rangesInSpace .decompress d' s.latch = true then _ else _)
    (if rangesInSpace .decompress d' s.latch = true then decodeLoop (s.latch.srcLen.toNat + 1) _ else _)
  split
  · rw [hbegin, decodeLoop_withEngine]
    exact sameOutcome_withEngine _
  · rfl

/-- The core's turn: nothing while idle, `Complete` of the latched command while BUSY (R94, R261). -/
theorem coreTurn_sameOutcome (hl : s.busy = true → l = s.latch) :
    SameOutcome (coreTurn s) (coreTurn (withLeftovers l d g w c s)) := by
  have hbusy : (withLeftovers l d g w c s).busy = s.busy := rfl
  cases hb : s.busy
  · simp only [coreTurn, hbusy, hb, Bool.false_eq_true, if_false]
    exact sameOutcome_next hl
  · obtain rfl := hl hb
    have hword : (withLeftovers s.latch d g w c s).latch.word = s.latch.word := rfl
    simp only [coreTurn, hbusy, hb, if_true, hword]
    cases hd : decodeCommand s.latch.word with
    | error err => rfl
    | ok i =>
      obtain ⟨op, d', -, rfl⟩ := decodeCommand_ok hd
      simp only [exec_commandOf, hbusy, hb, if_true]
      cases op
      · exact completeCompress_sameOutcome d'
      · exact completeDecompress_sameOutcome d'

/-! ### The host's moves -/

/-- `Start` checks and latches the registers, whatever the latch held before (R93). -/
theorem writeCommand_sameOutcome (hb : s.busy = false) (v : Word) :
    SameOutcome (writeCommand v s) (writeCommand v (withLeftovers l d g w c s)) := by
  obtain ⟨herr, hok⟩ := writeCommand_eq (w := v) hb
  obtain ⟨herr', hok'⟩ := writeCommand_eq (w := v) (s := withLeftovers l d g w c s) hb
  cases hcheck : startCheck v s with
  | some e =>
    rw [herr e hcheck, herr' e hcheck]
    exact sameOutcome_next fun h => absurd h (by simp)
  | none =>
    rw [hok hcheck, hok' hcheck]
    exact sameOutcome_next (s := beginCommand (latchOf v s) s) fun _ => rfl

theorem regWrite_withLeftovers (off : Nat) (v : Word) :
    regWrite (withLeftovers l d g w c s) off v = withLeftovers l d g w c (regWrite s off v) := by
  simp only [regWrite, apply_ite (withLeftovers l d g w c)]
  rfl

theorem regWrite_status (off : Nat) (v : Word) : (regWrite s off v).status = s.status := by
  unfold regWrite
  split_ifs <;> rfl

theorem regWrite_busy (off : Nat) (v : Word) : (regWrite s off v).busy = s.busy :=
  congrArg statusBusy (regWrite_status off v)

theorem busRegWrite_sameOutcome (hl : s.busy = true → l = s.latch) (off : Nat) (v : Word) :
    SameOutcome (busRegWrite off v s) (busRegWrite off v (withLeftovers l d g w c s)) := by
  have hbusy : (withLeftovers l d g w c s).busy = s.busy := rfl
  cases hb : s.busy
  · simp only [busRegWrite, hbusy, hb, Bool.false_eq_true, if_false]
    split
    · exact writeCommand_sameOutcome hb v
    · rw [regWrite_withLeftovers]
      exact sameOutcome_next fun h => absurd h (by simp [regWrite_busy, hb])
  · simp only [busRegWrite, hbusy, hb, if_true]
    exact sameOutcome_next hl

/-- Which buffers a command owns, its latch alone says (R69). -/
theorem ownedForRead_withLeftovers (hl : s.busy = true → l = s.latch) (a : Nat) :
    ownedForRead (withLeftovers l d g w c s) a = ownedForRead s a := by
  have hbusy : (withLeftovers l d g w c s).busy = s.busy := rfl
  cases hb : s.busy
  · simp only [ownedForRead, hbusy, hb, Bool.false_and]
  · obtain rfl := hl hb
    rfl

theorem ownedForWrite_withLeftovers (hl : s.busy = true → l = s.latch) (a : Nat) :
    ownedForWrite (withLeftovers l d g w c s) a = ownedForWrite s a := by
  have hbusy : (withLeftovers l d g w c s).busy = s.busy := rfl
  cases hb : s.busy
  · simp only [ownedForWrite, hbusy, hb, Bool.false_and]
  · obtain rfl := hl hb
    rfl

theorem hostMove_sameOutcome (hl : s.busy = true → l = s.latch) (m : HostMove) :
    SameOutcome (hostMove m s) (hostMove m (withLeftovers l d g w c s)) := by
  cases m with
  | regRead off width =>
    simp only [hostMove]
    cases windowCheck off width with
    | some r => rfl
    | none => exact sameOutcome_next (s := { s with readData := regRead s off }) hl
  | regWrite off width v =>
    simp only [hostMove]
    cases windowCheck off width with
    | some r => rfl
    | none => exact busRegWrite_sameOutcome hl off v
  | memRead a =>
    simp only [hostMove, ownedForRead_withLeftovers hl]
    split
    · rfl
    · exact sameOutcome_next (s := { s with readData := (readByte s.mem a.toNat).zeroExtend 64 }) hl
  | memWrite a b =>
    simp only [hostMove, ownedForWrite_withLeftovers hl]
    split
    · rfl
    · exact sameOutcome_next (s := { s with mem := writeByte s.mem a.toNat b }) hl
  | wait => exact coreTurn_sameOutcome hl
  | reset => rfl

/-- A step from a state with other leftovers ends alike (R264). -/
theorem step_sameOutcome (hl : s.busy = true → l = s.latch) : SameOutcome (step s) (step (withLeftovers l d g w c s)) := by
  have hhost : (withLeftovers l d g w c s).host = s.host := rfl
  simp only [step, machineStep, hhost]
  cases s.host with
  | nil => exact coreTurn_sameOutcome hl
  | cons m rest => exact hostMove_sameOutcome (s := { s with host := rest }) hl m

end

/-- Settles O44: states that look alike differ in leftovers alone, and so do the states their steps end in. -/
theorem leftoversNeverShow : Obligations.LeftoversNeverShow := by
  unfold Obligations.LeftoversNeverShow
  intro s s' h
  obtain ⟨heq, hlatch⟩ := eq_withLeftovers_of_visible h
  rw [heq]
  exact step_sameOutcome hlatch

end Sys2Proof.Machine
end

section
/-! The wrapper's positions (R200, R202, R203, R278): what a round consumes lies within its chunk, so that pos and the output
stay within the source and the capacity, and a chunk that is not the last goes on or fails by the length of its tail. -/

namespace Sys2Proof.Machine

/-! ### What a chunk's run consumes -/

section
variable {ch : Chunk} {e e' : Engine} {k : Nat}

theorem engineEntry_moves (ha : 1 ≤ ch.accel) (e : Engine) : EngineMoves ch (engineEntry ch e) := by
  unfold engineEntry
  simp only
  split
  · exact ⟨Nat.zero_le _, trivial⟩
  · exact ⟨Nat.zero_le _, Nat.zero_le _, Nat.le_refl _, accel_shift ha⟩

theorem engineStep_consumed_le (hm : EngineMoves ch e) (h : engineStep ch e = .finished e' k) : k ≤ ch.n := by
  rcases engineStep_finished h with hp | ⟨-, h⟩
  · simp only [engineStep, hp] at h
    cases h
    exact Nat.le_refl _
  · rcases stepLastLiterals_finished h with ⟨-, rfl, -⟩ | ⟨-, rfl, -⟩
    · exact hm.1
    · exact Nat.le_refl _

theorem engineRun_consumed_le (ha : 1 ≤ ch.accel) {fuel : Nat} (hm : EngineMoves ch e)
    (h : engineRun ch fuel e = .finished e' k) : k ≤ ch.n := by
  induction fuel generalizing e with
  | zero => cases h
  | succ fuel ih =>
    simp only [engineRun] at h
    split at h
    · rename_i e1 hstep
      exact ih (engineStep_moves ha hm hstep).1 h
    · rename_i e1 k1 hstep
      cases h
      exact engineStep_consumed_le hm hstep
    · cases h

/-- A chunk's run consumes at most the chunk (R191). -/
theorem runEngine_consumed_le (ha : 1 ≤ ch.accel) (h : runEngine ch e = .finished e' k) : k ≤ ch.n :=
  engineRun_consumed_le ha (engineEntry_moves ha e) h

end

/-! ### The rounds -/

section
variable {P : Config.Params} {S D out : List Byte} {dm : DictMode} {accel cape : Nat} {e e1 : Engine}

/-- Where the wrapper stands when it ends: at a position of the source, with output within the capacity (R278). -/
def EndsInBounds (S : List Byte) (cape : Nat) : CompressEnd → Prop
  | .stream out _ w => out.length ≤ cape ∧ w.pos ≤ S.length ∧ w.outBase ≤ out.length
  | .raised _ _ w => w.pos ≤ S.length ∧ w.outBase ≤ cape
  | .noProgress _ w => w.pos ≤ S.length ∧ w.outBase ≤ cape
  | .unfinished _ w => w.pos ≤ S.length ∧ w.outBase ≤ cape

theorem chunkLoop_endsInBounds (ha : 1 ≤ accel) {fuel pos : Nat} (hpos : pos ≤ S.length) (hout : out.length ≤ cape) :
    EndsInBounds S cape (chunkLoop P S D dm accel cape fuel pos out e) := by
  induction fuel generalizing pos out e with
  | zero => exact ⟨hpos, hout⟩
  | succ fuel ih =>
    simp only [chunkLoop]
    split
    · exact ⟨hpos, hout⟩
    · exact ⟨hpos, hout⟩
    · rename_i e1 k hrun
      have hroom : e1.out.length ≤ cape - out.length := runEngine_cap hrun
      have hk : k ≤ (roundChunk P S D dm accel cape pos out).n := runEngine_consumed_le ha hrun
      rw [roundChunk_n] at hk
      have hout1 : (out ++ e1.out).length ≤ cape := by rw [List.length_append]; omega
      split_ifs
      · exact ⟨hpos, hout⟩
      · exact ⟨hout1, hpos, by rw [List.length_append]; exact Nat.le_add_right _ _⟩
      · exact ⟨hpos, hout⟩
      · exact ⟨hpos, hout⟩
      · exact ih (by omega) hout1

/-- A round of a chunk that is not the last, by its tail and by what it consumed (R202, R203, R206). -/
theorem chunkLoop_of_not_final {fuel pos k : Nat} (hrem : P.chunkMax < S.length - pos)
    (hrun : runEngine (roundChunk P S D dm accel cape pos out)
      (setupTable (roundChunk P S D dm accel cape pos out) e) = .finished e1 k) :
    chunkLoop P S D dm accel cape (fuel + 1) pos out e =
      if P.chunkTail ≤ P.chunkMax - k then .raised .chunkProgressFailure e1 { pos := pos, outBase := out.length }
      else if k = 0 then .noProgress e1 { pos := pos, outBase := out.length }
      else chunkLoop P S D dm accel cape fuel (pos + k) (out ++ e1.out) e1 := by
  rw [roundChunk] at hrun
  simp only [chunkLoop, hrun]
  rw [if_neg (by simp only [decide_eq_true_eq]; omega), Nat.min_eq_right (Nat.le_of_lt hrem)]

end

/-- Settles O34: the rounds keep the bounds, and a chunk that is not the last is `chunkLoop_of_not_final`'s. -/
theorem wrapperGoesOnOrFails : Obligations.WrapperGoesOnOrFails := by
  unfold Obligations.WrapperGoesOnOrFails
  refine ⟨fun P S D dm accel cape e ha => chunkLoop_endsInBounds ha (Nat.zero_le _) (Nat.zero_le _), ?_⟩
  rintro P S D out dm accel cape fuel pos k e e1 ch hrem rfl hrun
  have hchunk : chunkOf P ((S.drop pos).take P.chunkMax) D dm accel false (cape - out.length) =
      roundChunk P S D dm accel cape pos out := by
    rw [roundChunk, Nat.min_eq_right (Nat.le_of_lt hrem), decide_eq_false (Nat.not_le.2 hrem)]
  rw [hchunk] at hrun
  rw [chunkLoop_of_not_final hrem hrun]
  exact ⟨fun htail => if_pos htail, fun htail hk => (if_neg (Nat.not_le.2 htail)).trans (if_neg (Nat.ne_of_gt hk))⟩

end Sys2Proof.Machine
end

section
/-! STATUS after a step (R23, R275): the word it held before, or one of those the core writes there. -/

namespace Sys2Proof.Machine

section
variable {s t : State}

/-- `Complete` leaves DONE, or the word of an error (R94, R246). -/
theorem complete_status {op : Op} {d : DictMode} (hb : s.busy = true) (h : complete op d s = .next t) :
    t.status = doneWord ∨ ∃ e, t.status = errorWord e := by
  cases op with
  | compress =>
    change completeCompress d s = .next t at h
    by_cases hs : rangesInSpace .compress d s.latch = true
    · rcases completeCompress_cases hs with ⟨_, _, _, -, -, hnext⟩ | ⟨err, _, _, -, hnext⟩ <;>
        obtain rfl := Host.Outcome.next.inj (hnext.symm.trans h)
      · exact .inl rfl
      · exact .inr ⟨err, rfl⟩
    · rw [completeCompress, if_neg hs] at h
      cases h
  | decompress =>
    change completeDecompress d s = .next t at h
    by_cases hs : rangesInSpace .decompress d s.latch = true
    · obtain ⟨u, hnext, -, -, hst, -⟩ := completeDecompress_ends hs hb
      obtain rfl := Host.Outcome.next.inj (hnext.symm.trans h)
      exact hst.imp_right fun hst => ⟨_, hst⟩
    · rw [completeDecompress, if_neg hs] at h
      cases h

/-- What the core writes to STATUS: the reset value, BUSY, DONE, or the word of an error (R23, R45, R93, R94). -/
def WrittenStatus (w : Word) : Prop := w = 0#64 ∨ w = busyWord ∨ w = doneWord ∨ ∃ e, w = errorWord e

theorem WrittenStatus.statusInv {w : Word} (h : WrittenStatus w) : StatusInv w := by
  rcases h with rfl | rfl | rfl | ⟨e, rfl⟩
  · exact statusInv_zero
  · exact statusInv_busyWord
  · exact statusInv_doneWord
  · exact statusInv_errorWord e

theorem coreTurn_status (h : coreTurn s = .next t) : t.status = s.status ∨ WrittenStatus t.status := by
  rcases coreTurn_cases h with ⟨-, rfl⟩ | ⟨op, d, hb, -, h⟩
  · exact .inl rfl
  · exact .inr (.inr (.inr (complete_status hb h)))

theorem busRegWrite_status {off : Nat} {v : Word} (h : busRegWrite off v s = .next t) :
    t.status = s.status ∨ WrittenStatus t.status := by
  rcases busRegWrite_cases h with ⟨-, rfl⟩ | ⟨-, -, rfl⟩ | ⟨-, -, rfl⟩ | ⟨op, d, -, -, -, rfl⟩
  · exact .inl rfl
  · exact .inl (regWrite_status off v)
  · exact .inr (.inr (.inr (.inr ⟨_, rfl⟩)))
  · rcases startCommand_cases op d (wordOf op d) s with ⟨-, hs⟩ | ⟨e, -, hs⟩ <;> rw [hs]
    · exact .inr (.inr (.inl rfl))
    · exact .inr (.inr (.inr (.inr ⟨e, rfl⟩)))

theorem hostMove_status {m : HostMove} (h : hostMove m s = .next t) :
    t.status = s.status ∨ WrittenStatus t.status := by
  rcases hostMove_cases h with ⟨v, rfl⟩ | ⟨a, b, -, -, rfl⟩ | ⟨off, width, v, -, h⟩ | ⟨-, h⟩ | ⟨-, rfl⟩
  · exact .inl rfl
  · exact .inl rfl
  · exact busRegWrite_status h
  · exact coreTurn_status h
  · exact .inr (.inl rfl)

/-- A step leaves STATUS, or writes one of the core's words there. -/
theorem step_status (h : step s = .next t) : t.status = s.status ∨ WrittenStatus t.status := by
  rcases step_cases s with ⟨-, hs⟩ | ⟨m, rest, -, hs⟩ <;> rw [hs] at h
  · exact coreTurn_status h
  · exact hostMove_status (s := { s with host := rest }) h

theorem step_statusInv (hs : StatusInv s.status) (h : step s = .next t) : StatusInv t.status := by
  rcases step_status h with hsame | hwritten
  · rw [hsame]; exact hs
  · exact hwritten.statusInv

end

/-- Settles O49: a step leaves STATUS or writes a legal word, and the three lines are `StatusInv`'s. -/
theorem statusStaysLegal : Obligations.StatusStaysLegal := by
  unfold Obligations.StatusStaysLegal
  intro s t hs h
  obtain ⟨hbusy, herror, hnone, hreserved⟩ := step_statusInv hs h
  exact ⟨hbusy, herror, fun _ => hnone, hbusy, herror, hnone, hreserved⟩

end Sys2Proof.Machine
end

section
/-! Both languages there and back (R73, R78, R162): decoding an encoding, encoding what was decoded, `DecLen` after `EncLen`,
and words written out from the spec's tables. -/

namespace Sys2Proof.Machine

/-! ### From the encoding -/

/-- Settles O16: a token's encoding is read back by the token decoder, and the six commands are evaluated. -/
theorem decodeInvertsEncode : Obligations.DecodeInvertsEncode := by
  unfold Obligations.DecodeInvertsEncode
  refine ⟨fun i _ => ?_, fun lits off mlf rest _ => ?_⟩
  · cases i with
    | tokenSeq lits off mlf =>
      have h := decodeToken_encodeToken_seq lits off mlf []
      rw [List.append_nil] at h
      simp only [decode, encode, Instr.language, h]
      rfl
    | tokenLast mln lits =>
      simp only [decode, encode, Instr.language, decodeToken_encodeToken_last]
      rfl
    | _ => rfl
  · simp only [decode, encode, decodeToken_encodeToken_seq]
    rfl

/-! ### From the bytes -/

/-- A byte string is the bytes of its number. -/
theorem leBytes_leNat (bs : List Byte) : leBytes bs.length (leNat bs) = bs := by
  induction bs with
  | nil => rfl
  | cons b bs ih =>
    have hb := b.isLt
    have hlow : BitVec.ofNat 8 (b.toNat + 256 * leNat bs) = b :=
      BitVec.eq_of_toNat_eq (by rw [BitVec.toNat_ofNat]; omega)
    have hhigh : (b.toNat + 256 * leNat bs) / 256 = leNat bs := by omega
    rw [List.length_cons, leNat, leBytes, hlow, hhigh, ih]

theorem leNat_lt (bs : List Byte) : leNat bs < 256 ^ bs.length := by
  induction bs with
  | nil => exact Nat.one_pos
  | cons b bs ih =>
    have hb := b.isLt
    rw [List.length_cons, leNat, Nat.pow_succ]
    omega

theorem encode_commandOf (op : Op) (d : DictMode) : encode (commandOf op d) = leBytes 8 (wordOf op d).toNat := by
  cases op <;> cases d <;> rfl

theorem language_commandOf (op : Op) (d : DictMode) : (commandOf op d).language = .command := by
  cases op <;> cases d <;> rfl

theorem language_toInstr (t : Token) : t.toInstr.language = .token := by cases t <;> rfl

theorem encode_toInstr (t : Token) : encode t.toInstr = encodeToken t := by cases t <;> rfl

/-- Eight bytes that decode to a command are that command's (R73). -/
theorem eq_encode_of_decode_command {bs rest : List Byte} {i : Instr} (h : decode .command bs = .ok (i, rest)) :
    i.language = .command ∧ bs = encode i ++ rest := by
  simp only [decode] at h
  split at h
  · rename_i hlen
    cases hc : decodeCommand (BitVec.ofNat 64 (leNat bs)) with
    | error e => rw [hc] at h; cases h
    | ok j =>
      rw [hc] at h
      cases h
      obtain ⟨op, d, hw, rfl⟩ := decodeCommand_eq_ok_iff.1 hc
      have hlt : leNat bs < 2 ^ 64 := by simpa [hlen] using leNat_lt bs
      refine ⟨language_commandOf op d, ?_⟩
      rw [encode_commandOf, ← hw, BitVec.toNat_ofNat, Nat.mod_eq_of_lt hlt, ← hlen, leBytes_leNat, List.append_nil]
  · cases h

/-- Settles O17: the six words are the only ones that decode, and what is read as a token is its encoding. -/
theorem encodeInvertsDecode : Obligations.EncodeInvertsDecode := by
  unfold Obligations.EncodeInvertsDecode
  intro lang bs rest i h
  cases lang with
  | command => exact eq_encode_of_decode_command h
  | token =>
    cases ht : decodeToken bs with
    | error e => rw [decode, ht] at h; cases h
    | ok p =>
      rw [decode, ht] at h
      cases h
      exact ⟨language_toInstr p.1, by rw [encode_toInstr]; exact eq_encodeToken_of_decodeToken ht⟩

/-! ### Lengths and fixed words -/

/-- Settles O19: both directions are `decLen_eq_some_iff` and `decExt_eq_some_iff`; a string of 0xFF bytes has no other byte
to end an ext. -/
theorem decLenInvertsEncLen : Obligations.DecLenInvertsEncLen := by
  unfold Obligations.DecLenInvertsEncLen
  refine ⟨fun x rest => (decLen_eq_some_iff (lenNibble_lt x)).2 ⟨rfl, rfl⟩, fun k b rest hb => ?_, fun k => ?_,
    fun x s hx => if_neg (Nat.ne_of_lt hx)⟩
  · exact (decExt_eq_some_iff (x := 15)).2 ⟨k, b, hb, rfl, rfl⟩
  · cases h : decLen 15 (List.replicate k 0xFF#8) with
    | none => rfl
    | some p =>
      obtain ⟨k', b, hb, hs, -⟩ := (decExt_eq_some_iff (x := 15)).1 h
      have hmem : b ∈ List.replicate k 0xFF#8 := by rw [hs]; simp
      exact absurd (List.eq_of_mem_replicate hmem) hb

/-- Settles O15: the words are evaluated. -/
theorem specWordsDecode : Obligations.SpecWordsDecode := by
  unfold Obligations.SpecWordsDecode
  decide

end Sys2Proof.Machine
end

section
/-! What a COMPRESS answers (R97, R106, R107, R205): the tokens of its stream, its success without a capacity, and the inputs
it depends on. -/

namespace Sys2Proof.Machine

/-- Sequence tokens that grow a history have legal offsets (R79, R224). -/
theorem seq_of_mem_growTokens {ts : List Token} {h g : List Byte} (hs : ∀ t ∈ ts, isSeqToken t = true)
    (hg : growTokens ts h = some g) : ∀ t ∈ ts, ∃ ls off mlf, t = .seq ls off mlf ∧ off ≠ 0#16 := by
  induction ts generalizing h with
  | nil => exact fun t ht => absurd ht List.not_mem_nil
  | cons u ts ih =>
    obtain ⟨m, hu, hts⟩ := growTokens_cons_eq_some.1 hg
    obtain ⟨hseq, hrest⟩ := List.forall_mem_cons.1 hs
    refine List.forall_mem_cons.2 ⟨?_, ih hrest hts⟩
    cases u with
    | last mln lits => cases hseq
    | seq ls off mlf => exact ⟨ls, off, mlf, rfl, (growToken_seq_eq_some.1 hu).1⟩

/-- Settles O31: the stream expands to its source, and tokens that grow a history have legal offsets. -/
theorem compressedStreamsExpandToTheSource : Obligations.CompressedStreamsExpandToTheSource := by
  unfold Obligations.CompressedStreamsExpandToTheSource
  intro P S D out dm accel cape e e' w ha hD hdm h
  obtain ⟨seqs, lits, hseq, hfive, hout, hg⟩ := chunkCompress_expands ha hD hdm h
  obtain ⟨m, hm, -⟩ := growTokens_append_eq_some.1 hg
  exact ⟨seqs, lits, seq_of_mem_growTokens hseq hm, hfive, hout, hg⟩

theorem Expands.length_pos {D T out : List Byte} (h : Expands D T out) : 1 ≤ T.length := by
  obtain ⟨seqs, mln, lits, -, rfl, -⟩ := h
  rw [List.length_append, encodeToken_length, tokenSize]
  omega

/-- Settles O36: the command ends with DONE, so it is the stream's case of `completeCompress_cases`. -/
theorem unboundedCompressSucceeds : Obligations.UnboundedCompressSucceeds := by
  unfold Obligations.UnboundedCompressSucceeds
  intro s i d w hi hr hcap hlen
  obtain ⟨t, ht, hdone⟩ := exec_compress_unbounded hi hr hcap hlen
  obtain ⟨rfl, -⟩ := compressForm_iff.1 hi
  rw [exec_commandOf, if_pos hr.1] at ht ⊢
  rcases completeCompress_cases (checkCommand_none hr.2).1 with
    ⟨out, e, wr, hrun, hle, hnext⟩ | ⟨err, e, wr, -, hnext⟩
  · have hbound : capacity .compress s.latch = compressBound s.latch.srcLen.toNat := by simp [capacity, hcap]
    exact ⟨out, e, wr, _, hnext, (compressRun_expands hr hrun).length_pos, Nat.le_trans hle (Nat.le_of_eq hbound),
      fun a ha => readByte_writeBytes_outside (not_inRange_iff.1 ha)⟩
  · obtain rfl := Host.Outcome.next.inj (hnext.symm.trans ht)
    cases err <;> cases hdone

/-! ### The inputs -/

/-- The effective dictionary is a function of the mode, DL and the dictionary bytes (R97). -/
theorem compressDict_congr {P : Config.Params} {d : DictMode} {l l' : Latch} {m m' : Memory}
    (h : dictBytes .compress d l m = dictBytes .compress d l' m') : compressDict P d l m = compressDict P d l' m' := by
  have hlen := congrArg List.length h
  simp only [dictBytes, readBytes_length] at hlen
  unfold compressDict
  cases d with
  | noDict => rfl
  | withPrefix64k =>
    have hdl : dictLenUsed l = dictLenUsed l' := hlen
    rw [hdl, h]
  | usingExtDict =>
    have hdl : dictLenUsed l = dictLenUsed l' := hlen
    rw [hdl, h]

/-- Settles O39: the two runs of the wrapper differ in the engine they start from alone, and so answer alike. -/
theorem compressIsAFunctionOfItsInputs : Obligations.CompressIsAFunctionOfItsInputs := by
  unfold Obligations.CompressIsAFunctionOfItsInputs
  intro s s' i d w hi hr hr' hsrc hdict haccel hcap
  have hsame : SameAnswer (compressRun d s) (compressRun d s') := by
    have haccel' : effectiveAccel s.latch.accel.toNat = effectiveAccel s'.latch.accel.toNat := haccel
    rw [compressRun, compressRun, ← hsrc, ← compressDict_congr hdict, ← haccel', ← hcap]
    exact chunkCompress_sameAnswer ..
  obtain ⟨rfl, -⟩ := compressForm_iff.1 hi
  rw [exec_commandOf, if_pos hr.1, exec_commandOf, if_pos hr'.1]
  rcases completeCompress_cases (checkCommand_none hr.2).1 with
    ⟨out, e, wr, hrun, -, hnext⟩ | ⟨err, e, wr, hrun, hnext⟩ <;>
    rcases completeCompress_cases (checkCommand_none hr'.2).1 with
      ⟨out', e', wr', hrun', -, hnext'⟩ | ⟨err', e', wr', hrun', hnext'⟩ <;>
    rw [hrun, hrun'] at hsame <;> cases hsame
  · exact ⟨_, _, hnext, hnext', rfl, rfl, .inl ⟨out, rfl, rfl, rfl, rfl⟩⟩
  · refine ⟨_, _, hnext, hnext', rfl, rfl, .inr ⟨?_, rfl⟩⟩
    obtain rfl | ⟨rfl, -⟩ := chunkLoop_raised (Nat.le_max_right _ _) compressDict_noDict hrun
    · exact .inl rfl
    · exact .inr rfl

/-- Settles O38: the effective dictionary is none in all three modes, and the checks that passed keep the ranges in host
memory in all three. -/
theorem shortDictionaryIsNone : Obligations.ShortDictionaryIsNone := by
  unfold Obligations.ShortDictionaryIsNone
  intro s hb hshort
  have hdict : ∀ d m, compressDict Config.hw d s.latch m = (.noDict, []) := fun d m =>
    if_pos (.inr (Nat.lt_of_le_of_lt (Nat.min_le_left _ _) hshort))
  have hsame : ∀ d, checkCommand .compress d s.latch = none →
      exec (commandOf .compress d) s = exec (commandOf .compress .noDict) s := fun d hc => by
    have hsp := (checkCommand_none hc).1
    have hsp0 : rangesInSpace .compress .noDict s.latch = true := by
      cases h0 : rangesInSpace .compress .noDict s.latch
      · rw [rangesInSpace_eq_false_iff] at h0
        rw [← Bool.not_eq_false, rangesInSpace_eq_false_iff] at hsp
        grind
      · rfl
    simp only [exec_commandOf, hb, if_true, complete, completeCompress, hsp, hsp0, compressRun, hdict]
  exact ⟨hsame .withPrefix64k, hsame .usingExtDict⟩

end Sys2Proof.Machine
end

section
/-! DECOMPRESS against the grammar (R75, R215, R232): a decoder that ends with success has read an expansion of its
dictionary. -/

namespace Sys2Proof.Machine

section
variable {limit : Nat} {T h g rest : List Byte}

/-- The last token leaves nothing of the stream (R222). -/
theorem decodeToken_last_rest {mln : BitVec 4} {lits : List Byte} (ht : decodeToken T = .ok (.last mln lits, rest)) :
    rest = [] := by
  cases T with
  | nil => cases ht
  | cons tok s1 =>
    rw [decodeToken] at ht
    split at ht
    · cases ht
    · split at ht
      · cases ht
      · split at ht
        · cases ht; rfl
        · cases ht
        · split at ht <;> cases ht

/-- Success is a last token whose literals fit (R222). -/
theorem decodeStep_ended_true (hs : decodeStep limit T h = .ended true g) :
    ∃ mln lits, T = encodeToken (.last mln lits) ∧ g = h ++ lits ∧ g.length ≤ limit := by
  unfold decodeStep at hs
  split at hs
  · split at hs
    · cases hs
    · split at hs
      · cases hs
      · split at hs <;> cases hs
  · rename_i mln lits rest ht
    split at hs
    · cases hs
    · rename_i hfit
      cases hs
      refine ⟨mln, lits, ?_, rfl, Nat.le_of_not_lt hfit⟩
      rw [eq_encodeToken_of_decodeToken ht, decodeToken_last_rest ht, List.append_nil]
  · split at hs <;> cases hs

/-- The decoder goes on behind a sequence token that grew the history (R229). -/
theorem decodeStep_goesOn (hs : decodeStep limit T h = .goesOn rest g) :
    ∃ t, isSeqToken t = true ∧ T = encodeToken t ++ rest ∧ growToken t h = some g := by
  unfold decodeStep at hs
  split at hs
  · rename_i lits off mlf rest' ht
    split at hs
    · cases hs
    · split at hs
      · cases hs
      · rename_i hg
        split at hs
        · cases hs
        · cases hs
          exact ⟨_, rfl, eq_encodeToken_of_decodeToken ht, hg⟩
  · split at hs <;> cases hs
  · split at hs <;> cases hs

/-- A run that succeeds has read sequence tokens and a last token that grow the history within the limit (R75, R232). -/
theorem growTokens_of_decodeRun {fuel : Nat} (hr : decodeRun limit fuel T h = (true, g)) :
    g.length ≤ limit ∧ ∃ (seqs : List Token) (mln : BitVec 4) (lits : List Byte), (∀ t ∈ seqs, isSeqToken t = true) ∧
      T = seqs.flatMap encodeToken ++ encodeToken (.last mln lits) ∧ growTokens (seqs ++ [.last mln lits]) h = some g := by
  induction fuel generalizing T h with
  | zero => cases hr
  | succ fuel ih =>
    cases hs : decodeStep limit T h with
    | ended ok g' =>
      rw [decodeRun_ended hs] at hr
      cases hr
      obtain ⟨mln, lits, rfl, rfl, hfit⟩ := decodeStep_ended_true hs
      exact ⟨hfit, [], mln, lits, by simp, rfl, rfl⟩
    | goesOn rest g' =>
      rw [decodeRun_goesOn hs] at hr
      obtain ⟨t, ht, rfl, hg⟩ := decodeStep_goesOn hs
      obtain ⟨hfit, seqs, mln, lits, hseqs, rfl, hgrow⟩ := ih hr
      exact ⟨hfit, t :: seqs, mln, lits, List.forall_mem_cons.2 ⟨ht, hseqs⟩, by simp,
        growTokens_cons_eq_some.2 ⟨g', hg, hgrow⟩⟩

/-- A run on a dictionary that succeeds has read an expansion (R232). -/
theorem expands_of_decodeRun {D out : List Byte} {fuel : Nat} (hr : decodeRun limit fuel T D = (true, D ++ out)) :
    Expands D T out :=
  (growTokens_of_decodeRun hr).2

end

/-- Settles O45: an expansion that fits is decoded to what it expands to, and a run that succeeds has read one. -/
theorem decompressDecodesTheGrammar : Obligations.DecompressDecodesTheGrammar := by
  unfold Obligations.DecompressDecodesTheGrammar
  intro s i d w hi hr hwf
  obtain ⟨t, ok, out, ht, hrun, hst, hres, hout, -⟩ := exec_decompress_eq_decodeRun hi hr hwf
  constructor
  · intro out' hx hfit
    rw [decodeRun_of_expands hx (by rw [List.length_append]; exact Nat.add_le_add_left hfit _)] at hrun
    obtain ⟨rfl, hD⟩ := Prod.mk.inj hrun
    obtain rfl := List.append_cancel_left hD
    exact ⟨t, ht, hst, BitVec.eq_of_toNat_eq (by rw [hres, BitVec.toNat_ofNat, Nat.mod_eq_of_lt]; omega), hout⟩
  · intro hlong
    cases ok with
    | false => exact ⟨t, ht, hst⟩
    | true =>
      have hfit := (growTokens_of_decodeRun hrun).1
      have := hlong out (expands_of_decodeRun hrun)
      rw [List.length_append] at hfit
      omega

end Sys2Proof.Machine
end

section
/-! What a step changes and keeps (R46, R49, R57, R94): what `Complete` leaves, which host moves go on, and from both the
machine's invariant, its stops, its frame and that a started command completes. -/

namespace Sys2Proof.Machine

/-! ### Complete -/

/-- A command of operation `op` has completed: the core is idle with DONE set, memory has changed in the write range alone,
and only the rest of a command's own state (R46, R57, R94). -/
structure CommandEnded (op : Op) (s t : State) : Prop where
  idle    : t.busy = false
  done    : statusDone t.status = true
  outside : ∀ a, ¬ InWriteRange op s.latch a → readByte t.mem a = readByte s.mem a
  wf      : memoryWf s.mem = true → memoryWf t.mem = true
  rest    : t = { s with status := t.status, resultLen := t.resultLen, dm := t.dm, engine := t.engine,
                         wrapper := t.wrapper, dec := t.dec, mem := t.mem, draws := t.draws }

section
variable {s t : State} {op : Op} {d : DictMode}

theorem statusDone_doneWord : statusDone doneWord = true := rfl

theorem statusDone_errorWord (e : Err) : statusDone (errorWord e) = true := by cases e <;> rfl

/-- `Complete` ends a command whose ranges lie in host memory (R94, R111, R112). -/
theorem complete_ends (hb : s.busy = true) (hs : rangesInSpace op d s.latch = true) :
    ∃ t, complete op d s = .next t ∧ CommandEnded op s t := by
  have hspace : s.latch.dstAddr.toNat + capacity op s.latch ≤ Config.addrSpace := rangesInSpace_dst hs
  cases op with
  | compress =>
    rcases completeCompress_cases hs with ⟨out, e, w, -, hle, hnext⟩ | ⟨err, e, w, -, hnext⟩
    · refine ⟨_, hnext, endOk_busy _ _, statusDone_doneWord, fun a ha => readByte_writeBytes_outside ?_,
        fun hm => writeBytes_wf hm (by omega), rfl⟩
      exact (not_inRange_iff.1 ha).imp_right (by omega)
    · exact ⟨_, hnext, endWithError_busy _ _ _, statusDone_errorWord err,
        fun a ha => readByte_fillFree_outside (not_inRange_iff.1 ha), fun hm => fillFree_wf hm hspace, rfl⟩
  | decompress =>
    obtain ⟨t, hnext, hle, hw, hst, -⟩ := completeDecompress_ends hs hb
    have hdst : (beginDecode d s).latch.dstAddr.toNat + (beginDecode d s).dec.op = s.latch.dstAddr.toNat := rfl
    refine ⟨t, hnext, ?_, ?_, fun a ha => hw.outside a ?_, fun hm => hw.wf hm (by omega), ?_⟩
    · rcases hst with hst | hst <;> simp [State.busy, hst]
    · rcases hst with hst | hst <;> rw [hst] <;> rfl
    · exact (not_inRange_iff.1 ha).imp (by omega) (by omega)
    · have := hw.rest
      rw [this]
      rfl

theorem complete_next (hb : s.busy = true) (h : complete op d s = .next t) : CommandEnded op s t := by
  by_cases hs : rangesInSpace op d s.latch = true
  · obtain ⟨u, hu, hended⟩ := complete_ends hb hs
    rw [h] at hu
    cases hu
    exact hended
  · cases op
    · rw [complete, completeCompress, if_neg hs] at h
      cases h
    · rw [complete, completeDecompress, if_neg hs] at h
      cases h

/-! ### The core's turn -/

/-- A busy core under the invariant runs a command whose checks passed (R93, R95). -/
theorem BusyInv.running (h : BusyInv s) (hb : s.busy = true) :
    ∃ op d, decodeFields s.latch.word = .ok (op, d) ∧ Running op d s := by
  have hacc := (h hb).1
  unfold latchAccepted at hacc
  split at hacc
  · cases hacc
  · rename_i op d hf
    exact ⟨op, d, hf, hb, of_decide_eq_true hacc⟩

theorem coreTurn_idle (hb : s.busy = false) : coreTurn s = .next s := by
  simp [coreTurn, hb]

theorem coreTurn_busy (hb : s.busy = true) (hf : decodeFields s.latch.word = .ok (op, d)) :
    coreTurn s = complete op d s := by
  simp [coreTurn, hb, decodeCommand, hf, exec_commandOf]

/-- The core's turn ends the command that runs (R94). -/
theorem coreTurn_ends (hi : BusyInv s) (hb : s.busy = true) : ∃ op t, coreTurn s = .next t ∧ CommandEnded op s t := by
  obtain ⟨op, d, hf, -, hc⟩ := hi.running hb
  obtain ⟨t, hnext, hended⟩ := complete_ends hb (checkCommand_none hc).1
  exact ⟨op, t, (coreTurn_busy hb hf).trans hnext, hended⟩

/-- Under the invariant the core's turn goes on, to an idle core (R112). -/
theorem coreTurn_goesOn (hi : BusyInv s) : ∃ t, coreTurn s = .next t ∧ t.busy = false := by
  cases hb : s.busy
  · exact ⟨s, coreTurn_idle hb, hb⟩
  · obtain ⟨op, t, hnext, hended⟩ := coreTurn_ends hi hb
    exact ⟨t, hnext, hended.idle⟩

/-! ### Host moves that go on -/

variable {m : HostMove}

theorem windowCheck_eq_none_iff {off width : Nat} :
    windowCheck off width = none ↔ off < 0x100 ∧ width = 64 ∧ off % 8 = 0 := by
  unfold windowCheck
  split
  · simp; omega
  · split
    · simp; omega
    · simp; omega

/-- A register write never stops the machine (R92). -/
theorem busRegWrite_goesOn (off : Nat) (v : Word) (s : State) : ∃ t, busRegWrite off v s = .next t := by
  unfold busRegWrite
  split
  · exact ⟨_, rfl⟩
  · rename_i hb
    split
    · obtain ⟨herr, hok⟩ := writeCommand_eq (w := v) (Bool.eq_false_iff.2 hb)
      cases hc : startCheck v s with
      | some e => exact ⟨_, herr e hc⟩
      | none => exact ⟨_, hok hc⟩
    · exact ⟨_, rfl⟩

theorem hostMove_of_allowed (hi : BusyInv s) (h : MoveAllowed s m) : ∃ t, hostMove m s = .next t := by
  cases m with
  | regRead off width => exact ⟨_, by rw [hostMove, windowCheck_eq_none_iff.2 h]⟩
  | regWrite off width v =>
    obtain ⟨t, ht⟩ := busRegWrite_goesOn off v s
    exact ⟨t, by rw [hostMove, windowCheck_eq_none_iff.2 h]; exact ht⟩
  | memRead a => exact ⟨_, if_neg (Bool.eq_false_iff.1 h)⟩
  | memWrite a b => exact ⟨_, if_neg (Bool.eq_false_iff.1 h)⟩
  | wait =>
    obtain ⟨t, ht, -⟩ := coreTurn_goesOn hi
    exact ⟨t, ht⟩
  | reset => exact ⟨_, rfl⟩

theorem hostMove_of_forbidden (h : ¬ MoveAllowed s m) : ∃ r, hostMove m s = .refused r := by
  cases m with
  | regRead off width =>
    obtain ⟨r, hr⟩ := Option.ne_none_iff_exists'.1 (mt windowCheck_eq_none_iff.1 h)
    exact ⟨r, by rw [hostMove, hr]⟩
  | regWrite off width v =>
    obtain ⟨r, hr⟩ := Option.ne_none_iff_exists'.1 (mt windowCheck_eq_none_iff.1 h)
    exact ⟨r, by rw [hostMove, hr]⟩
  | memRead a => exact ⟨_, if_pos (Bool.eq_true_of_not_eq_false h)⟩
  | memWrite a b => exact ⟨_, if_pos (Bool.eq_true_of_not_eq_false h)⟩
  | wait => exact absurd trivial h
  | reset => exact absurd trivial h

/-! ### The invariant -/

theorem regWrite_mem (off : Nat) (v : Word) : (regWrite s off v).mem = s.mem := by
  unfold regWrite
  split_ifs <;> rfl

/-- A busy core's invariant and memory's canonical form, which STATUS's stand beside (R30, R93, R274). -/
abbrev LatchAndMemoryInv (s : State) : Prop := BusyInv s ∧ memoryWf s.mem = true

theorem busyInv_of_idle (h : s.busy = false) : BusyInv s := fun hb => absurd hb (by simp [h])

theorem coreTurn_inv (hi : LatchAndMemoryInv s) (h : coreTurn s = .next t) : LatchAndMemoryInv t := by
  rcases coreTurn_cases h with ⟨-, rfl⟩ | ⟨op, d, hb, -, hc⟩
  · exact hi
  · have hended := complete_next hb hc
    exact ⟨busyInv_of_idle hended.idle, hended.wf hi.2⟩

/-- A started command is accepted, with its latch equal to the registers and RESULT_LEN 0 (R30, R93). -/
theorem startCommand_busyInv (op : Op) (d : DictMode) (s : State) : BusyInv (startCommand op d (wordOf op d) s) := by
  rcases startCommand_cases op d (wordOf op d) s with ⟨hc, hs⟩ | ⟨e, -, hs⟩ <;> rw [hs]
  · have hword : (latchOf (wordOf op d) s).word = wordOf op d := rfl
    refine fun _ => ⟨?_, rfl, rfl⟩
    simp [latchAccepted, hword, hc]
  · exact busyInv_of_idle (endWithError_busy _ _ _)

theorem resetEvent_busy (s : State) : (resetEvent s).busy = false := by
  rw [State.busy, resetEvent_status]
  rfl

theorem startCommand_mem (op : Op) (d : DictMode) (w : Word) (s : State) : (startCommand op d w s).mem = s.mem := by
  rcases startCommand_cases op d w s with ⟨-, hs⟩ | ⟨e, -, hs⟩ <;> rw [hs] <;> rfl

theorem busRegWrite_inv {off : Nat} {v : Word} (hi : LatchAndMemoryInv s) (h : busRegWrite off v s = .next t) :
    LatchAndMemoryInv t := by
  rcases busRegWrite_cases h with ⟨-, rfl⟩ | ⟨hb, -, rfl⟩ | ⟨-, -, rfl⟩ | ⟨op, d, -, -, -, rfl⟩
  · exact hi
  · exact ⟨busyInv_of_idle ((regWrite_busy off v).trans hb), (regWrite_mem off v).symm ▸ hi.2⟩
  · exact ⟨busyInv_of_idle (endWithError_busy _ _ _), hi.2⟩
  · exact ⟨startCommand_busyInv op d s, (startCommand_mem op d _ s).symm ▸ hi.2⟩

theorem hostMove_inv (hi : LatchAndMemoryInv s) (h : hostMove m s = .next t) : LatchAndMemoryInv t := by
  rcases hostMove_cases h with ⟨v, rfl⟩ | ⟨a, b, -, -, rfl⟩ | ⟨off, width, v, -, h⟩ | ⟨-, h⟩ | ⟨-, rfl⟩
  · exact hi
  · exact ⟨hi.1, writeByte_wf hi.2 a.isLt b⟩
  · exact busRegWrite_inv hi h
  · exact coreTurn_inv hi h
  · exact ⟨busyInv_of_idle (resetEvent_busy s), hi.2⟩

end

/-- Settles O48: STATUS stays legal by `step_statusInv`, and the rest holds after the core's turn and every host move. -/
theorem everyStepKeepsTheInvariant : Obligations.EveryStepKeepsTheInvariant := by
  unfold Obligations.EveryStepKeepsTheInvariant
  rintro s t ⟨hst, hi⟩ h
  refine ⟨step_statusInv hst h, ?_⟩
  rcases step_cases s with ⟨-, hs⟩ | ⟨m, rest, -, hs⟩ <;> rw [hs] at h
  · exact coreTurn_inv hi h
  · exact hostMove_inv (s := { s with host := rest }) hi h

/-! ### Stops -/

section
variable {s : State}

theorem step_nil (hh : s.host = []) : step s = coreTurn s := by
  simp only [step, machineStep, hh]

theorem step_cons {m : HostMove} {rest : List HostMove} (hh : s.host = m :: rest) :
    step s = hostMove m { s with host := rest } := by
  simp only [step, machineStep, hh]

/-- Under the invariant a step goes on, or is refused for a forbidden move. -/
theorem step_goesOn_or_refused (hi : BusyInv s) :
    ((∀ m rest, s.host = m :: rest → MoveAllowed s m) ∧ ∃ t, step s = .next t) ∨
    ((∃ m rest, s.host = m :: rest ∧ ¬ MoveAllowed s m) ∧ ∃ r, step s = .refused r) := by
  cases hh : s.host with
  | nil =>
    obtain ⟨t, ht, -⟩ := coreTurn_goesOn hi
    exact .inl ⟨nofun, t, (step_nil hh).trans ht⟩
  | cons m rest =>
    rw [step_cons hh]
    by_cases hm : MoveAllowed s m
    · exact .inl ⟨by rintro m' rest' ⟨⟩; exact hm, hostMove_of_allowed (s := { s with host := rest }) hi hm⟩
    · exact .inr ⟨⟨m, rest, rfl, hm⟩, hostMove_of_forbidden (s := { s with host := rest }) hm⟩

end

/-- Settles O50: a step goes on or is refused by its host move alone, and the core's turn ends its command. -/
theorem onlyForbiddenHostMovesStop : Obligations.OnlyForbiddenHostMovesStop := by
  unfold Obligations.OnlyForbiddenHostMovesStop
  rintro s ⟨-, hi, -⟩
  refine and_assoc.1 (and_assoc.1 ⟨?_, ?_⟩)
  · rcases step_goesOn_or_refused hi with ⟨hall, t, ht⟩ | ⟨⟨m, rest, hh, hm⟩, r, hr⟩
    · exact ⟨⟨fun r => by simp [ht], iff_of_true ⟨t, ht⟩ hall⟩,
        fun ⟨m, rest, hh, hm⟩ => absurd (hall m rest hh) hm⟩
    · exact ⟨⟨fun r => by simp [hr], iff_of_false (by simp [hr]) fun hall => hm (hall m rest hh)⟩, fun _ => ⟨r, hr⟩⟩
  · rintro (hh | ⟨rest, hh⟩)
    · rw [step_nil hh]
      exact coreTurn_goesOn hi
    · rw [step_cons hh]
      exact coreTurn_goesOn (s := { s with host := rest }) hi

end Sys2Proof.Machine
end

section
/-! What follows from a step's cases: started commands complete (R94), the core writes no parameter register (R46) and no byte
outside the write range (R57). -/

namespace Sys2Proof.Machine

/-! ### A started command completes -/

section
variable {s t : State} {m : HostMove} {rest : List HostMove}

/-- Which moves are allowed, BUSY and the latch alone say (R69). -/
theorem moveAllowed_congr (hb : t.busy = s.busy) (hl : t.latch = s.latch) (m : HostMove) :
    MoveAllowed t m ↔ MoveAllowed s m := by
  cases m with
  | memRead a => simp only [MoveAllowed, ownedForRead, hb, hl]
  | memWrite a b => simp only [MoveAllowed, ownedForWrite, hb, hl]
  | _ => rfl

/-- While a command runs, a move but the core's turn and a reset leaves BUSY, the latch and the later moves (R69, R92). -/
theorem hostMove_while_busy (hb : s.busy = true) (hw : m ≠ .wait) (hr : m ≠ .reset) (h : hostMove m s = .next t) :
    t.busy = true ∧ t.latch = s.latch ∧ t.host = s.host := by
  rcases hostMove_cases h with ⟨v, rfl⟩ | ⟨a, b, -, -, rfl⟩ | ⟨off, width, v, -, h⟩ | ⟨hm, -⟩ | ⟨hm, -⟩
  · exact ⟨hb, rfl, rfl⟩
  · exact ⟨hb, rfl, rfl⟩
  · rw [busRegWrite, if_pos hb] at h
    cases h
    exact ⟨hb, rfl, rfl⟩
  · exact absurd hm hw
  · exact absurd hm hr

theorem stepN_one (h : step s = .next t) : stepN 1 s = .next t := by simp only [stepN, h]

theorem stepN_succ (h : step s = .next t) (k : Nat) : stepN (k + 1) s = stepN k t := by simp only [stepN, h]

/-- Behind each move that leaves the command running fewer moves are pending, and the core's turn ends it. -/
theorem busy_completes (hi : Inv s) (hb : s.busy = true) (hall : ∀ m ∈ s.host, MoveAllowed s m)
    (hr : HostMove.reset ∉ s.host) :
    ∃ k t, k ≤ s.host.length + 1 ∧ stepN k s = .next t ∧ t.busy = false ∧ statusDone t.status = true := by
  generalize hh : s.host = moves at *
  induction moves generalizing s with
  | nil =>
    obtain ⟨op, t, ht, hended⟩ := coreTurn_ends hi.2.1 hb
    exact ⟨1, t, Nat.le_refl _, stepN_one ((step_nil hh).trans ht), hended.idle, hended.done⟩
  | cons m rest ih =>
    by_cases hw : m = .wait
    · subst hw
      obtain ⟨op, t, ht, hended⟩ := coreTurn_ends (s := { s with host := rest }) hi.2.1 hb
      exact ⟨1, t, Nat.le_add_left _ _, stepN_one ((step_cons hh).trans ht), hended.idle, hended.done⟩
    · obtain ⟨hm, hrest⟩ := List.forall_mem_cons.1 hall
      obtain ⟨t, ht⟩ := hostMove_of_allowed (s := { s with host := rest }) hi.2.1 hm
      obtain ⟨hbt, hlt, hht⟩ := hostMove_while_busy (s := { s with host := rest }) hb hw
        (fun h => hr (h ▸ List.mem_cons_self)) ht
      have hstep : step s = .next t := (step_cons hh).trans ht
      obtain ⟨k, u, hk, hu, hend⟩ := ih (everyStepKeepsTheInvariant s t hi hstep) hbt hht
        (fun m' hm' => (moveAllowed_congr (hbt.trans hb.symm) hlt m').2 (hrest m' hm'))
        (fun h => hr (List.mem_cons_of_mem m h))
      exact ⟨k + 1, u, by rw [List.length_cons]; omega, (stepN_succ hstep k).trans hu, hend⟩

end

/-- Settles O51, by induction on the pending moves. -/
theorem startedCommandsComplete : Obligations.StartedCommandsComplete := by
  unfold Obligations.StartedCommandsComplete
  exact fun s hi hb hall hr => busy_completes hi hb hall hr

/-! ### Parameters and memory -/

section
variable {s t : State} {m : HostMove}

/-- The parameter registers (R24 to R27). -/
def parameters (s : State) : Word × Word × Word × Word × Word × Word × BitVec 32 :=
  (s.srcAddr, s.srcLen, s.dstAddr, s.dstCap, s.dictAddr, s.dictLen, s.accel)

theorem startCommand_parameters (op : Op) (d : DictMode) (w : Word) (s : State) :
    parameters (startCommand op d w s) = parameters s := by
  rcases startCommand_cases op d w s with ⟨-, hs⟩ | ⟨e, -, hs⟩ <;> rw [hs] <;> rfl

theorem coreTurn_parameters (h : coreTurn s = .next t) : parameters t = parameters s := by
  rcases coreTurn_cases h with ⟨-, rfl⟩ | ⟨op, d, hb, -, hc⟩
  · rfl
  · rw [(complete_next hb hc).rest]
    rfl

/-- Of the host's moves only a reset and a register write other than CMD's change a parameter register (R46). -/
theorem hostMove_parameters (hw : ∀ off width v, m = .regWrite off width v → off = 0) (hr : m ≠ .reset)
    (h : hostMove m s = .next t) : parameters t = parameters s := by
  rcases hostMove_cases h with ⟨v, rfl⟩ | ⟨a, b, -, -, rfl⟩ | ⟨off, width, v, hm, h⟩ | ⟨-, h⟩ | ⟨hm, -⟩
  · rfl
  · rfl
  · rcases busRegWrite_cases h with ⟨-, rfl⟩ | ⟨-, hoff, -⟩ | ⟨-, -, rfl⟩ | ⟨op, d, -, -, -, rfl⟩
    · rfl
    · exact absurd (hw off width v hm) hoff
    · rfl
    · exact startCommand_parameters op d _ s
  · exact coreTurn_parameters h
  · exact absurd hm hr

theorem step_parameters (hw : ∀ off width v rest, s.host = .regWrite off width v :: rest → off = 0)
    (hr : ∀ rest, s.host ≠ .reset :: rest) (h : step s = .next t) : parameters t = parameters s := by
  rcases step_cases s with ⟨-, hs⟩ | ⟨m, rest, hh, hs⟩ <;> rw [hs] at h
  · exact coreTurn_parameters h
  · exact hostMove_parameters (s := { s with host := rest })
      (fun off width v hm => hw off width v rest (hm ▸ hh)) (fun hm => hr rest (hm ▸ hh)) h

/-- The core's turn writes memory in the running command's write range alone (R57). -/
theorem coreTurn_outside {a : Nat}
    (ha : s.busy = true → ∀ op d, decodeFields s.latch.word = .ok (op, d) → ¬ InWriteRange op s.latch a)
    (h : coreTurn s = .next t) : readByte t.mem a = readByte s.mem a := by
  rcases coreTurn_cases h with ⟨-, rfl⟩ | ⟨op, d, hb, hf, hc⟩
  · rfl
  · exact (complete_next hb hc).outside a (ha hb op d hf)

/-- Every other move but a write of memory leaves memory alone (R49). -/
theorem hostMove_outside {a : Nat} (hw : ∀ x b, m ≠ .memWrite x b)
    (ha : s.busy = true → ∀ op d, decodeFields s.latch.word = .ok (op, d) → ¬ InWriteRange op s.latch a)
    (h : hostMove m s = .next t) : readByte t.mem a = readByte s.mem a := by
  rcases hostMove_cases h with ⟨v, rfl⟩ | ⟨x, b, hm, -, -⟩ | ⟨off, width, v, -, h⟩ | ⟨-, h⟩ | ⟨-, rfl⟩
  · rfl
  · exact absurd hm (hw x b)
  · rcases busRegWrite_cases h with ⟨-, rfl⟩ | ⟨-, -, rfl⟩ | ⟨-, -, rfl⟩ | ⟨op, d, -, -, -, rfl⟩
    · rfl
    · rw [regWrite_mem]
    · rfl
    · rw [startCommand_mem]
  · exact coreTurn_outside ha h
  · rfl

end

/-- Settles O52: the seven registers are the parts of `parameters`, which the step leaves. -/
theorem parametersAreTheHosts : Obligations.ParametersAreTheHosts := by
  unfold Obligations.ParametersAreTheHosts
  intro s t h hw hr
  simpa only [parameters, Prod.mk.injEq] using step_parameters hw hr h

/-- Settles O53: only the core's turn and the host's own writes change memory, and the core's turn in its write range. -/
theorem onlyTheWriteRangeChanges : Obligations.OnlyTheWriteRangeChanges := by
  unfold Obligations.OnlyTheWriteRangeChanges
  intro s t a _ h hw ha
  rcases step_cases s with ⟨-, hs⟩ | ⟨m, rest, hh, hs⟩ <;> rw [hs] at h
  · exact coreTurn_outside ha h
  · exact hostMove_outside (s := { s with host := rest }) (fun x b hm => hw x b rest (hm ▸ hh)) ha h

end Sys2Proof.Machine
end

section
/-! Single steps and host memory: reset (R45, R260), the start and the turn of a command (R92 to R94), refused accesses (R55,
R69), and a read after a write (R12). -/

namespace Sys2Proof.Machine

/-! ### Reset -/

/-- Settles O1: the registers are those of the definition, and a read takes one of them or 0. -/
theorem resetLeavesTheSpecValues : Obligations.ResetLeavesTheSpecValues := by
  unfold Obligations.ResetLeavesTheSpecValues
  refine ⟨rfl, rfl, rfl, rfl, rfl, rfl, rfl, rfl, rfl, resetEvent_busy State.reset, fun off => ?_⟩
  unfold regRead
  split_ifs <;> rfl

/-- Settles O2: STATUS is 0, so that no command runs, and memory lists nothing. -/
theorem invariantHoldsAtReset : Obligations.InvariantHoldsAtReset :=
  ⟨statusInv_zero, busyInv_of_idle (resetEvent_busy State.reset), rfl⟩

/-- Settles O3: the step is `resetEvent`, which leaves an idle core. -/
theorem resetEventClearsTheCore : Obligations.ResetEventClearsTheCore := by
  unfold Obligations.ResetEventClearsTheCore
  intro s rest hh
  refine ⟨resetEvent { s with host := rest }, step_cons hh, rfl, rfl, rfl, rfl, rfl, rfl, rfl, rfl, rfl, rfl, rfl, ?_⟩
  exact (step_nil rfl).trans (coreTurn_idle (resetEvent_busy s))

/-! ### Commands -/

/-- Settles O9: a CMD write at idle is `writeCommand`, which runs the decoded instruction. -/
theorem commandWriteRunsTheDecodedCommand : Obligations.CommandWriteRunsTheDecodedCommand := by
  unfold Obligations.CommandWriteRunsTheDecodedCommand
  rintro s w rest i ⟨hb, hh⟩ hi
  have hb' : ({ s with host := rest } : State).busy = false := hb
  simp only [step_regWrite (by decide) rfl hh, busRegWrite, hb', Bool.false_eq_true, if_false, if_true, writeCommand, hi]

/-- Settles O12: at idle a command is `startCommand`, which latches or ends at once. -/
theorem commandsStartAtIdle : Obligations.CommandsStartAtIdle := by
  unfold Obligations.CommandsStartAtIdle
  intro s i op d w hform hb
  obtain ⟨rfl, rfl⟩ := commandForm_iff.1 hform
  rw [exec_commandOf, hb, startCommand]
  refine ⟨fun hc => ?_, fun e hc => ?_⟩
  · rw [hc]; rfl
  · rw [hc, ← errorWord_eq]; rfl

/-- Settles O13: both forms of the core's turn are `coreTurn`. -/
theorem coreTurnRunsTheLatchedCommand : Obligations.CoreTurnRunsTheLatchedCommand := by
  unfold Obligations.CoreTurnRunsTheLatchedCommand
  intro s rest i
  refine ⟨fun hb hi => ?_, fun hb => ?_⟩
  · have hrun : ∀ u : State, u.busy = true → u.latch.word = s.latch.word → coreTurn u = exec i u := fun u hu hw => by
      simp only [coreTurn, hu, if_true, hw, hi]
    exact ⟨fun hh => (step_nil hh).trans (hrun s hb rfl), fun hh => (step_cons hh).trans (hrun _ hb rfl)⟩
  · exact ⟨fun hh => (step_nil hh).trans (coreTurn_idle hb),
      fun hh => (step_cons hh).trans (coreTurn_idle (s := { s with host := rest }) hb)⟩

/-- A round runs exec of the token at the cursor (R215). -/
theorem tokenRound_of_decodeToken {s : State} {token : Token} {rest : List Byte}
    (ht : decodeToken (streamAt s) = .ok (token, rest)) : tokenRound s = exec token.toInstr s := by
  rw [tokenRound, ht]
  cases token <;> rfl

/-- Settles O14: the body begins the decoder and loops, and a round is exec of the token at the cursor. -/
theorem decompressRunsTheDecodedTokens : Obligations.DecompressRunsTheDecodedTokens := by
  unfold Obligations.DecompressRunsTheDecodedTokens
  refine ⟨fun s i d w hform hb hs => ?_, fun s t k token rest ht hnext => ?_⟩
  · obtain ⟨rfl, -⟩ := decompressForm_iff.1 hform
    rw [exec_commandOf, if_pos hb, complete, completeDecompress, if_pos hs]
    rfl
  · rw [decodeLoop, tokenRound_of_decodeToken ht, hnext]

/-! ### Refused accesses -/

theorem windowCheck_unaligned {off width : Nat} (hlt : off < 0x100) (h : ¬ (width = 64 ∧ off % 8 = 0)) :
    windowCheck off width = some .windowAccessNotAligned64 := by
  rw [windowCheck, if_neg (Nat.not_le.2 hlt), if_neg h]

/-- Settles O6: `windowCheck` refuses the access before anything else. -/
theorem otherWindowAccessesAreRefused : Obligations.OtherWindowAccessesAreRefused := by
  unfold Obligations.OtherWindowAccessesAreRefused
  intro s off width v rest hlt hbad hh
  rcases hh with hh | hh <;> rw [step_cons hh, hostMove, windowCheck_unaligned hlt hbad]

theorem Region.contains_iff {r : Region} {a : Nat} : r.contains a = true ↔ InRange a r.base r.len := by
  simp only [Region.contains, Bool.and_eq_true, decide_eq_true_eq]

section
variable {s : State} {op : Op} {d : DictMode} {a : Nat}

/-- Which bytes a running command owns against reads (R57, R69). -/
theorem ownedForRead_iff (hf : decodeFields s.latch.word = .ok (op, d)) (hb : s.busy = true) :
    ownedForRead s a = true ↔ InWriteRange op s.latch a := by
  simp only [ownedForRead, hb, hf, Bool.true_and]
  exact Region.contains_iff

/-- Which bytes a running command owns against writes (R57, R69). -/
theorem ownedForWrite_iff (hf : decodeFields s.latch.word = .ok (op, d)) (hb : s.busy = true) :
    ownedForWrite s a = true ↔ InWriteRange op s.latch a ∨ InRange a s.latch.srcAddr.toNat s.latch.srcLen.toNat ∨
      InRange a (dictRegion op d s.latch).base (dictRegion op d s.latch).len := by
  simp only [ownedForWrite, hb, hf, Bool.true_and, Bool.or_eq_true, Region.contains_iff, or_assoc]
  rfl

end

/-- Settles O21: a host access to memory is refused exactly where the command owns the byte. -/
theorem busyBuffersBelongToTheCommand : Obligations.BusyBuffersBelongToTheCommand := by
  unfold Obligations.BusyBuffersBelongToTheCommand
  intro s i op d rest a b hform hr
  obtain ⟨-, hword⟩ := commandForm_iff.1 hform
  have hf := decodeFields_eq_ok_iff.2 hword
  have hread : ∀ x, (readByte s.mem x).zeroExtend 64 = BitVec.ofNat 64 (readByte s.mem x).toNat := fun x =>
    BitVec.eq_of_toNat_eq (by simp)
  refine ⟨fun hh => ?_, fun hh => ?_⟩ <;> rw [step_cons hh, hostMove]
  · rw [← hread, ← ownedForRead_iff hf hr.1]
    exact ⟨fun ho => if_pos ho, fun ho => if_neg ho⟩
  · rw [← ownedForWrite_iff hf hr.1]
    exact ⟨fun ho => if_pos ho, fun ho => if_neg ho⟩

/-! ### A read after a write -/

/-- The number of the low-order bytes of a value (R12). -/
theorem leNat_leBytes (n v : Nat) : leNat (leBytes n v) = v % 256 ^ n := by
  induction n generalizing v with
  | zero => exact (Nat.mod_one v).symm
  | succ n ih =>
    rw [leBytes, leNat, ih, BitVec.toNat_ofNat, Nat.pow_succ' (m := 256), Nat.mod_mul]

theorem leBytes_getD {n k : Nat} (hk : k < n) (v : Nat) : (leBytes n v).getD k 0 = BitVec.ofNat 8 (v / 256 ^ k) := by
  induction n generalizing k v with
  | zero => exact absurd hk k.not_lt_zero
  | succ n ih =>
    cases k with
    | zero => simp [leBytes]
    | succ k =>
      rw [leBytes, List.getD_cons_succ, ih (Nat.lt_of_succ_lt_succ hk), Nat.div_div_eq_div_mul, Nat.pow_succ']

/-- Settles O20: what `writeBytes` writes and leaves, with the bytes of a number. -/
theorem memoryReadsBackWhatWasWritten : Obligations.MemoryReadsBackWhatWasWritten := by
  unfold Obligations.MemoryReadsBackWhatWasWritten
  intro m a n v hm hspace
  have hlen : a + (leBytes n v).length ≤ Config.addrSpace := by rwa [leBytes_length]
  refine ⟨writeBytes_wf hm hlen, ?_, fun k hk => ?_, fun x hx => ?_⟩
  · have hback := readBytes_writeBytes hm hlen
    rw [leBytes_length] at hback
    rw [memReadNat, memWriteNat, hback, leNat_leBytes]
  · rw [memWriteNat, readByte_writeBytes_inside hm hlen (by rwa [leBytes_length]), leBytes_getD hk]
  · exact readByte_writeBytes_outside (by rw [leBytes_length]; exact not_inRange_iff.1 hx)

end Sys2Proof.Machine
end

section
/-! The decoder's ends and its cursor (R217 to R233, R277): TOKEN.LAST, streams cut inside a token, and that the cursor stays
within the stream. -/

namespace Sys2Proof.Machine

section
variable {s : State} {lits : List Byte} {mln : BitVec 4}

/-! ### TOKEN.LAST -/

theorem exec_tokenLast (hs : rangesInSpace .decompress s.dm s.latch = true) (mln : BitVec 4) (lits : List Byte) :
    exec (.tokenLast mln lits) s = .next (tokenLastState mln lits s) :=
  if_pos hs

theorem tokenLastState_of_fit (h : lits.length ≤ capacityLeft s) :
    tokenLastState mln lits s = endOk (s.dec.op + lits.length)
      (literalsTaken (tokenByte (lenNibble lits.length) mln.toNat) lits s) := by
  rw [tokenLastState, literalPart_of_fit _ h]
  rfl

theorem tokenLastState_of_no_room (h : capacityLeft s < lits.length) :
    tokenLastState mln lits s = raiseCorrupt (takeToken (tokenByte (lenNibble lits.length) mln.toNat)
      lits.length (1 + lenExtSize lits.length) s) := by
  rw [tokenLastState, literalPart_of_no_room _ h]

/-! ### Cut streams -/

/-- A cut token raises in the state `u`: its whole literals written and counted where they fit, and else nothing written
(R217 to R225). -/
structure CutLeaves (err : DecodeError) (s u : State) : Prop where
  fit    : (cutLiterals err).length ≤ capacityLeft s → u.dec.op = s.dec.op + (cutLiterals err).length ∧
    u = { s with mem := writeBytes s.mem (s.latch.dstAddr.toNat + s.dec.op) (cutLiterals err), dec := u.dec }
  noRoom : capacityLeft s < (cutLiterals err).length → u.dec.op = s.dec.op ∧ u = { s with dec := u.dec }

theorem cutLeaves_of_no_literals {err : DecodeError} (h : cutLiterals err = []) {dec : Decoder}
    (hop : dec.op = s.dec.op) : CutLeaves err s { s with dec := dec } := by
  refine ⟨fun _ => ?_, fun hroom => absurd hroom (by simp [h])⟩
  rw [h]
  exact ⟨hop, rfl⟩

theorem tokenErrorState_eq (err : DecodeError) (s : State) :
    ∃ u, tokenErrorState err s = raiseCorrupt u ∧ CutLeaves err s u := by
  cases err with
  | offsetCut tok lits =>
    rw [tokenErrorState, literalPart_eq]
    by_cases hroom : capacityLeft s < lits.length
    · rw [if_pos hroom]
      exact ⟨_, rfl, fun hfit => absurd hroom (Nat.not_lt.2 hfit), fun _ => ⟨rfl, rfl⟩⟩
    · rw [if_neg hroom]
      exact ⟨_, rfl, fun _ => ⟨rfl, rfl⟩, fun h => absurd h hroom⟩
  | matchExtCut tok lits off =>
    rw [tokenErrorState, literalPart_eq]
    by_cases hroom : capacityLeft s < lits.length
    · rw [if_pos hroom]
      exact ⟨_, rfl, fun hfit => absurd hroom (Nat.not_lt.2 hfit), fun _ => ⟨rfl, rfl⟩⟩
    · rw [if_neg hroom]
      exact ⟨_, rfl, fun _ => ⟨rfl, rfl⟩, fun h => absurd h hroom⟩
  | _ => exact ⟨_, rfl, cutLeaves_of_no_literals rfl rfl⟩

theorem decodeLoop_of_error {err : DecodeError} (h : decodeToken (streamAt s) = .error err) (k : Nat) :
    ∃ u, decodeLoop (k + 1) s = .next (raiseCorrupt u) ∧ CutLeaves err s u := by
  obtain ⟨u, hu, hcut⟩ := tokenErrorState_eq err s
  have hround : tokenRound s = .next (raiseCorrupt u) := by rw [tokenRound, h, ← hu]
  exact ⟨u, by simp [decodeLoop, hround], hcut⟩

end

/-- Settles O42: the literals are written and counted, or raise before they are written. -/
theorem lastTokenEndsTheCommand : Obligations.LastTokenEndsTheCommand := by
  unfold Obligations.LastTokenEndsTheCommand
  intro s mln lits hs
  rw [exec_tokenLast hs]
  refine ⟨fun hfit => ?_, fun hroom => ?_⟩
  · rw [tokenLastState_of_fit hfit, ← lenExtSize_eq]
    rfl
  · rw [tokenLastState_of_no_room hroom]
    exact ⟨_, rfl, rfl⟩

section
variable {T : List Byte} {tok : Byte} {s1 lits rest : List Byte}

/-- No whole token, and no whole literals (R217, R219, R221). -/
theorem decodeToken_of_cut_literals (h : T = [] ∨ ∃ tok s1, T = tok :: s1 ∧
      (decLen (tok.toNat / 16) s1 = none ∨ ∃ ll s2, decLen (tok.toNat / 16) s1 = some (ll, s2) ∧ s2.length < ll)) :
    ∃ err, decodeToken T = .error err ∧ cutLiterals err = [] := by
  rcases h with rfl | ⟨tok, s1, rfl, hnone | ⟨ll, s2, hll, hlt⟩⟩
  · exact ⟨_, rfl, rfl⟩
  · exact ⟨.literalExtCut tok, by rw [decodeToken, tokenLln_eq, hnone], rfl⟩
  · exact ⟨.literalsCut tok ll, by simp only [decodeToken, tokenLln_eq, hll, if_pos hlt], rfl⟩

/-- Whole literals and then no whole match (R223, R225). -/
theorem decodeToken_of_cut_match (hll : decLen (tok.toNat / 16) s1 = some (lits.length, lits ++ rest))
    (h : rest.length = 1 ∨ ∃ o0 o1 s4, rest = o0 :: o1 :: s4 ∧ decLen (tok.toNat % 16) s4 = none) :
    ∃ err, decodeToken (tok :: s1) = .error err ∧ cutLiterals err = lits := by
  have hlen : ¬ (lits ++ rest).length < lits.length := by rw [List.length_append]; omega
  rw [decodeToken, tokenLln_eq, hll]
  simp only [if_neg hlen, List.drop_left, List.take_left]
  rcases h with h1 | ⟨o0, o1, s4, rfl, hnone⟩
  · obtain ⟨b, rfl⟩ := List.length_eq_one_iff.1 h1
    exact ⟨_, rfl, rfl⟩
  · simp only [tokenMln_toNat, hnone]
    exact ⟨_, rfl, rfl⟩

end

/-- Settles O54: each cut is an error that carries the whole literals, and `CutLeaves` says what becomes of them. -/
theorem cutTokensAreCorrupt : Obligations.CutTokensAreCorrupt := by
  unfold Obligations.CutTokensAreCorrupt
  intro s k
  refine ⟨fun h => ?_, fun tok s1 lits rest h hll hcut => ?_⟩
  · obtain ⟨err, hd, hlits⟩ := decodeToken_of_cut_literals h
    obtain ⟨u, hloop, hfit, -⟩ := decodeLoop_of_error hd k
    rw [hlits] at hfit
    obtain ⟨hop, hu⟩ := hfit (Nat.zero_le _)
    exact ⟨u.dec, by rw [hloop, raiseCorrupt, hop, hu]; rfl, hop⟩
  · obtain ⟨err, hd, rfl⟩ := decodeToken_of_cut_match hll hcut
    obtain ⟨u, hloop, hfit, hroom⟩ := decodeLoop_of_error (h ▸ hd) k
    refine ⟨fun hle => ?_, fun hlt => ?_⟩
    · obtain ⟨hop, hu⟩ := hfit hle
      exact ⟨u.dec, by rw [hloop, raiseCorrupt, hop, hu]; rfl, hop⟩
    · obtain ⟨hop, hu⟩ := hroom hlt
      exact ⟨u.dec, by rw [hloop, raiseCorrupt, hop, hu]; rfl, hop⟩

/-! ### The cursor -/

section
variable {s t : State} {T : List Byte}

theorem streamAt_length (s : State) : (streamAt s).length = s.latch.srcLen.toNat - s.dec.i := readBytes_length ..

/-- How much of the stream is known to be there where it ends inside a token (R219 to R225). -/
theorem decodeToken_error_length {err : DecodeError} (h : decodeToken T = .error err) :
    (∀ tok ll, err = .literalsCut tok ll → 1 + lenExtSize ll ≤ T.length) ∧
    (∀ tok lits, err = .offsetCut tok lits ∨ (∃ off, err = .matchExtCut tok lits off) →
      1 + lenExtSize lits.length + lits.length ≤ T.length) := by
  cases T with
  | nil => cases h; exact ⟨nofun, by rintro tok lits (h | ⟨off, h⟩) <;> cases h⟩
  | cons tok s1 =>
    rw [decodeToken] at h
    split at h
    · cases h; exact ⟨nofun, by rintro tok lits (h | ⟨off, h⟩) <;> cases h⟩
    · rename_i ll s2 hll
      obtain ⟨-, rfl⟩ := (decLen_eq_some_iff (tokenLln_lt tok)).1 hll
      simp only [List.length_cons, List.length_append, lenExt_length]
      split at h
      · cases h
        refine ⟨?_, by rintro tok lits (h | ⟨off, h⟩) <;> cases h⟩
        rintro tok ll ⟨⟩
        omega
      · rename_i hlen
        have htake : (s2.take ll).length = ll := by rw [List.length_take]; omega
        split at h
        · cases h
        · cases h
          refine ⟨nofun, ?_⟩
          rintro tok lits (h | ⟨off, h⟩) <;> cases h
          rw [htake]
          omega
        · split at h
          · cases h
            refine ⟨nofun, ?_⟩
            rintro tok lits (h | ⟨off, h⟩) <;> cases h
            rw [htake]
            omega
          · cases h

theorem matchPart_cursor_le (off : BitVec 16) (mlf : Nat) (s : State) :
    (matchPart off mlf s).dec.i ≤ s.dec.i + 2 + lenExtSize mlf := by
  unfold matchPart
  simp only
  split
  · exact Nat.le_add_right _ _
  · split
    · exact Nat.le_add_right _ _
    · split
      · exact Nat.le_refl _
      · rw [copyMatch_dec]

theorem tokenSeqState_cursor_le (lits : List Byte) (off : BitVec 16) (mlf : Nat) (s : State) :
    (tokenSeqState lits off mlf s).dec.i ≤ s.dec.i + (encodeToken (.seq lits off mlf)).length := by
  rw [encodeToken_length, tokenSize]
  by_cases hfit : lits.length ≤ capacityLeft s
  · rw [tokenSeqState_of_fit hfit]
    refine Nat.le_trans (matchPart_cursor_le off mlf _) ?_
    simp only [literalsTaken]
    omega
  · rw [tokenSeqState_of_no_room (Nat.lt_of_not_le hfit), raiseCorrupt_dec, takeToken_dec]
    simp only
    omega

theorem tokenLastState_cursor_le (mln : BitVec 4) (lits : List Byte) (s : State) :
    (tokenLastState mln lits s).dec.i ≤ s.dec.i + (encodeToken (.last mln lits)).length := by
  rw [encodeToken_length, tokenSize]
  by_cases hfit : lits.length ≤ capacityLeft s
  · rw [tokenLastState_of_fit hfit, endOk_dec, literalsTaken]
    simp only
    omega
  · rw [tokenLastState_of_no_room (Nat.lt_of_not_le hfit), raiseCorrupt_dec, takeToken_dec]
    simp only
    omega

theorem literalPart_error_cursor {tok : Byte} {lits : List Byte} (h : literalPart tok lits s = .error t) :
    t.dec.i = s.dec.i + (1 + lenExtSize lits.length) := by
  rw [literalPart_eq] at h
  split at h <;> cases h
  rfl

theorem literalPart_ok_cursor {tok : Byte} {lits : List Byte} (h : literalPart tok lits s = .ok t) :
    t.dec.i = s.dec.i + (1 + lenExtSize lits.length) + lits.length ∧ t.latch = s.latch := by
  rw [literalPart_eq] at h
  split at h <;> cases h
  exact ⟨rfl, rfl⟩

/-- A cut token leaves the cursor within the stream (R277). -/
theorem tokenErrorState_cursor_le {err : DecodeError} (h : decodeToken (streamAt s) = .error err)
    (hi : s.dec.i ≤ s.latch.srcLen.toNat) : (tokenErrorState err s).dec.i ≤ s.latch.srcLen.toNat := by
  obtain ⟨hcut, hwhole⟩ := decodeToken_error_length h
  rw [streamAt_length] at hcut hwhole
  cases err with
  | literalExtCut tok => simp only [tokenErrorState, raiseCorrupt_dec, takeToken_dec]; omega
  | literalsCut tok ll =>
    have := hcut tok ll rfl
    simp only [tokenErrorState, raiseCorrupt_dec, takeToken_dec]; omega
  | offsetCut tok lits =>
    have := hwhole tok lits (.inl rfl)
    rw [tokenErrorState]
    split
    · rename_i t ht
      have := literalPart_error_cursor ht
      omega
    · rename_i t ht
      have := (literalPart_ok_cursor ht).1
      rw [raiseCorrupt_dec]; omega
  | matchExtCut tok lits off =>
    have := hwhole tok lits (.inr ⟨off, rfl⟩)
    rw [tokenErrorState]
    split
    · rename_i t ht
      have := literalPart_error_cursor ht
      omega
    · rename_i t ht
      rw [raiseCorrupt_dec, (literalPart_ok_cursor ht).2]
  | _ => exact hi

/-- A round leaves the cursor within the stream (R277). -/
theorem tokenRound_cursor_le (hs : rangesInSpace .decompress s.dm s.latch = true)
    (hi : s.dec.i ≤ s.latch.srcLen.toNat) (h : tokenRound s = .next t) : t.dec.i ≤ s.latch.srcLen.toNat := by
  cases hd : decodeToken (streamAt s) with
  | error err =>
    rw [tokenRound, hd] at h
    cases h
    exact tokenErrorState_cursor_le hd hi
  | ok p =>
    obtain ⟨token, rest⟩ := p
    have hlen := congrArg List.length (eq_encodeToken_of_decodeToken hd)
    rw [streamAt_length, List.length_append] at hlen
    rw [tokenRound_of_decodeToken hd] at h
    cases token with
    | seq lits off mlf =>
      obtain rfl := Host.Outcome.next.inj ((exec_tokenSeq hs lits off mlf).symm.trans h)
      have := tokenSeqState_cursor_le lits off mlf s
      omega
    | last mln lits =>
      obtain rfl := Host.Outcome.next.inj ((exec_tokenLast hs mln lits).symm.trans h)
      have := tokenLastState_cursor_le mln lits s
      omega

theorem decodeLoop_cursor_le {fuel : Nat} (hs : rangesInSpace .decompress s.dm s.latch = true)
    (hi : s.dec.i ≤ s.latch.srcLen.toNat) (h : decodeLoop fuel s = .next t) : t.dec.i ≤ s.latch.srcLen.toNat := by
  induction fuel generalizing s with
  | zero => cases h
  | succ fuel ih =>
    obtain ⟨u, hu, ⟨n, -, hw⟩, -⟩ := tokenRound_step hs
    have hcursor := tokenRound_cursor_le hs hi hu
    simp only [decodeLoop, hu] at h
    split at h
    · rw [← hw.latch] at hcursor ⊢
      exact ih (by rw [hw.dm, hw.latch]; exact hs) hcursor h
    · cases h
      exact hcursor

end

/-- Settles O43: `completeDecompress_ends` says how the command ends, and the rounds keep the cursor in the stream. -/
theorem decompressCompletes : Obligations.DecompressCompletes := by
  unfold Obligations.DecompressCompletes
  intro s i d w hi hr
  obtain ⟨rfl, -⟩ := decompressForm_iff.1 hi
  have hsp := (checkCommand_none hr.2).1
  obtain ⟨t, hnext, hop, hw, hst, hres⟩ := completeDecompress_ends hsp hr.1
  have hcursor : t.dec.i ≤ s.latch.srcLen.toNat := by
    rw [completeDecompress, if_pos hsp] at hnext
    exact decodeLoop_cursor_le (s := beginDecode d s) hsp (Nat.zero_le _) hnext
  refine ⟨t.status, t.mem, t.dec, ?_, hst, hop, hcursor, fun a ha => hw.outside a (not_inRange_iff.1 ha)⟩
  rw [exec_commandOf, if_pos hr.1]
  refine hnext.trans (congrArg Host.Outcome.next ?_)
  rw [← hres]
  exact hw.rest

end Sys2Proof.Machine
end

section
/-! The engine step by step (R127 to R131, R140 to R147, R178 to R191): the hash table, validity, the entry, the probe,
NextMatch, and the steps that emit with their bound checks. -/

namespace Sys2Proof.Machine

/-! ### The hash table -/

/-- Settles O24: a put is `slotPut` of one slot, and nothing else of the engine. -/
theorem oneCandidatePerBucket : Obligations.OneCandidatePerBucket := by
  unfold Obligations.OneCandidatePerBucket
  intro ch e u v
  have hself : getSlot ch v (put ch v e) = some v := slotGet_slotPut_same ..
  refine ⟨hself, fun hsame => ?_, fun hother => slotGet_slotPut_ne e.ht v hother, rfl, rfl, rfl⟩
  rw [← hself]
  exact congrArg (slotGet _) hsame

/-! ### Validity -/

section
variable {ch : Chunk} {tm : TableMode} {slot : Option Nat}

theorem belowDict_eq_false_iff (ch : Chunk) (c : Nat) :
    belowDict ch c = false ↔ ¬ (ch.dm ≠ .noDict ∧ ch.dl < 65536 ∧ c < 65536) := by
  rw [← Bool.not_eq_true, belowDict, Bool.and_eq_true, Bool.and_eq_true, decide_eq_true_eq, decide_eq_true_eq,
    decide_eq_true_eq, and_assoc]
  rfl

theorem tooFar_eq_false_iff (c vp : Nat) : tooFar c vp = false ↔ vp ≤ c + 65535 := by
  rw [tooFar, decide_eq_false_iff_not, Nat.not_lt]
  rfl

theorem emptyPointer_eq_false (h : tm = .ptr → slot ≠ none) : emptyPointer tm slot = false := by
  rw [← Bool.not_eq_true, emptyPointer, Bool.and_eq_true, decide_eq_true_eq, decide_eq_true_eq]
  exact fun hc => h hc.1 hc.2

end

/-- Settles O27: each clause of the two tests, in numbers; an empty slot in PTR mode fails the first. -/
theorem candidatesAreValidated : Obligations.CandidatesAreValidated := by
  unfold Obligations.CandidatesAreValidated
  rintro ch tm slot c vp rfl hslot
  have hempty := emptyPointer_eq_false hslot
  refine ⟨?_, ?_, rfl, rfl⟩
  · have hfar : (decide (tm ≠ .u16) && tooFar (candidate slot) vp) = false ↔
        ¬ (tm ≠ .u16 ∧ candidate slot + 65535 < vp) := by
      rw [Bool.and_eq_false_iff, tooFar_eq_false_iff, decide_eq_false_iff_not, not_and_or, Nat.not_lt]
    simp only [validCandidate, hempty, Bool.and_eq_true, Bool.not_eq_true', hfar, belowDict_eq_false_iff, fourEqual_iff,
      and_assoc, true_and]
    rfl
  · simp only [validNext, hempty, Bool.and_eq_true, Bool.not_eq_true', tooFar_eq_false_iff, belowDict_eq_false_iff, fourEqual_iff,
      and_assoc, true_and]
    rfl

/-! ### The search -/

/-- Settles O55: the two branches of `engineEntry`. -/
theorem engineEntersAtPositionOne : Obligations.EngineEntersAtPositionOne := by
  unfold Obligations.EngineEntersAtPositionOne
  refine fun ch e => ⟨fun hshort => if_pos hshort, fun hlong => ?_⟩
  rw [← skipShift_shiftLeft]
  exact if_neg (Nat.not_lt.2 hlong)

/-- Settles O56: `probe_eq` with the shifts and PROBE_LIMIT read as numbers. -/
theorem probesExchangeAndTest : Obligations.ProbesExchangeAndTest := by
  unfold Obligations.ProbesExchangeAndTest
  rintro ch e slot rfl
  have hpast : pastProbeLimit ch (e.fwd + e.step) = true ↔
      probeLimit ch.params.variant ch.n < ((e.fwd + e.step : Nat) : Int) := by
    rw [probeLimit_lt, pastProbeLimit, decide_eq_true_eq]
  refine ⟨fun hp => by rw [engineStep, hp], fun hlt => ?_, fun hle => ?_⟩ <;> rw [probe_eq, ← skipShift_shiftRight]
  · exact if_pos (hpast.2 hlt)
  · exact if_neg (mt hpast.1 (not_lt.2 hle))

/-! ### The steps that emit -/

section
variable (ch : Chunk) (e : Engine)

/-- The margin checks of R185 do not run with a capacity of COMPRESS_BOUND (R186). -/
theorem marginChecked_and_iff {p : Prop} [Decidable p] :
    (marginChecked ch && decide p) = false ↔ compressBound ch.n ≤ ch.cap ∨ ¬ p := by
  rw [marginChecked, Bool.and_eq_false_iff, Bool.not_eq_false', decide_eq_true_eq, decide_eq_false_iff_not]

/-- EncodeLiterals passes its checks (R183, R185 (i)). -/
def LiteralsFit : Prop :=
  e.out.length + (openToken (sourceSlice ch e.anchor e.p)).length ≤ ch.cap ∧
    (compressBound ch.n ≤ ch.cap ∨ e.out.length + 1 + (e.p - e.anchor) + 8 + (e.p - e.anchor) / 255 ≤ ch.cap)

/-- EncodeMatch passes its checks (R183, R185 (ii)). -/
def MatchFits : Prop :=
  e.out.length + 2 + lenExtSize (countMatch ch e.p e.c) ≤ ch.cap ∧
    (compressBound ch.n ≤ ch.cap ∨
      e.out.length + 2 + 6 + matchMarginTerm ch.params.variant (countMatch ch e.p e.c) ≤ ch.cap)

/-- LastLiterals of a final chunk passes its check; R185 (iii) asks for no more than R183. -/
def LastFits : Prop := e.out.length + (openToken (sourceSlice ch e.anchor ch.n)).length ≤ ch.cap

/-- EncodeLiterals goes on exactly where its checks pass (R182). -/
theorem stepEncodeLiterals_fits_or_overflows :
    (LiteralsFit ch e ∧ ∃ e', stepEncodeLiterals ch e = .running e') ∨
    (¬ LiteralsFit ch e ∧ ∃ e', stepEncodeLiterals ch e = .overflow e') := by
  have hmargin := marginChecked_and_iff ch (p := ch.cap < e.out.length + 1 + (e.p - e.anchor) + 8 + (e.p - e.anchor) / 255)
  rw [Nat.not_lt] at hmargin
  unfold stepEncodeLiterals LiteralsFit
  simp only
  split
  · rename_i hfails
    exact .inr ⟨fun h => absurd (hmargin.2 h.2) (by rw [Bool.not_eq_false]; exact hfails), _, rfl⟩
  · rename_i hpasses
    split
    · rename_i hnone
      refine .inr ⟨fun h => ?_, _, rfl⟩
      rw [emit_of_le (by simpa [openToken] using h.1)] at hnone
      cases hnone
    · rename_i e1 hsome
      exact .inl ⟨⟨by simpa [openToken] using (emit_eq_some.1 hsome).1, hmargin.1 (Bool.eq_false_iff.2 hpasses)⟩, _, rfl⟩

theorem stepEncodeMatch_fits_or_overflows :
    (MatchFits ch e ∧ ∃ e', stepEncodeMatch ch e = .running e') ∨
    (¬ MatchFits ch e ∧ ∃ e', stepEncodeMatch ch e = .overflow e') := by
  have hmargin := marginChecked_and_iff ch
    (p := ch.cap < e.out.length + 2 + 6 + matchMarginTerm ch.params.variant (countMatch ch e.p e.c))
  rw [Nat.not_lt] at hmargin
  unfold stepEncodeMatch MatchFits
  split
  · rename_i hnone
    refine .inr ⟨fun h => ?_, _, rfl⟩
    rw [emit_of_le (by rw [leBytes_length]; omega)] at hnone
    cases hnone
  · rename_i e1 hsome
    obtain ⟨-, rfl⟩ := emit_eq_some.1 hsome
    simp only [matchMarginFails, matchMargin_eq, outputCount, List.length_append, leBytes_length]
    split
    · rename_i hfails
      exact .inr ⟨fun h => absurd (hmargin.2 h.2) (by rw [Bool.not_eq_false]; exact hfails), _, rfl⟩
    · rename_i hpasses
      split
      · rename_i hnone
        refine .inr ⟨fun h => ?_, _, rfl⟩
        rw [emit_of_le (by simpa using h.1)] at hnone
        cases hnone
      · rename_i e4 hsome'
        exact .inl ⟨⟨by simpa using (emit_eq_some.1 hsome').1, hmargin.1 (Bool.eq_false_iff.2 hpasses)⟩, _, rfl⟩

theorem stepLastLiterals_fits_or_overflows (hf : ch.final = true) :
    (LastFits ch e ∧ stepLastLiterals ch e = .finished { e with
      phase := .done, out := e.out ++ encodeToken (.last 0#4 (sourceSlice ch e.anchor ch.n)) } ch.n) ∨
    (¬ LastFits ch e ∧ ∃ e', stepLastLiterals ch e = .overflow e') := by
  have hmargin : LastFits ch e → lastMarginFails ch (outputCount e) (ch.n - e.anchor) = false := fun h => by
    refine (marginChecked_and_iff ch).2 (.inr ?_)
    rw [LastFits, openToken_length, sourceSlice_length, lenExtSize_eq] at h
    simp only [outputCount]
    omega
  simp only [stepLastLiterals, hf, Bool.not_true, Bool.false_eq_true, if_false]
  split
  · rename_i hfails
    exact .inr ⟨fun h => absurd (hmargin h) (by rw [Bool.not_eq_false]; exact hfails), _, rfl⟩
  · split
    · rename_i hnone
      refine .inr ⟨fun h => ?_, _, rfl⟩
      rw [emit_of_le (by simpa [LastFits, openToken] using h)] at hnone
      cases hnone
    · rename_i e1 hsome
      obtain ⟨hle, rfl⟩ := emit_eq_some.1 hsome
      exact .inl ⟨by simpa [LastFits, openToken] using hle, by simp [encodeToken_last_zero, openToken]⟩

/-- NextMatch in full (R188). -/
theorem stepNextMatch_eq {slot : Option Nat} {ht : List (Nat × Nat)}
    (hslot : slot = getSlot ch (ch.sb + e.ip) (put ch (ch.sb + e.ip - 2) e))
    (hht : ht = (put ch (ch.sb + e.ip) (put ch (ch.sb + e.ip - 2) e)).ht) :
    stepNextMatch ch e =
      if validNext ch e.tm slot (ch.sb + e.ip) then
        if e.out.length + 1 ≤ ch.cap then .running { e with
          c := candidate slot, ht := ht, tokpos := e.out.length, out := e.out ++ [0#8], p := e.ip, phase := .encodeMatch }
        else .overflow { e with c := candidate slot, ht := ht }
      else .running (beginSeek ch (e.ip + 1) { e with c := candidate slot, ht := ht }) := by
  subst hslot hht
  refine if_congr Iff.rfl ?_ rfl
  unfold emit
  by_cases hfit : e.out.length + 1 ≤ ch.cap
  · rw [if_pos hfit, if_pos (by exact hfit)]
    rfl
  · rw [if_neg hfit, if_neg (by exact hfit)]
    rfl

end

/-- Settles O57: the branches of `stepNextMatch_eq`. -/
theorem nextMatchChainsOrSeeks : Obligations.NextMatchChainsOrSeeks := by
  unfold Obligations.NextMatchChainsOrSeeks
  rintro ch e e0 slot hp rfl rfl
  have hstep : engineStep ch e = stepNextMatch ch e := by rw [engineStep, hp]
  rw [hstep, stepNextMatch_eq ch e rfl rfl, ← skipShift_shiftLeft]
  refine ⟨fun hv => ⟨fun hfit => ?_, fun hfull => ?_⟩, fun hv => ?_⟩
  · exact (if_pos hv).trans (if_pos hfit)
  · exact ⟨_, (if_pos hv).trans (if_neg (Nat.not_le.2 (Nat.lt_succ_of_le hfull)))⟩
  · exact if_neg (Bool.eq_false_iff.1 hv)

/-! ### The tokens emitted -/

section
variable {ch : Chunk} {e : Engine} {lits : List Byte}

theorem literalsFit_iff (hlits : lits = sourceSlice ch e.anchor e.p) : LiteralsFit ch e ↔
    e.out.length + 1 + (lits.length + 240) / 255 + lits.length ≤ ch.cap ∧
      (ch.n + ch.n / 255 + 16 ≤ ch.cap ∨ (e.out.length + 1) + lits.length + 8 + lits.length / 255 ≤ ch.cap) := by
  rw [LiteralsFit, ← hlits, openToken_length, lenExtSize_eq, hlits, sourceSlice_length, ← Nat.add_assoc, ← Nat.add_assoc]
  rfl

theorem matchFits_iff {mlf : Nat} (hmlf : mlf = countMatch ch e.p e.c) : MatchFits ch e ↔
    e.out.length + 2 + (mlf + 240) / 255 ≤ ch.cap ∧
      (ch.n + ch.n / 255 + 16 ≤ ch.cap ∨ (e.out.length + 2) + 6 + matchMarginTerm ch.params.variant mlf ≤ ch.cap) := by
  rw [MatchFits, ← hmlf, lenExtSize_eq]
  rfl

theorem lastFits_iff (hlits : lits = sourceSlice ch e.anchor ch.n) :
    LastFits ch e ↔ e.out.length + 1 + (lits.length + 240) / 255 + lits.length ≤ ch.cap := by
  rw [LastFits, ← hlits, openToken_length, lenExtSize_eq, ← Nat.add_assoc, ← Nat.add_assoc]

/-- EncodeMatch's next phase, by the integer limit of R187. -/
theorem pastMatchEnd_iff (ch : Chunk) (x : Nat) : pastMatchEnd ch x = true ↔ (ch.n : Int) - 12 < (x : Int) := by
  rw [pastMatchEnd, decide_eq_true_eq, Config.mfLimit]
  omega

end

/-- Settles O58: each emitting step goes on or ends exactly where its checks pass, with what the `_running` lemmas say. -/
theorem engineEmitsTokens : Obligations.EngineEmitsTokens := by
  unfold Obligations.EngineEmitsTokens
  intro ch e lits
  simp only [← sourceSlice_eq]
  refine ⟨fun hp hlits => ?_, fun pre mlf hp htok hout hbelow hnear hmlf => ?_, fun hp hf => ?_, fun hp hf hlits => ?_⟩ <;>
    simp only [engineStep, hp]
  · rcases stepEncodeLiterals_fits_or_overflows ch e with ⟨hfit, e', he⟩ | ⟨hno, hover⟩
    · rw [if_pos ((literalsFit_iff hlits).1 hfit), he, stepEncodeLiterals_running he, ← hlits]
      rfl
    · rw [if_neg (mt (literalsFit_iff hlits).2 hno)]
      exact hover
  · rcases stepEncodeMatch_fits_or_overflows ch e with ⟨hfit, e', he⟩ | ⟨hno, hover⟩
    · rw [if_pos ((matchFits_iff hmlf).1 hfit), he, stepEncodeMatch_running hout htok (by omega) he, hmlf]
      simp only [← pastMatchEnd_iff]
    · rw [if_neg (mt (matchFits_iff hmlf).2 hno)]
      exact hover
  · simp [stepLastLiterals, hf]
  · rcases stepLastLiterals_fits_or_overflows ch e hf with ⟨hfit, he⟩ | ⟨hno, hover⟩
    · rw [if_pos ((lastFits_iff hlits).1 hfit), he, hlits]
    · rw [if_neg (mt (lastFits_iff hlits).2 hno)]
      exact hover

end Sys2Proof.Machine
end

section
/-! The bound checks as one comparison (R108, R185 to R189): under another capacity each step does the same or overflows, and it
overflows only where the finished output would pass that capacity, since behind every checked place at least as many bytes
follow as its margin asks for. -/

namespace Sys2Proof.Machine

/-! ### Another capacity -/

/-- The chunk with another capacity. -/
def withCap (c : Nat) (ch : Chunk) : Chunk := { ch with cap := c }

theorem catchUpLoop_withCap (c : Nat) (ch : Chunk) (anchor lo p q : Nat) :
    catchUpLoop (withCap c ch) anchor lo p q = catchUpLoop ch anchor lo p q := by
  induction p generalizing q with
  | zero => rfl
  | succ p ih =>
    rw [catchUpLoop, catchUpLoop, ih]
    rfl

theorem stepCatchUp_withCap (c : Nat) (ch : Chunk) (e : Engine) : stepCatchUp (withCap c ch) e = stepCatchUp ch e := by
  simp only [stepCatchUp, catchUpLoop_withCap]
  rfl

/-- What EncodeMatch leaves where it goes on, which does not depend on the capacity (R184, R187). -/
def matchEncoded (ch : Chunk) (e : Engine) : Engine :=
  { e with
    out := (e.out ++ leBytes 2 (ch.sb + e.p - e.c)).modify e.tokpos
      (fun b => b ||| BitVec.ofNat 8 (lenNibble (countMatch ch e.p e.c))) ++ lenExt (countMatch ch e.p e.c),
    k := countMatch ch e.p e.c, ip := e.p + (4 + countMatch ch e.p e.c), anchor := e.p + (4 + countMatch ch e.p e.c),
    phase := if pastMatchEnd ch (e.p + (4 + countMatch ch e.p e.c)) then .lastLiterals else .nextMatch }

section
variable {ch : Chunk} {e e' e1 : Engine} {c k fuel : Nat}

theorem stepEncodeMatch_running_eq (h : stepEncodeMatch ch e = .running e') : e' = matchEncoded ch e := by
  unfold stepEncodeMatch at h
  split at h
  · cases h
  · rename_i e1 he1
    obtain ⟨-, rfl⟩ := emit_eq_some.1 he1
    simp only at h
    split at h
    · cases h
    · split at h
      · cases h
      · rename_i e4 he4
        obtain ⟨-, rfl⟩ := emit_eq_some.1 he4
        cases h
        rfl

/-- Steps do the same, or one of them overflows. -/
def SameOrOverflow (x y : EngineStep) : Prop := x = y ∨ (∃ e, x = .overflow e) ∨ ∃ e, y = .overflow e

/-- The same test decides both steps. -/
theorem SameOrOverflow.ite {p : Prop} [Decidable p] {x x' y y' : EngineStep} (hx : SameOrOverflow x x')
    (hy : SameOrOverflow y y') : SameOrOverflow (if p then x else y) (if p then x' else y') := by
  split
  · exact hx
  · exact hy

/-- Under another capacity a step does the same, where neither overflows (R183, R185). -/
theorem engineStep_withCap (c : Nat) (ch : Chunk) (e : Engine) :
    SameOrOverflow (engineStep ch e) (engineStep (withCap c ch) e) := by
  cases hp : e.phase <;> simp only [engineStep, hp]
  case seekMatch => exact .inl rfl
  case catchUp => exact .inl (stepCatchUp_withCap c ch e).symm
  case encodeLiterals =>
    rcases stepEncodeLiterals_fits_or_overflows ch e with ⟨-, f, hf⟩ | ⟨-, hover⟩
    · rcases stepEncodeLiterals_fits_or_overflows (withCap c ch) e with ⟨-, g, hg⟩ | ⟨-, hover⟩
      · rw [hf, hg, stepEncodeLiterals_running hf, stepEncodeLiterals_running hg]
        exact .inl rfl
      · exact .inr (.inr hover)
    · exact .inr (.inl hover)
  case encodeMatch =>
    rcases stepEncodeMatch_fits_or_overflows ch e with ⟨-, f, hf⟩ | ⟨-, hover⟩
    · rcases stepEncodeMatch_fits_or_overflows (withCap c ch) e with ⟨-, g, hg⟩ | ⟨-, hover⟩
      · rw [hf, hg, stepEncodeMatch_running_eq hf, stepEncodeMatch_running_eq hg]
        exact .inl rfl
      · exact .inr (.inr hover)
    · exact .inr (.inl hover)
  case nextMatch =>
    rw [stepNextMatch_eq ch e rfl rfl, stepNextMatch_eq (withCap c ch) e rfl rfl]
    refine .ite (p := validNext ch e.tm _ (ch.sb + e.ip) = true) ?_ (.inl rfl)
    split
    · split
      · exact .inl rfl
      · exact .inr (.inr ⟨_, rfl⟩)
    · exact .inr (.inl ⟨_, rfl⟩)
  case lastLiterals =>
    cases hf : ch.final
    · have hf' : (withCap c ch).final = false := hf
      simp only [stepLastLiterals, hf, hf']
      exact .inl rfl
    · rcases stepLastLiterals_fits_or_overflows ch e hf with ⟨-, hfin⟩ | ⟨-, hover⟩
      · rcases stepLastLiterals_fits_or_overflows (withCap c ch) e hf with ⟨-, hfin'⟩ | ⟨-, hover⟩
        · rw [hfin, hfin']
          exact .inl rfl
        · exact .inr (.inr hover)
      · exact .inr (.inl hover)
  case done => exact .inl rfl

theorem SameOrOverflow.running {x y : EngineStep} (h : SameOrOverflow x y) (hx : x = .running e1) :
    y = .running e1 ∨ ∃ e, y = .overflow e := by
  rcases h with rfl | ⟨e, rfl⟩ | h
  · exact .inl hx
  · cases hx
  · exact .inr h

theorem SameOrOverflow.finished {x y : EngineStep} (h : SameOrOverflow x y) (hx : x = .finished e1 k) :
    y = .finished e1 k ∨ ∃ e, y = .overflow e := by
  rcases h with rfl | ⟨e, rfl⟩ | h
  · exact .inl hx
  · cases hx
  · exact .inr h

/-- A chunk that finishes does so alike under another capacity, or overflows. -/
theorem engineRun_withCap (c : Nat) (h : engineRun ch fuel e = .finished e' k) :
    engineRun (withCap c ch) fuel e = .finished e' k ∨ ∃ e2, engineRun (withCap c ch) fuel e = .overflow e2 := by
  induction fuel generalizing e with
  | zero => cases h
  | succ fuel ih =>
    have hsame := engineStep_withCap c ch e
    simp only [engineRun] at h ⊢
    split at h
    · rename_i e1 hs
      rcases hsame.running hs with hs' | ⟨e2, hs'⟩ <;> rw [hs']
      · exact ih h
      · exact .inr ⟨e2, rfl⟩
    · rename_i e1 k1 hs
      cases h
      rcases hsame.finished hs with hs' | ⟨e2, hs'⟩ <;> rw [hs']
      · exact .inl rfl
      · exact .inr ⟨e2, rfl⟩
    · cases h

/-! ### What is still to come -/

/-- How many bytes at least are still to come: those that complete a token begun, and behind a match, or where five bytes are
left, the last token with its five literals (R83, R84). -/
def outputToCome (ch : Chunk) (e : Engine) : Nat :=
  match e.phase with
  | .encodeMatch => 2 + lenExtSize (countMatch ch e.p e.c) + 6
  | .done => 0
  | _ => if e.anchor + 5 ≤ ch.n then 6 else 0

/-- The last token of a chunk that is not the last comes in a later one. -/
def outputOwed (ch : Chunk) : Nat := if ch.final then 0 else 6

theorem outputToCome_eq (hp : e.phase ≠ .encodeMatch) (hd : e.phase ≠ .done) :
    outputToCome ch e = if e.anchor + 5 ≤ ch.n then 6 else 0 := by
  unfold outputToCome
  split
  · exact absurd ‹_› hp
  · exact absurd ‹_› hd
  · rfl

theorem outputToCome_encodeMatch (hp : e.phase = .encodeMatch) :
    outputToCome ch e = 2 + lenExtSize (countMatch ch e.p e.c) + 6 := by
  simp only [outputToCome, hp]

/-- A step that leaves the output and the anchor, with no token begun before or after it, leaves what is to come. -/
theorem outputToCome_le_of_same (hp : e.phase ≠ .encodeMatch) (hd : e.phase ≠ .done) (hp' : e'.phase ≠ .encodeMatch)
    (hd' : e'.phase ≠ .done) (ha : e'.anchor = e.anchor) (ho : e'.out = e.out) :
    e.out.length + outputToCome ch e ≤ e'.out.length + outputToCome ch e' := by
  rw [outputToCome_eq hp hd, outputToCome_eq hp' hd', ha, ho]

theorem matchEncoded_length (ch : Chunk) (e : Engine) :
    (matchEncoded ch e).out.length = e.out.length + (2 + lenExtSize (countMatch ch e.p e.c)) := by
  simp [matchEncoded]; omega

/-- Five bytes are left behind a match (R84, R151). -/
theorem outputToCome_matchEncoded (hm : e.p + 11 ≤ ch.n) : outputToCome ch (matchEncoded ch e) = 6 := by
  have hcount := countMatch_le ch e.p e.c
  have hphase : ∀ past : Bool, (if past then EngineState.lastLiterals else .nextMatch) ≠ .encodeMatch ∧
      (if past then EngineState.lastLiterals else .nextMatch) ≠ .done := by decide
  obtain ⟨hp, hd⟩ := hphase (pastMatchEnd ch (e.p + (4 + countMatch ch e.p e.c)))
  rw [outputToCome_eq hp hd, if_pos]
  simp only [matchEncoded]
  omega

/-- A step that goes on emits no less than what is no longer to come. -/
theorem outputToCome_step (hm : EngineMoves ch e) (h : engineStep ch e = .running e1) :
    e.out.length + outputToCome ch e ≤ e1.out.length + outputToCome ch e1 := by
  rcases engineStep_running_cases h with ⟨hp, rfl⟩ | ⟨hp, rfl⟩ | ⟨hp, rfl⟩ | ⟨hp, h⟩ | ⟨hp, h⟩
  · rcases probe_cases ch e with ⟨-, hq⟩ | ⟨-, ⟨ht, c, hq⟩ | ⟨ht, c, hq⟩⟩ <;> rw [hq] <;>
      exact outputToCome_le_of_same (by simp [hp]) (by simp [hp]) (by simp) (by simp) rfl rfl
  · exact outputToCome_le_of_same (by simp [hp]) (by simp [hp]) (by simp) (by simp) rfl rfl
  · rw [outputToCome_eq (by simp [hp]) (by simp [hp]), outputToCome_encodeMatch rfl, List.length_append]
    split <;> omega
  · simp only [EngineMoves, hp] at hm
    rw [stepEncodeMatch_running_eq h, outputToCome_encodeMatch hp, outputToCome_matchEncoded hm.2.2, matchEncoded_length]
    omega
  · obtain ⟨q, ht, ⟨-, rfl⟩ | rfl⟩ := stepNextMatch_cases h
    · rw [outputToCome_eq (by simp [hp]) (by simp [hp]), outputToCome_encodeMatch rfl, List.length_append]
      split <;> omega
    · exact outputToCome_le_of_same (by simp [hp]) (by simp [hp]) (by simp [beginSeek]) (by simp [beginSeek]) rfl rfl

theorem outputToCome_finished (h : engineStep ch e = .finished e1 k) :
    e.out.length + outputToCome ch e ≤ e1.out.length + outputOwed ch := by
  rcases engineStep_finished h with hp | ⟨hp, h⟩
  · simp only [engineStep, hp] at h
    cases h
    simp only [outputToCome, hp]
    omega
  · rw [outputToCome_eq (by simp [hp]) (by simp [hp])]
    rcases stepLastLiterals_finished h with ⟨hf, -, hout⟩ | ⟨hf, -, hout⟩
    · rw [hout, outputOwed, hf, if_neg Bool.false_ne_true]
      split <;> omega
    · rw [hout, outputOwed, hf, if_pos rfl, List.length_append, encodeToken_last_zero, openToken_length,
        sourceSlice_length]
      split <;> omega

/-- A chunk that finishes has emitted all that was to come, or owes it (R83, R84). -/
theorem engineRun_outputToCome (ha : 1 ≤ ch.accel) (hm : EngineMoves ch e) (h : engineRun ch fuel e = .finished e' k) :
    e.out.length + outputToCome ch e ≤ e'.out.length + outputOwed ch := by
  induction fuel generalizing e with
  | zero => cases h
  | succ fuel ih =>
    simp only [engineRun] at h
    split at h
    · rename_i e1 hs
      exact Nat.le_trans (outputToCome_step hm hs) (ih (engineStep_moves ha hm hs).1 h)
    · rename_i e1 k1 hs
      cases h
      exact outputToCome_finished hs
    · cases h

/-! ### A capacity that is large enough -/

/-- With room for what a step emits and for what is to come behind it, its checks pass (R185, R189). -/
theorem engineStep_withCap_running (hm : EngineMoves ch e) (h : engineStep ch e = .running e1)
    (hc : e1.out.length + outputToCome ch e1 ≤ c) : engineStep (withCap c ch) e = .running e1 := by
  rcases (engineStep_withCap c ch e).running h with h' | ⟨f, hf⟩
  · exact h'
  exfalso
  have hstep := outputToCome_step hm h
  rcases engineStep_running_cases h with ⟨hp, -⟩ | ⟨hp, -⟩ | ⟨hp, rfl⟩ | ⟨hp, h⟩ | ⟨hp, h⟩ <;>
    simp only [engineStep, hp] at hf
  · cases hf
  · cases hf
  · rw [outputToCome_encodeMatch rfl] at hc
    simp only [List.length_append, openToken_length, sourceSlice_length, lenExtSize_eq] at hc
    have hfit : LiteralsFit (withCap c ch) e := by
      rw [LiteralsFit, openToken_length, sourceSlice_length, lenExtSize_eq]
      simp only [withCap]
      omega
    rcases stepEncodeLiterals_fits_or_overflows (withCap c ch) e with ⟨-, g, hg⟩ | ⟨hno, -⟩
    · rw [hg] at hf
      cases hf
    · exact hno hfit
  · simp only [EngineMoves, hp] at hm
    rw [stepEncodeMatch_running_eq h, outputToCome_matchEncoded hm.2.2, matchEncoded_length] at hc
    have hterm : matchMarginTerm ch.params.variant (countMatch ch e.p e.c) ≤ lenExtSize (countMatch ch e.p e.c) := by
      rw [lenExtSize_eq]
      unfold matchMarginTerm
      split <;> omega
    have hfit : MatchFits (withCap c ch) e := by
      refine ⟨?_, .inr ?_⟩
      · change e.out.length + 2 + lenExtSize (countMatch ch e.p e.c) ≤ c
        omega
      · change e.out.length + 2 + 6 + matchMarginTerm ch.params.variant (countMatch ch e.p e.c) ≤ c
        omega
    rcases stepEncodeMatch_fits_or_overflows (withCap c ch) e with ⟨-, g, hg⟩ | ⟨hno, -⟩
    · rw [hg] at hf
      cases hf
    · exact hno hfit
  · simp only [EngineMoves, hp] at hm
    rw [outputToCome_eq (by simp [hp]) (by simp [hp]), if_pos (by omega)] at hstep
    exact stepNextMatch_not_overflow (ch := withCap c ch) (show e.out.length + 1 ≤ c by omega) hf

theorem engineStep_withCap_finished (h : engineStep ch e = .finished e1 k) (hc : e1.out.length ≤ c) :
    engineStep (withCap c ch) e = .finished e1 k := by
  rcases (engineStep_withCap c ch e).finished h with h' | ⟨f, hf⟩
  · exact h'
  exfalso
  rcases engineStep_finished h with hp | ⟨hp, h⟩ <;> simp only [engineStep, hp] at hf
  · cases hf
  · rcases stepLastLiterals_finished h with ⟨hfinal, -, -⟩ | ⟨hfinal, -, hout⟩
    · have hfinal' : (withCap c ch).final = false := hfinal
      simp [stepLastLiterals, hfinal'] at hf
    · rcases stepLastLiterals_fits_or_overflows (withCap c ch) e hfinal with ⟨-, hg⟩ | ⟨hno, -⟩
      · rw [hg] at hf
        cases hf
      · rw [hout, List.length_append, encodeToken_last_zero] at hc
        exact hno hc

/-- A chunk that finishes does so alike under a capacity of its output and what it owes (R189). -/
theorem engineRun_withCap_of_le (ha : 1 ≤ ch.accel) (hm : EngineMoves ch e) (h : engineRun ch fuel e = .finished e' k)
    (hc : e'.out.length + outputOwed ch ≤ c) : engineRun (withCap c ch) fuel e = .finished e' k := by
  induction fuel generalizing e with
  | zero => cases h
  | succ fuel ih =>
    simp only [engineRun] at h ⊢
    split at h
    · rename_i e1 hs
      have hm1 := (engineStep_moves ha hm hs).1
      rw [engineStep_withCap_running hm hs (Nat.le_trans (engineRun_outputToCome ha hm1 h) hc)]
      exact ih hm1 h
    · rename_i e1 k1 hs
      cases h
      rw [engineStep_withCap_finished hs (by omega)]
    · cases h

/-! ### A chunk's run -/

theorem indexDict_withCap (c : Nat) (ch : Chunk) (fuel p : Nat) (e : Engine) :
    indexDict (withCap c ch) fuel p e = indexDict ch fuel p e := by
  induction fuel generalizing p e with
  | zero => rfl
  | succ fuel ih => simp only [indexDict, ih]; rfl

theorem setupTable_withCap (c : Nat) (ch : Chunk) (e : Engine) : setupTable (withCap c ch) e = setupTable ch e := by
  simp only [setupTable, indexDict_withCap]
  rfl

theorem runEngine_withCap (c : Nat) (h : runEngine ch (setupTable ch e) = .finished e' k) :
    runEngine (withCap c ch) (setupTable (withCap c ch) e) = .finished e' k ∨
      ∃ e2, runEngine (withCap c ch) (setupTable (withCap c ch) e) = .overflow e2 := by
  rw [setupTable_withCap]
  exact engineRun_withCap c h

theorem runEngine_withCap_of_le (ha : 1 ≤ ch.accel) (h : runEngine ch (setupTable ch e) = .finished e' k)
    (hc : e'.out.length + outputOwed ch ≤ c) :
    runEngine (withCap c ch) (setupTable (withCap c ch) e) = .finished e' k := by
  rw [setupTable_withCap]
  exact engineRun_withCap_of_le ha (engineEntry_moves ha _) h hc

/-- A last chunk of five bytes or more takes six bytes of output at least (R83). -/
theorem runEngine_length_ge (ha : 1 ≤ ch.accel) (hn : 5 ≤ ch.n) (h : runEngine ch e = .finished e' k) :
    6 ≤ e'.out.length + outputOwed ch := by
  have hto := engineRun_outputToCome ha (engineEntry_moves ha e) h
  have hsix : outputToCome ch (engineEntry ch e) = 6 := by
    rw [(engineEntersAtPositionOne ch e).2 hn]
    exact if_pos (by simpa using hn)
  rw [hsix] at hto
  exact Nat.le_trans (Nat.le_add_left _ _) hto

/-- A chunk that is not the last consumes nothing, or leaves five bytes (R84, R191). -/
theorem ChunkOutput.consumed {D C out : List Byte} {seqs : List Token} {anchor : Nat} (hv : ChunkOver ch D C)
    (ho : ChunkOutput ch D C out k seqs anchor) (hf : ch.final = false) : k = 0 ∨ k + 5 ≤ ch.n := by
  have hk : k = anchor := by
    rcases ho.out with ⟨-, hk, -⟩ | ⟨hf', -⟩
    · exact hk
    · rw [hf] at hf'
      cases hf'
  rcases ho.ends with rfl | hfive
  · have hgrow := congrArg List.length (Option.some.inj ho.grow)
    have hle := ho.le
    rw [hv.n] at hle
    rw [List.length_append, List.length_take] at hgrow
    omega
  · exact .inr (hk ▸ hfive)

end

/-! ### The wrapper -/

section
variable {P : Config.Params} {S D U acc : List Byte} {dm : DictMode} {accel cape : Nat} {e e1 e2 : Engine}
  {w : Wrapper} {fuel pos k : Nat}

theorem roundChunk_withCap (cape' : Nat) : withCap (cape' - acc.length) (roundChunk P S D dm accel cape pos acc) =
    roundChunk P S D dm accel cape' pos acc := rfl

theorem chunkLoop_of_overflow (hrun : runEngine (roundChunk P S D dm accel cape pos acc)
      (setupTable (roundChunk P S D dm accel cape pos acc) e) = .overflow e1) :
    chunkLoop P S D dm accel cape (fuel + 1) pos acc e =
      .raised .outputBoundExceeded e1 { pos := pos, outBase := acc.length } := by
  rw [roundChunk] at hrun
  simp only [chunkLoop, hrun]

/-- The round of the last chunk (R204). -/
theorem chunkLoop_of_final (hrem : S.length - pos ≤ P.chunkMax)
    (hrun : runEngine (roundChunk P S D dm accel cape pos acc)
      (setupTable (roundChunk P S D dm accel cape pos acc) e) = .finished e1 k) :
    chunkLoop P S D dm accel cape (fuel + 1) pos acc e =
      if k ≠ S.length - pos then .raised .chunkProgressFailure e1 { pos := pos, outBase := acc.length }
      else .stream (acc ++ e1.out) e1 { pos := pos, outBase := acc.length } := by
  rw [roundChunk] at hrun
  simp only [chunkLoop, hrun]
  rw [if_pos (decide_eq_true hrem), Nat.min_eq_left hrem]

/-- A round on the way to a stream `U`: its chunk finishes, the last one with the whole rest and the stream's end, another one
with progress, a short tail and `U` still to come (R200 to R206). -/
inductive StreamRound (P : Config.Params) (S D : List Byte) (dm : DictMode) (accel cape fuel pos : Nat) (acc U : List Byte)
    (e2 e1 : Engine) (w : Wrapper) (k : Nat) : Prop
  | last : S.length - pos ≤ P.chunkMax → k = S.length - pos → U = acc ++ e2.out → e1 = e2 →
      w = { pos := pos, outBase := acc.length } → StreamRound P S D dm accel cape fuel pos acc U e2 e1 w k
  | next : P.chunkMax < S.length - pos → P.chunkMax - k < P.chunkTail → k ≠ 0 →
      chunkLoop P S D dm accel cape fuel (pos + k) (acc ++ e2.out) e2 = .stream U e1 w →
      StreamRound P S D dm accel cape fuel pos acc U e2 e1 w k

theorem streamRound_of_chunkLoop (ha : 1 ≤ accel)
    (h : chunkLoop P S D dm accel cape (fuel + 1) pos acc e = .stream U e1 w) :
    ∃ e2 k, runEngine (roundChunk P S D dm accel cape pos acc)
        (setupTable (roundChunk P S D dm accel cape pos acc) e) = .finished e2 k ∧
      StreamRound P S D dm accel cape fuel pos acc U e2 e1 w k := by
  cases hrun : runEngine (roundChunk P S D dm accel cape pos acc)
      (setupTable (roundChunk P S D dm accel cape pos acc) e) with
  | unfinished e2 => exact absurd hrun (runEngine_ends (by exact ha) _ _)
  | overflow e2 =>
    rw [chunkLoop_of_overflow hrun] at h
    cases h
  | finished e2 k =>
    refine ⟨e2, k, rfl, ?_⟩
    by_cases hrem : S.length - pos ≤ P.chunkMax
    · rw [chunkLoop_of_final hrem hrun] at h
      split at h
      · cases h
      · rename_i hk
        cases h
        exact .last hrem (not_not.1 hk) rfl rfl rfl
    · have hrem := Nat.lt_of_not_le hrem
      rw [chunkLoop_of_not_final hrem hrun] at h
      split at h
      · cases h
      · rename_i htail
        split at h
        · cases h
        · rename_i hk
          exact .next hrem (Nat.lt_of_not_le htail) hk h

/-- Under another capacity a round finishes alike, or the wrapper raises (R204). -/
theorem chunkLoop_stream_or_raised (ha : 1 ≤ accel) (cape' : Nat)
    (h : chunkLoop P S D dm accel cape fuel pos acc e = .stream U e1 w) :
    chunkLoop P S D dm accel cape' fuel pos acc e = .stream U e1 w ∨
      ∃ e2 w2, chunkLoop P S D dm accel cape' fuel pos acc e = .raised .outputBoundExceeded e2 w2 := by
  induction fuel generalizing pos acc e with
  | zero => cases h
  | succ fuel ih =>
    obtain ⟨e2, k, hrun, hround⟩ := streamRound_of_chunkLoop ha h
    have hsame := runEngine_withCap (cape' - acc.length) hrun
    rw [roundChunk_withCap] at hsame
    rcases hsame with hrun' | ⟨e3, hrun'⟩
    · cases hround with
      | last hrem hk hU he hw =>
        subst hU he hw
        rw [chunkLoop_of_final hrem hrun', if_neg (not_not.2 hk)]
        exact .inl rfl
      | next hrem htail hk hnext =>
        rw [chunkLoop_of_not_final hrem hrun', if_neg (Nat.not_le.2 htail), if_neg hk]
        exact ih hnext
    · exact .inr ⟨_, _, chunkLoop_of_overflow hrun'⟩

/-- A round that goes on leaves five source bytes (R84). -/
theorem five_le_rest (ha : 1 ≤ accel) (hD : dm = .noDict → D = []) (hrem : P.chunkMax < S.length - pos) (hk : k ≠ 0)
    (hrun : runEngine (roundChunk P S D dm accel cape pos acc)
      (setupTable (roundChunk P S D dm accel cape pos acc) e) = .finished e1 k) : 5 ≤ S.length - (pos + k) := by
  have hv := chunkOver_roundChunk (P := P) (S := S) (cape := cape) ha hD pos acc
  obtain ⟨seqs, anchor, ho⟩ := runEngine_output hv hrun
  have hconsumed := ho.consumed hv (decide_eq_false (Nat.not_le.2 hrem))
  rw [roundChunk_n] at hconsumed
  omega

theorem outputOwed_roundChunk_last (hrem : S.length - pos ≤ P.chunkMax) :
    outputOwed (roundChunk P S D dm accel cape pos acc) = 0 :=
  if_pos (decide_eq_true hrem)

theorem outputOwed_le (ch : Chunk) : outputOwed ch ≤ 6 := by
  unfold outputOwed
  split <;> omega

/-- A stream's rounds from five source bytes on emit six bytes at least (R83, R84). -/
theorem chunkLoop_stream_length (ha : 1 ≤ accel) (hD : dm = .noDict → D = [])
    (h : chunkLoop P S D dm accel cape fuel pos acc e = .stream U e1 w) (hfive : 5 ≤ S.length - pos) :
    acc.length + 6 ≤ U.length := by
  induction fuel generalizing pos acc e with
  | zero => cases h
  | succ fuel ih =>
    obtain ⟨e2, k, hrun, hround⟩ := streamRound_of_chunkLoop ha h
    cases hround with
    | last hrem hk hU =>
      have hsix := runEngine_length_ge (by exact ha) (by rw [roundChunk_n]; omega) hrun
      rw [outputOwed_roundChunk_last hrem] at hsix
      rw [hU, List.length_append]
      omega
    | next hrem htail hk hnext =>
      have := ih hnext (five_le_rest ha hD hrem hk hrun)
      rw [List.length_append] at this
      omega

/-- Under a capacity of the stream's length every round finishes alike (R189). -/
theorem chunkLoop_stream_of_le (ha : 1 ≤ accel) (hD : dm = .noDict → D = []) {cape' : Nat}
    (h : chunkLoop P S D dm accel cape fuel pos acc e = .stream U e1 w) (hle : U.length ≤ cape') :
    chunkLoop P S D dm accel cape' fuel pos acc e = .stream U e1 w := by
  induction fuel generalizing pos acc e with
  | zero => cases h
  | succ fuel ih =>
    obtain ⟨e2, k, hrun, hround⟩ := streamRound_of_chunkLoop ha h
    have hsame := runEngine_withCap_of_le (c := cape' - acc.length) (by exact ha) hrun
    rw [roundChunk_withCap] at hsame
    cases hround with
    | last hrem hk hU he hw =>
      rw [hU, List.length_append] at hle
      rw [outputOwed_roundChunk_last hrem] at hsame
      rw [chunkLoop_of_final hrem (hsame (by omega)), if_neg (not_not.2 hk), hU, he, hw]
    | next hrem htail hk hnext =>
      have hrest := chunkLoop_stream_length ha hD hnext (five_le_rest ha hD hrem hk hrun)
      have howed := outputOwed_le (roundChunk P S D dm accel cape pos acc)
      rw [List.length_append] at hrest
      rw [chunkLoop_of_not_final hrem (hsame (by omega)), if_neg (Nat.not_le.2 htail), if_neg hk]
      exact ih hnext

/-- In mode NODICT the dictionary's bytes play no part in a COMPRESS (R38). -/
theorem chunkCompress_noDict (P : Config.Params) (S D : List Byte) (accel cape : Nat) (e : Engine) :
    chunkCompress P S D .noDict accel cape e = chunkCompress P S [] .noDict accel cape e :=
  chunkLoop_noDict _ _

theorem chunkCompress_stream_of_le (ha : 1 ≤ accel) {cape' : Nat}
    (h : chunkCompress P S D dm accel cape e = .stream U e1 w) (hle : U.length ≤ cape') :
    chunkCompress P S D dm accel cape' e = .stream U e1 w := by
  by_cases hdm : dm = .noDict
  · subst hdm
    rw [chunkCompress_noDict] at h ⊢
    exact chunkLoop_stream_of_le ha (fun _ => rfl) h hle
  · exact chunkLoop_stream_of_le ha (fun h0 => absurd h0 hdm) h hle

end

/-- Settles O33: under another capacity the wrapper answers the stream or raises; it does not raise where the stream fits, and
it answers no stream longer than its capacity. -/
theorem boundChecksAreOneComparison : Obligations.BoundChecksAreOneComparison := by
  unfold Obligations.BoundChecksAreOneComparison
  intro P S D U dm accel cape cape' e e1 w1 ha h
  refine ⟨chunkCompress_stream_of_le ha h, fun hlt => ?_⟩
  rcases chunkLoop_stream_or_raised ha cape' h with hsame | hraised
  · exact absurd (chunkCompress_cap hsame) (Nat.not_le.2 hlt)
  · exact hraised

end Sys2Proof.Machine
end

section
/-! Runs written out: a source of one chunk whose stream is known under one capacity (R108), short sources (R178, R208), and
runs of one byte (R177). -/

namespace Sys2Proof.Machine

/-! ### From a chunk's run to the command -/

section
variable {P : Config.Params} {S D : List Byte} {dm : DictMode} {accel cape k fuel : Nat} {ch : Chunk} {e e' e1 : Engine}

theorem engineRun_of_running (h : engineStep ch e = .running e1) :
    engineRun ch (fuel + 1) e = engineRun ch fuel e1 := by
  simp only [engineRun, h]

theorem engineRun_of_finished (h : engineStep ch e = .finished e1 k) :
    engineRun ch (fuel + 1) e = .finished e1 k := by
  simp only [engineRun, h]

/-- The chunk of a source of one chunk (R200). -/
def onlyChunk (P : Config.Params) (S D : List Byte) (dm : DictMode) (accel cape : Nat) : Chunk :=
  chunkOf P S D dm accel true cape

theorem roundChunk_zero (hS : S.length ≤ P.chunkMax) :
    roundChunk P S D dm accel cape 0 [] = onlyChunk P S D dm accel cape := by
  rw [roundChunk, onlyChunk, List.drop_zero, Nat.sub_zero, Nat.min_eq_left hS, List.take_length, decide_eq_true hS]
  rfl

/-- A source of one chunk answers what the chunk's run emits (R200, R204). -/
theorem chunkCompress_of_onlyChunk (hS : S.length ≤ P.chunkMax)
    (hrun : runEngine (onlyChunk P S D dm accel cape) (setupTable (onlyChunk P S D dm accel cape) e) =
      .finished e1 S.length) :
    chunkCompress P S D dm accel cape e = .stream e1.out e1 { pos := 0, outBase := 0 } := by
  rw [← roundChunk_zero hS] at hrun
  exact (chunkLoop_of_final hS hrun).trans (if_neg (not_not.2 rfl))

end

/-- A running COMPRESS whose stream is known under one capacity: it succeeds where the stream fits the command's, and ends in
OutputBoundExceeded where it does not (R98, R108, R189). -/
theorem exec_compress_of_stream {s : State} {d dm : DictMode} {D U : List Byte} {cape : Nat} {e : Engine} {w : Wrapper}
    (hr : Running .compress d s) (hdict : compressDict Config.hw d s.latch s.mem = (dm, D))
    (h : chunkCompress Config.hw (srcBytes s.latch s.mem) D dm (effectiveAccel s.latch.accel.toNat) cape s.engine =
      .stream U e w) :
    (U.length ≤ capacity .compress s.latch → exec (commandOf .compress d) s = .next { s with
      status := 0b010#64, resultLen := BitVec.ofNat 64 U.length, dm := dm, engine := e, wrapper := w,
      mem := writeBytes s.mem s.latch.dstAddr.toNat U }) ∧
    (capacity .compress s.latch < U.length → ∃ e w m, exec (commandOf .compress d) s = .next { s with
      status := 0x206#64, resultLen := 0#64, dm := dm, engine := e, wrapper := w, mem := m,
      draws := s.draws + capacity .compress s.latch } ∧
      ∀ a, ¬ InRange a s.latch.dstAddr.toNat (capacity .compress s.latch) → readByte m a = readByte s.mem a) := by
  obtain ⟨hfit, hover⟩ := boundChecksAreOneComparison _ _ _ _ _ _ _ (capacity .compress s.latch) _ _ _
    (Nat.le_max_right _ _) h
  rw [exec_commandOf, if_pos hr.1]
  rcases completeCompress_cases (checkCommand_none hr.2).1 with
    ⟨out, e', w', hrun, -, hnext⟩ | ⟨err, e', w', hrun, hnext⟩ <;>
    rw [hdict] at hnext <;> rw [compressRun, hdict] at hrun
  · refine ⟨fun hle => ?_, fun hlt => ?_⟩
    · cases (hfit hle).symm.trans hrun
      exact hnext
    · obtain ⟨e2, w2, hraised⟩ := hover hlt
      cases hraised.symm.trans hrun
  · refine ⟨fun hle => ?_, fun hlt => ?_⟩
    · cases (hfit hle).symm.trans hrun
    · obtain ⟨e2, w2, hraised⟩ := hover hlt
      cases hraised.symm.trans hrun
      exact ⟨_, _, _, hnext, fun a ha => readByte_fillFree_outside (not_inRange_iff.1 ha)⟩

/-! ### Sources of at most 13 bytes -/

section
variable {ch : Chunk} {e : Engine} {fuel : Nat} {lits : List Byte}

/-- LastLiterals of a final chunk ends the run with the last token where that fits (R190). -/
theorem engineRun_of_lastLiterals (hp : e.phase = .lastLiterals) (hf : ch.final = true)
    (hlits : sourceSlice ch e.anchor ch.n = lits)
    (hfit : e.out.length + 1 + (lits.length + 240) / 255 + lits.length ≤ ch.cap) :
    engineRun ch (fuel + 1) e =
      .finished { e with phase := .done, out := e.out ++ encodeToken (.last 0#4 lits) } ch.n := by
  obtain ⟨-, -, -, hlast⟩ := engineEmitsTokens ch e lits
  have hstep := hlast hp hf (by rw [← hlits, sourceSlice_eq])
  rw [if_pos hfit] at hstep
  exact engineRun_of_finished hstep

/-- A chunk of at most 13 bytes has no probe within PROBE_LIMIT: its run is LastLiterals at once, or after one probe (R142,
R178). -/
theorem runEngine_of_short (hvar : ch.params.variant = .linux) (hn : ch.n ≤ 13) (hf : ch.final = true)
    (hlits : sourceSlice ch 0 ch.n = lits) (hlen : lits.length = ch.n) (hfit : ch.n + 1 ≤ ch.cap) :
    ∃ e1, runEngine ch e = .finished e1 ch.n ∧ e1.out = encodeToken (.last 0#4 lits) := by
  have hroom : 0 + 1 + (lits.length + 240) / 255 + lits.length ≤ ch.cap := by omega
  obtain ⟨k, hfuel⟩ : ∃ k, engineFuel ch.n = k + 2 := ⟨_, (Nat.sub_add_cancel (by unfold engineFuel; nlinarith)).symm⟩
  obtain ⟨hbelow, hfrom⟩ := engineEntersAtPositionOne ch e
  rw [runEngine, hfuel]
  rcases Nat.lt_or_ge ch.n 5 with h5 | h5
  · rw [hbelow h5]
    exact ⟨_, engineRun_of_lastLiterals rfl hf hlits hroom, rfl⟩
  · rw [hfrom h5]
    obtain ⟨hstep, hpast, -⟩ := probesExchangeAndTest ch _ _ rfl
    rw [engineRun_of_running (hstep rfl), hpast (by rw [hvar]; simp only [probeLimit]; omega)]
    exact ⟨_, engineRun_of_lastLiterals rfl hf hlits hroom, rfl⟩

/-- A last token of at most 13 literals has no ext (R160). -/
theorem encodeToken_last_of_short (h : lits.length ≤ 13) :
    encodeToken (.last 0#4 lits) = BitVec.ofNat 8 (16 * lits.length) :: lits := by
  have hnib : lenNibble lits.length = lits.length := Nat.min_eq_left (Nat.le_trans h (by decide))
  have hext : lenExt lits.length = [] := if_pos (Nat.lt_of_le_of_lt h (by decide))
  rw [encodeToken, hnib, hext]
  rfl

end

/-- The only chunk of a source, in the virtual index space (R38). -/
theorem chunkOver_onlyChunk (P : Config.Params) (S : List Byte) {D : List Byte} {dm : DictMode} (hD : dm = .noDict → D = [])
    (accel cape : Nat) : ChunkOver (onlyChunk P S D dm (effectiveAccel accel) cape) D S :=
  chunkOver_chunkOf P S hD (Nat.le_max_right _ _) true cape

/-- Settles O37: `runEngine_of_short` says what the one chunk emits, and `exec_compress_of_stream` what the command
makes of it. -/
theorem shortSourcesAreOneLastToken : Obligations.ShortSourcesAreOneLastToken := by
  unfold Obligations.ShortSourcesAreOneLastToken
  intro s i d w hi hr hshort
  obtain ⟨rfl, -⟩ := compressForm_iff.1 hi
  obtain ⟨⟨dm, D⟩, hdict⟩ : ∃ x, compressDict Config.hw d s.latch s.mem = x := ⟨_, rfl⟩
  have hD : dm = .noDict → D = [] := by
    have := compressDict_noDict (P := Config.hw) (d := d) (l := s.latch) (m := s.mem)
    rwa [hdict] at this
  have hlen := srcBytes_length s.latch s.mem
  have hS : (srcBytes s.latch s.mem).length ≤ 13 := hlen ▸ hshort
  have hv := chunkOver_onlyChunk Config.hw (srcBytes s.latch s.mem) hD s.latch.accel.toNat 14
  have hslice := hv.sourceSlice (a := 0) (Nat.le_refl _)
  rw [hv.n, List.take_length, List.drop_zero] at hslice
  obtain ⟨e1, hrun, hout⟩ := runEngine_of_short rfl hS rfl hslice rfl (Nat.succ_le_succ hS)
  obtain ⟨hfits, hover⟩ := exec_compress_of_stream hr hdict
    (chunkCompress_of_onlyChunk (Nat.le_trans hS (by decide)) hrun)
  have hU : e1.out = BitVec.ofNat 8 (16 * s.latch.srcLen.toNat) :: srcBytes s.latch s.mem := by
    rw [hout, encodeToken_last_of_short hS, hlen]
  have hUlen : e1.out.length = s.latch.srcLen.toNat + 1 := by rw [hU, List.length_cons, hlen]
  have hres : BitVec.ofNat 64 e1.out.length = s.latch.srcLen + 1#64 := by rw [hUlen]; bv_omega
  rw [hres, hUlen, hU] at hfits
  rw [hUlen] at hover
  refine ⟨fun hle => ⟨_, _, _, hfits hle⟩, fun hlt => ?_⟩
  obtain ⟨e, w, m, hnext, hframe⟩ := hover hlt
  exact ⟨e, w, dm, m, hnext, hframe⟩

/-! ### Runs of one byte -/

/-- A chunk of at least 14 bytes, all of them `b`, that is a whole source without a dictionary, its stream unbounded. -/
structure OneByteChunk (ch : Chunk) (b : Byte) : Prop where
  bytes : ∀ v, v < ch.n → ch.bytes v = b
  dm    : ch.dm = .noDict
  sb    : ch.sb = 0
  final : ch.final = true
  cap   : ch.n + ch.n / 255 + 16 ≤ ch.cap
  n     : 14 ≤ ch.n

namespace OneByteChunk
variable {ch : Chunk} {b : Byte} {e : Engine}

theorem hashAt_eq (h : OneByteChunk ch b) (tm : TableMode) {u v : Nat} (hu : u + 5 ≤ ch.n) (hv : v + 5 ≤ ch.n) :
    hashAt ch tm u = hashAt ch tm v := by
  have hb : ∀ j, j < 5 → ch.bytes (u + j) = ch.bytes (v + j) := fun j hj =>
    (h.bytes _ (by omega)).trans (h.bytes _ (by omega)).symm
  simp only [hashAt, hash4, hash5, hb 1 (by decide), hb 2 (by decide), hb 3 (by decide), hb 4 (by decide),
    show ch.bytes u = ch.bytes v from hb 0 (by decide)]

theorem sourceSlice_eq (h : OneByteChunk ch b) {i j : Nat} (hj : j ≤ ch.n) :
    sourceSlice ch i j = List.replicate (j - i) b := by
  refine List.eq_replicate_iff.2 ⟨sourceSlice_length ch i j, fun x hx => ?_⟩
  rw [Machine.sourceSlice_eq, List.mem_map] at hx
  obtain ⟨k, hk, rfl⟩ := hx
  rw [List.mem_range] at hk
  exact h.bytes _ (by rw [h.sb]; omega)

/-- The count runs to the last five bytes (R151). -/
theorem countMatch_eq (h : OneByteChunk ch b) : countMatch ch 1 0 = ch.n - 10 := by
  refine countEqual_eq_limit _ _ _ _ fun j hj => ?_
  simp only [Config.minMatch, Config.lastLiterals] at hj ⊢
  rw [h.bytes _ (by omega), h.bytes _ (by rw [h.sb]; omega)]

/-- Position 0 is put, and the first probe, at 1, takes it from the bucket the two share (R141, R180). -/
theorem entry_finds_zero (h : OneByteChunk ch b) (e : Engine) :
    ∃ f, engineStep ch (engineEntry ch e) = .running f ∧ f.phase = .catchUp ∧ f.anchor = 0 ∧ f.p = 1 ∧ f.c = 0 ∧
      f.out = [] := by
  have hn := h.n
  obtain ⟨-, hentry⟩ := engineEntersAtPositionOne ch e
  rw [hentry (by omega)]
  have hslot : some 0 = slotGet (slotPut e.ht (hashAt ch e.tm ch.sb) ch.sb) (hashAt ch e.tm (ch.sb + 1)) := by
    rw [h.hashAt_eq e.tm (u := ch.sb + 1) (v := ch.sb) (by rw [h.sb]; omega) (by rw [h.sb]; omega),
      slotGet_slotPut_self, h.sb]
  have hvalid : validCandidate ch e.tm (some 0) (ch.sb + 1) = true := by
    obtain ⟨hiff, -⟩ := candidatesAreValidated ch e.tm (some 0) 0 (ch.sb + 1) rfl (fun _ => Option.some_ne_none 0)
    refine hiff.2 ⟨fun hdict => hdict.1 h.dm, fun hfar => ?_, fun j hj => ?_⟩
    · simp only [h.sb] at hfar
      omega
    · rw [h.bytes _ (by omega), h.bytes _ (by rw [h.sb]; omega)]
  obtain ⟨hstep, -, hprobe⟩ := probesExchangeAndTest ch { e with
    ip := 0, anchor := 0, out := [], phase := .seekMatch, fwd := 1, step := 1, nb := 64 * ch.accel,
    ht := slotPut e.ht (hashAt ch e.tm ch.sb) ch.sb } (some 0) hslot
  have hlimit : ((1 + 1 : Nat) : Int) ≤ probeLimit ch.params.variant ch.n := by
    cases ch.params.variant <;> simp only [probeLimit] <;> omega
  exact ⟨_, (hstep rfl).trans (congrArg EngineStep.running (hprobe hlimit)), if_pos hvalid, rfl, rfl, rfl, rfl⟩

/-- The candidate 0 is the lower bound of catch-up: nothing moves (R150). -/
theorem catchUp_stays (h : OneByteChunk ch b) (hp : e.phase = .catchUp) (hc : e.c = 0) :
    engineStep ch e = .running { e with phase := .encodeLiterals } := by
  have hlow : catchUpLow ch 0 = 0 := by rw [catchUpLow_eq, if_pos h.dm]
  have hstay : catchUpLoop ch e.anchor 0 e.p 0 = (e.p, 0) := by
    cases e.p with
    | zero => rfl
    | succ p => exact if_neg fun hback => Nat.lt_irrefl 0 hback.2.1
  simp only [engineStep, hp, stepCatchUp, hc, hlow, hstay]

/-- The token begun at the cursor has the one literal before the match (R177, R182). -/
theorem encodeLiterals_begins (h : OneByteChunk ch b) (hp : e.phase = .encodeLiterals) (ha : e.anchor = 0) (hp1 : e.p = 1)
    (hc : e.c = 0) (ho : e.out = []) :
    ∃ f, engineStep ch e = .running f ∧ f.phase = .encodeMatch ∧ f.p = 1 ∧ f.c = 0 ∧ f.tokpos = 0 ∧
      f.out = [tokenByte 1 0, b] := by
  have hn := h.n
  have hcap := h.cap
  obtain ⟨hliterals, -⟩ := engineEmitsTokens ch e [b]
  have hstep := hliterals hp (by rw [← Machine.sourceSlice_eq, hp1, ha, h.sourceSlice_eq (by omega), List.replicate_one])
  rw [ho, if_pos (by simp only [List.length_nil, List.length_singleton]; omega)] at hstep
  exact ⟨_, hstep, rfl, hp1, hc, rfl, rfl⟩

/-- The match is counted to the last five bytes and completes the token; what it leaves is within MFLIMIT (R184, R187). -/
theorem encodeMatch_completes (h : OneByteChunk ch b) (hp : e.phase = .encodeMatch) (hp1 : e.p = 1) (hc : e.c = 0)
    (ht : e.tokpos = 0) (ho : e.out = [tokenByte 1 0, b]) :
    ∃ f, engineStep ch e = .running f ∧ f.phase = .lastLiterals ∧ f.anchor = ch.n - 5 ∧
      f.out = encodeToken (.seq [b] 1#16 (ch.n - 10)) := by
  have hn := h.n
  have hcap := h.cap
  have hdist : ch.sb + e.p - e.c = 1 := by rw [h.sb, hp1, hc]
  obtain ⟨-, hmatch, -⟩ := engineEmitsTokens ch e [b]
  have hstep := hmatch [] (ch.n - 10) hp ht ho (Nat.lt_of_sub_pos (by rw [hdist]; decide)) (by rw [hdist]; decide)
    (by rw [hp1, hc, h.countMatch_eq])
  rw [if_pos ⟨by simp only [ho, List.length_cons, List.length_nil]; omega, .inl hcap⟩, hdist] at hstep
  exact ⟨_, hstep, if_pos (by rw [hp1]; omega), by simp only [hp1]; omega, rfl⟩

/-- The run: one literal and one match, and five literals (R177). -/
theorem runEngine_eq (h : OneByteChunk ch b) (e : Engine) :
    ∃ e1, runEngine ch e = .finished e1 ch.n ∧
      e1.out = encodeToken (.seq [b] 1#16 (ch.n - 10)) ++ encodeToken (.last 0#4 (List.replicate 5 b)) := by
  have hn := h.n
  have hcap := h.cap
  obtain ⟨k, hfuel⟩ : ∃ k, engineFuel ch.n = k + 5 := ⟨_, (Nat.sub_add_cancel (by unfold engineFuel; nlinarith)).symm⟩
  obtain ⟨f1, h1, hp1, ha1, hpos1, hc1, ho1⟩ := h.entry_finds_zero e
  obtain ⟨f2, h2, hp2, hpos2, hc2, ht2, ho2⟩ :=
    h.encodeLiterals_begins (e := { f1 with phase := .encodeLiterals }) rfl ha1 hpos1 hc1 ho1
  obtain ⟨f3, h3, hp3, ha3, ho3⟩ := h.encodeMatch_completes hp2 hpos2 hc2 ht2 ho2
  have hlits : sourceSlice ch f3.anchor ch.n = List.replicate 5 b := by
    rw [h.sourceSlice_eq (Nat.le_refl _), ha3, Nat.sub_sub_self (by omega)]
  have hfit : f3.out.length + 1 + ((List.replicate 5 b).length + 240) / 255 + (List.replicate 5 b).length ≤ ch.cap := by
    rw [ho3, encodeToken_length, tokenSize, lenExtSize_eq, lenExtSize_eq, List.length_replicate, List.length_singleton]
    omega
  rw [runEngine, hfuel, engineRun_of_running h1, engineRun_of_running (h.catchUp_stays hp1 hc1), engineRun_of_running h2,
    engineRun_of_running h3]
  exact ⟨_, engineRun_of_lastLiterals hp3 h.final hlits hfit, congrArg (· ++ _) ho3⟩

end OneByteChunk

/-- The only chunk of a source of one byte `b` repeated, with the worst case for its capacity (R168, R200). -/
theorem oneByteChunk_onlyChunk (P : Config.Params) (b : Byte) {n : Nat} (hn : 14 ≤ n) (accel : Nat) :
    OneByteChunk (onlyChunk P (List.replicate n b) [] .noDict accel (compressBound n)) b where
  bytes v hv := by
    have hv' : v < (List.replicate n b).length := hv
    exact (List.getD_eq_getElem _ _ hv').trans (List.getElem_replicate hv')
  dm := rfl
  sb := rfl
  final := rfl
  cap := by
    change (List.replicate n b).length + (List.replicate n b).length / 255 + 16 ≤ n + n / 255 + 16
    rw [List.length_replicate]
  n := hn.trans_eq List.length_replicate.symm

/-- Settles O59: `OneByteChunk.runEngine_eq` says what the one chunk emits, and `exec_compress_of_stream` what the command
makes of it. -/
theorem runsOfOneByteAreOneMatch : Obligations.RunsOfOneByteAreOneMatch := by
  unfold Obligations.RunsOfOneByteAreOneMatch
  intro s b n U hr hn hmax _ hsrc hU
  have hlen : (List.replicate n b).length = n := List.length_replicate
  obtain ⟨e1, hrun, hout⟩ := (oneByteChunk_onlyChunk Config.hw b hn (effectiveAccel s.latch.accel.toNat)).runEngine_eq
    (setupTable (onlyChunk Config.hw (List.replicate n b) [] .noDict (effectiveAccel s.latch.accel.toNat)
      (compressBound n)) s.engine)
  have hstream := chunkCompress_of_onlyChunk (hlen.trans_le hmax) hrun
  have hUeq : e1.out = U := by
    rw [hout, hU]
    change encodeToken (.seq [b] 1#16 ((List.replicate n b).length - 10)) ++ _ = _
    rw [hlen]
  rw [hUeq, ← hsrc] at hstream
  obtain ⟨hfits, hover⟩ := exec_compress_of_stream (d := .noDict) hr rfl hstream
  refine ⟨fun hle => ⟨_, _, hfits hle⟩, fun hlt => ?_⟩
  obtain ⟨e, w, m, hnext, -⟩ := hover hlt
  exact ⟨_, hnext, rfl, rfl⟩

end Sys2Proof.Machine
end
